-- ==== Sys2Proof/Word.lean ====
section
/-! DEFINITION. The word types, the two channels and a pair indexed by channel. The numeric type `V` (00_scope.md R12)
is a parameter of every definition that computes with samples; see Config.lean. -/

namespace Sys2Proof

abbrev Byte := BitVec 8

abbrev Word32 := BitVec 32

/-- One command word (30_encoding.md R80). -/
abbrev CmdWord := BitVec 64

/-- Channel index 0 is left, 1 is right (00_scope.md R3). -/
inductive Channel
  | left
  | right
deriving DecidableEq, Repr

/-- One thing for each of the two channels. -/
structure Pair (α : Type) where
  left : α
  right : α
deriving DecidableEq, Repr

/-- A memory of cells: (index, value) pairs, indices strictly rising (20_memory.md R63: one cell holds one value of V).
What an unlisted index reads as is an argument of the operations in Machine/Memory.lean. -/
abbrev Mem (V : Type) := List (Nat × V)

end Sys2Proof
end

