-- ==== Sys2Proof/Syntax.lean ====
section
/-! DEFINITION. The commands of TWC-1: one constructor for each row of spec/opcode_table.json. -/

namespace Sys2Proof

/-- A command (30_encoding.md R87). Count operands are numbers (R86), value operands the raw 32-bit field `w`. -/
inductive Instr
  | prepare (blk : Nat) (fs : Word32)
  | reset
  | seed (w : Word32)
  | setpDrive (w : Word32)
  | setpSat (w : Word32)
  | setpWarmth (w : Word32)
  | setpHbamt (w : Word32)
  | setpHbfreq (w : Word32)
  | setpWow (w : Word32)
  | setpFlutter (w : Word32)
  | setpHiss (w : Word32)
  | setpOutgain (w : Word32)
  | setpMix (w : Word32)
  | setpAge (w : Word32)
  | setpBias (w : Word32)
  | setpSpeed (w : Word32)
  | setpForm (w : Word32)
  | gettIn
  | gettOut
  | gets
  | process (nch nsamp : Nat)
deriving DecidableEq, Repr

/-- The three command classes (30_encoding.md R87, 60_exceptions.md R217). -/
inductive CmdClass
  | seq
  | ctl
  | obs
deriving DecidableEq, Repr

/-- Column "cls" of R87. -/
def Instr.cls : Instr → CmdClass
  | .prepare _ _ | .reset | .seed _ | .process _ _ => .seq
  | .setpDrive _ | .setpSat _ | .setpWarmth _ | .setpHbamt _ | .setpHbfreq _ | .setpWow _ | .setpFlutter _
  | .setpHiss _ | .setpOutgain _ | .setpMix _ | .setpAge _ | .setpBias _ | .setpSpeed _ | .setpForm _ => .ctl
  | .gettIn | .gettOut | .gets => .obs

end Sys2Proof
end

