-- ==== Sys2Proof/WellFormed.lean ====
section
/-! DEFINITION. Which terms of `Instr` are commands: every count operand fits its field (30_encoding.md R80, R86). -/

namespace Sys2Proof

/-- Field `b` is 16 bits, field `a` is 8 bits, both unsigned; the 32-bit operands are bit vectors already. -/
def Instr.wf : Instr → Bool
  | .prepare blk _ => decide (blk < 65536)
  | .process nch nsamp => decide (nch < 256) && decide (nsamp < 65536)
  | .reset | .seed _ | .setpDrive _ | .setpSat _ | .setpWarmth _ | .setpHbamt _ | .setpHbfreq _ | .setpWow _
  | .setpFlutter _ | .setpHiss _ | .setpOutgain _ | .setpMix _ | .setpAge _ | .setpBias _ | .setpSpeed _
  | .setpForm _ | .gettIn | .gettOut | .gets => true

end Sys2Proof
end

