-- ==== Sys2Proof/Decode.lean ====
section
/-! DEFINITION. Decoding and encoding of command words (30_encoding.md R80, R87, R88), the opcode table, and the
serialisation of a word (20_memory.md R64). -/

namespace Sys2Proof

/-- Why a word is illegal (30_encoding.md R88). Every reason raises E_ILLEGAL. -/
inductive Illegal
  /-- opcode 0x00 or 0x08..0xFF -/
  | opcode
  /-- SETP with a >= 14 -/
  | paramIndex
  /-- GETT with a >= 2 -/
  | telemetryIndex
  /-- a non-zero bit in a field that the row's mask covers with zero -/
  | reservedBits
deriving DecidableEq, Repr

/-! The fields of format C (R80). -/

def opField (w : CmdWord) : BitVec 8 := w.extractLsb' 56 8
def aField (w : CmdWord) : BitVec 8 := w.extractLsb' 48 8
def bField (w : CmdWord) : BitVec 16 := w.extractLsb' 32 16
def wField (w : CmdWord) : Word32 := w.extractLsb' 0 32

/-- The four fields laid out as one word (R80). -/
def pack (op a : BitVec 8) (b : BitVec 16) (w : Word32) : CmdWord := op ++ a ++ b ++ w

/-- The row of R87 is spelled only if its zero fields are zero (R88). -/
def zeroFields (ok : Bool) (i : Instr) : Except Illegal Instr :=
  if ok then .ok i else .error .reservedBits

/-- SETP: field `a` selects the parameter (R87). -/
def decodeSetp (a : Nat) (w : Word32) : Except Illegal Instr :=
  match a with
  | 0 => .ok (.setpDrive w)
  | 1 => .ok (.setpSat w)
  | 2 => .ok (.setpWarmth w)
  | 3 => .ok (.setpHbamt w)
  | 4 => .ok (.setpHbfreq w)
  | 5 => .ok (.setpWow w)
  | 6 => .ok (.setpFlutter w)
  | 7 => .ok (.setpHiss w)
  | 8 => .ok (.setpOutgain w)
  | 9 => .ok (.setpMix w)
  | 10 => .ok (.setpAge w)
  | 11 => .ok (.setpBias w)
  | 12 => .ok (.setpSpeed w)
  | 13 => .ok (.setpForm w)
  | _ => .error .paramIndex

/-- Decode one command word (R87, R88): total. -/
def decode (w : CmdWord) : Except Illegal Instr :=
  let a := aField w
  let b := bField w
  let v := wField w
  match (opField w).toNat with
  | 1 => zeroFields (a == 0) (.prepare b.toNat v)
  | 2 => zeroFields (a == 0 && b == 0 && v == 0) .reset
  | 3 => zeroFields (a == 0 && b == 0) (.seed v)
  | 4 => if b == 0 then decodeSetp a.toNat v else .error .reservedBits
  | 5 =>
    match a.toNat with
    | 0 => zeroFields (b == 0 && v == 0) .gettIn
    | 1 => zeroFields (b == 0 && v == 0) .gettOut
    | _ => .error .telemetryIndex
  | 6 => zeroFields (a == 0 && b == 0 && v == 0) .gets
  | 7 => zeroFields (v == 0) (.process a.toNat b.toNat)
  | _ => .error .opcode

/-- The word of a command, from the same table (R87). -/
def encode : Instr → CmdWord
  | .prepare blk fs => pack 1 0 (.ofNat 16 blk) fs
  | .reset => pack 2 0 0 0
  | .seed w => pack 3 0 0 w
  | .setpDrive w => pack 4 0 0 w
  | .setpSat w => pack 4 1 0 w
  | .setpWarmth w => pack 4 2 0 w
  | .setpHbamt w => pack 4 3 0 w
  | .setpHbfreq w => pack 4 4 0 w
  | .setpWow w => pack 4 5 0 w
  | .setpFlutter w => pack 4 6 0 w
  | .setpHiss w => pack 4 7 0 w
  | .setpOutgain w => pack 4 8 0 w
  | .setpMix w => pack 4 9 0 w
  | .setpAge w => pack 4 10 0 w
  | .setpBias w => pack 4 11 0 w
  | .setpSpeed w => pack 4 12 0 w
  | .setpForm w => pack 4 13 0 w
  | .gettIn => pack 5 0 0 0
  | .gettOut => pack 5 1 0 0
  | .gets => pack 6 0 0 0
  | .process nch nsamp => pack 7 (.ofNat 8 nch) (.ofNat 16 nsamp) 0

/-- One row of spec/opcode_table.json: a word spells the command when `word AND mask = pattern` (R87). -/
structure Row where
  mnemonic : String
  mask : CmdWord
  pattern : CmdWord
deriving DecidableEq, Repr

def Row.matches (r : Row) (w : CmdWord) : Bool := w &&& r.mask == r.pattern

/-- The row that a command's words match (R87). -/
def Instr.row : Instr → Row
  | .prepare _ _ => ⟨"PREPARE", 0xFFFF000000000000, 0x0100000000000000⟩
  | .reset => ⟨"RESET", 0xFFFFFFFFFFFFFFFF, 0x0200000000000000⟩
  | .seed _ => ⟨"SEED", 0xFFFFFFFF00000000, 0x0300000000000000⟩
  | .setpDrive _ => ⟨"SETP.DRIVE", 0xFFFFFFFF00000000, 0x0400000000000000⟩
  | .setpSat _ => ⟨"SETP.SAT", 0xFFFFFFFF00000000, 0x0401000000000000⟩
  | .setpWarmth _ => ⟨"SETP.WARMTH", 0xFFFFFFFF00000000, 0x0402000000000000⟩
  | .setpHbamt _ => ⟨"SETP.HBAMT", 0xFFFFFFFF00000000, 0x0403000000000000⟩
  | .setpHbfreq _ => ⟨"SETP.HBFREQ", 0xFFFFFFFF00000000, 0x0404000000000000⟩
  | .setpWow _ => ⟨"SETP.WOW", 0xFFFFFFFF00000000, 0x0405000000000000⟩
  | .setpFlutter _ => ⟨"SETP.FLUTTER", 0xFFFFFFFF00000000, 0x0406000000000000⟩
  | .setpHiss _ => ⟨"SETP.HISS", 0xFFFFFFFF00000000, 0x0407000000000000⟩
  | .setpOutgain _ => ⟨"SETP.OUTGAIN", 0xFFFFFFFF00000000, 0x0408000000000000⟩
  | .setpMix _ => ⟨"SETP.MIX", 0xFFFFFFFF00000000, 0x0409000000000000⟩
  | .setpAge _ => ⟨"SETP.AGE", 0xFFFFFFFF00000000, 0x040A000000000000⟩
  | .setpBias _ => ⟨"SETP.BIAS", 0xFFFFFFFF00000000, 0x040B000000000000⟩
  | .setpSpeed _ => ⟨"SETP.SPEED", 0xFFFFFFFF00000000, 0x040C000000000000⟩
  | .setpForm _ => ⟨"SETP.FORM", 0xFFFFFFFF00000000, 0x040D000000000000⟩
  | .gettIn => ⟨"GETT.IN", 0xFFFFFFFFFFFFFFFF, 0x0500000000000000⟩
  | .gettOut => ⟨"GETT.OUT", 0xFFFFFFFFFFFFFFFF, 0x0501000000000000⟩
  | .gets => ⟨"GETS", 0xFFFFFFFFFFFFFFFF, 0x0600000000000000⟩
  | .process _ _ => ⟨"PROCESS", 0xFF000000FFFFFFFF, 0x0700000000000000⟩

/-- One command of each constructor. -/
def Instr.samples : List Instr :=
  [.prepare 0 0, .reset, .seed 0, .setpDrive 0, .setpSat 0, .setpWarmth 0, .setpHbamt 0, .setpHbfreq 0, .setpWow 0,
    .setpFlutter 0, .setpHiss 0, .setpOutgain 0, .setpMix 0, .setpAge 0, .setpBias 0, .setpSpeed 0, .setpForm 0,
    .gettIn, .gettOut, .gets, .process 0 0]

/-- The opcode table: 21 rows (R87, R89). -/
def opcodeTable : List Row := Instr.samples.map Instr.row

/-- A command word from eight bytes of a byte-wide transport, least significant byte first (20_memory.md R64).
No rule of the block depends on it. -/
def wordOfBytes (bs : List Byte) : Option CmdWord :=
  match bs with
  | [b0, b1, b2, b3, b4, b5, b6, b7] => some (b7 ++ b6 ++ b5 ++ b4 ++ b3 ++ b2 ++ b1 ++ b0 : BitVec 64)
  | _ => none

/-- The eight bytes of a word, in the order of `wordOfBytes`. -/
def bytesOfWord (w : CmdWord) : List Byte :=
  (List.range 8).map fun k => w.extractLsb' (8 * k) 8

/-- Decode a byte string: the command and the bytes after it. A string shorter than one word is no command. -/
def decodeBytes (bs : List Byte) : Option (Except Illegal Instr × List Byte) :=
  (wordOfBytes (bs.take 8)).map fun w => (decode w, bs.drop 8)

/-- The command whose bits are `w` as spec/opcode_table.json numbers them; every row is one 64-bit word. -/
def decodeTableWord (nbits w : Nat) : Option Instr :=
  match decode (BitVec.ofNat 64 (w % 2 ^ nbits)) with
  | .ok i => some i
  | .error _ => none

end Sys2Proof
end

