-- ==== Sys2Proof/Config.lean ====
section
/-! DEFINITION. The numeric domain `CFG.NUM` (00_scope.md R12), the configuration record CFG (R8), the constants TW
fixes, and the free values of a configuration that is not the reference one. -/

namespace Sys2Proof

/-- A numeric domain: what `CFG.NUM` supplies on its type `V` (00_scope.md R12). Every stage of the block is written in
these operations and no others. `lit` gives the constants: `ofInt(z)` and the decimal literals (R13).
With them the two functions on `V` that CFG supplies itself: `CFG.enc32` (30_encoding.md R83) and a `CFG.NOISE_LEVEL`
that is not linear (R8). -/
class NUM (V : Type) extends Add V, Sub V, Mul V, Div V where
  lit : ℚ → V
  lt : V → V → Bool
  le : V → V → Bool
  abs : V → V
  max : V → V → V
  floor : V → Int
  sin : V → V
  cos : V → V
  tanh : V → V
  /-- `10^x` -/
  pow10 : V → V
  pi : V
  enc32 : V → Word32
  noiseLevel : V → V

/-- What a domain with exact arithmetic still has to supply: the functions that `+ - * /` do not give. -/
structure Fns (V : Type) where
  sin : V → V
  cos : V → V
  tanh : V → V
  pow10 : V → V
  pi : V
  enc32 : V → Word32
  noiseLevel : V → V

/-- The domain with every arithmetic operation, comparison, `abs`, `max` and `floor` exact (00_scope.md R12). -/
@[reducible] def NUM.exact {V : Type} [Field V] [LinearOrder V] [FloorRing V] (F : Fns V) : NUM V where
  toAdd := inferInstance
  toSub := inferInstance
  toMul := inferInstance
  toDiv := inferInstance
  lit q := (q : V)
  lt x y := decide (x < y)
  le x y := decide (x ≤ y)
  abs x := |x|
  max x y := Max.max x y
  floor x := ⌊x⌋
  sin := F.sin
  cos := F.cos
  tanh := F.tanh
  pow10 := F.pow10
  pi := F.pi
  enc32 := F.enc32
  noiseLevel := F.noiseLevel

/-- `CFG.NUM` (00_scope.md R8). `exact`: exact arithmetic; on the reals this is `NUM_REAL` (Machine/Reals.lean), on the
rationals its functions are free values with the named properties of R12 (log 2). `series bits`: the same on the
rationals with the functions computed, each rounded to a multiple of 2^-bits (log 2). `other`: every operation a free
value, so any instance that rounds, overflows or has a NaN (log 1). -/
inductive NumSel
  | exact
  | series (bits : Nat)
  | other
deriving DecidableEq, Repr

/-- `CFG.PRNG` (44_noise.md R160): the reference instance PRBS31 (R162), or any other generator (log 4). -/
inductive PrngSel
  | prbs31
  | other
deriving DecidableEq, Repr

/-- `CFG.NOISE_LEVEL` (00_scope.md R8): linear in the hiss fraction, or any other admissible function (log 5). -/
inductive NoiseSel (V : Type)
  | linear (gain : V)
  | other
deriving DecidableEq, Repr

/-- `CFG.enc32` (30_encoding.md R83): binary32 to nearest, ties to even, saturating; or any other function (log 6). -/
inductive EncSel
  | binary32
  | other
deriving DecidableEq, Repr

/-- The state of the generator, "of the type `CFG.PRNG` gives" (10_state.md R56): 31 bits for PRBS31, a number
that codes the state of any other generator. -/
inductive RngState
  | prbs (r : BitVec 31)
  | other (n : Nat)
deriving DecidableEq, Repr

/-- The open fields of `CFG` (00_scope.md R8), over the numeric type `V` of `CFG.NUM`. -/
structure Cfg (V : Type) where
  num : NumSel
  prng : PrngSel
  nmax : Nat
  lmax : Nat
  kBias : V
  kModMs : V
  kTilt : V
  noiseLevel : NoiseSel V
  enc32 : EncSel
  seed0 : Word32
deriving DecidableEq, Repr

/-- The constraints of R8: `1 <= NMAX <= 65535`, `LMAX >= 4`, `NOISE_LEVEL(h) >= 0`. -/
def Cfg.wf {V : Type} [NUM V] (c : Cfg V) : Bool :=
  decide (1 ≤ c.nmax) && decide (c.nmax ≤ 65535) && decide (4 ≤ c.lmax) &&
    match c.noiseLevel with
    | .linear g => NUM.le (NUM.lit 0) g
    | .other => true

/-- The reference values of R8, used by every test vector of 95_test_vectors.md. -/
def Cfg.reference {V : Type} [RatCast V] : Cfg V where
  num := .exact
  prng := .prbs31
  nmax := 4096
  lmax := 9600
  kBias := ((1 / 10 : ℚ) : V)
  kModMs := ((1 : ℚ) : V)
  kTilt := ((7 / 10 : ℚ) : V)
  noiseLevel := .linear ((1 / 100 : ℚ) : V)
  enc32 := .binary32
  seed0 := 0x12345678

/-- The reference configuration (00_scope.md R8) with the functions of NUM_REAL computed on the rationals.
`series 96` is DESIGN CHOICE (log 2): NUM_REAL itself cannot be computed; its machine is in Machine/Reals.lean. -/
def Cfg.running : Cfg ℚ := { Cfg.reference with num := .series 96 }

/-! The fields of CFG that TW fixes (00_scope.md R8). -/

def Config.nchMax : Nat := 2
def Config.delayBaseMs : ℚ := 10
def Config.delayBufMs : ℚ := 50
def Config.rndPeriod : Nat := 1000

/-! Free values: what an implementation other than the reference one supplies. None has a body. -/

/-- `+` of another NUM instance. -/
opaque Config.otherAdd : ℚ → ℚ → ℚ
/-- `-` of another NUM instance. -/
opaque Config.otherSub : ℚ → ℚ → ℚ
/-- `*` of another NUM instance. -/
opaque Config.otherMul : ℚ → ℚ → ℚ
/-- `/` of another NUM instance. -/
opaque Config.otherDiv : ℚ → ℚ → ℚ
/-- `<` of another NUM instance. -/
opaque Config.otherLt : ℚ → ℚ → Bool
/-- `<=` of another NUM instance. -/
opaque Config.otherLe : ℚ → ℚ → Bool
/-- `abs` of another NUM instance. -/
opaque Config.otherAbs : ℚ → ℚ
/-- `max` of another NUM instance. -/
opaque Config.otherMax : ℚ → ℚ → ℚ
/-- `floor` of another NUM instance. -/
opaque Config.otherFloor : ℚ → Int
/-- The circle constant of another NUM instance. -/
opaque Config.otherPi : ℚ
/-- `sin` of another NUM instance. -/
opaque Config.otherSin : ℚ → ℚ
/-- `cos` of another NUM instance. -/
opaque Config.otherCos : ℚ → ℚ
/-- `tanh` of another NUM instance. -/
opaque Config.otherTanh : ℚ → ℚ
/-- `10^x` of another NUM instance. -/
opaque Config.otherPow10 : ℚ → ℚ
/-- `NOISE_LEVEL` of another configuration, on positive hiss fractions. -/
opaque Config.otherNoiseLevel : ℚ → ℚ
/-- `enc32` of another configuration. -/
opaque Config.otherEnc32 : ℚ → Word32
/-- `NOISE_LEVEL` of another configuration over the reals, on positive hiss fractions. -/
opaque Config.realNoiseLevel : ℝ → ℝ
/-- `enc32` of another configuration over the reals. -/
opaque Config.realEnc32 : ℝ → Word32
/-- `seedOf` of another generator. -/
opaque Config.otherSeed : Word32 → Nat
/-- The state part of `next` of another generator. -/
opaque Config.otherNext : Nat → Nat
/-- The value part of `next` of another generator. -/
opaque Config.otherDraw : Nat → ℚ

end Sys2Proof
end

