-- ==== Sys2Proof/Machine/Basics.lean ====
section
/-! DEFINITION. The pseudocode primitives of 00_scope.md R11 in the operations of `CFG.NUM`, and channel pairs. -/

namespace Sys2Proof

open NUM (lit lt le)

section
variable {V : Type} [NUM V]

/-- An integer as a value of V: `ofInt(z)` (00_scope.md R12). -/
def ofInt (z : Int) : V := lit (z : ℚ)

/-- `clamp(x, lo, hi)` (00_scope.md R11). -/
def clamp (x lo hi : V) : V := if lt x lo then lo else if lt hi x then hi else x

/-- `sgn` of 41_saturation.md R125, used off 0 only. -/
def sgn (x : V) : V := if lt (lit 0) x then lit 1 else lit (-1)

/-- `frac(x) = x - floor(x)` (R11). -/
def frac (x : V) : V := x - ofInt (NUM.floor x)

/-- The least integer >= x (46_commands.md R191), by `floor`, the one rounding that R12 gives: DESIGN CHOICE (log 23) for
an instance that rounds. -/
def ceil (x : V) : Int := -NUM.floor (lit 0 - x)

end

/-- `a mod m` for m > 0 (R11): the remainder is never negative. -/
def modNat (a : Int) (m : Nat) : Nat := (a % (m : Int)).toNat

/-- The channel's index (00_scope.md R3). -/
def Channel.index : Channel → Nat
  | .left => 0
  | .right => 1

/-- The channel with an index, if there is one (R3). -/
def Channel.ofIndex : Nat → Option Channel
  | 0 => some .left
  | 1 => some .right
  | _ => none

def Pair.get {α : Type} (p : Pair α) : Channel → α
  | .left => p.left
  | .right => p.right

def Pair.set {α : Type} (p : Pair α) (c : Channel) (a : α) : Pair α :=
  match c with
  | .left => { p with left := a }
  | .right => { p with right := a }

/-- The channels of a block, ascending: `for c in 0..nch-1` (45_pipeline.md R172). -/
def channels (nch : Nat) : List Channel :=
  match nch with
  | 0 => []
  | 1 => [.left]
  | _ => [.left, .right]

/-- The cells of a block in scan order, frame-major, channel-minor (45_pipeline.md R173). -/
def blockCells (nch nsamp : Nat) : List (Channel × Nat) :=
  (List.range nsamp).flatMap fun n => (channels nch).map fun c => (c, n)

end Sys2Proof
end

