-- ==== Sys2Proof/Machine/Binary32.lean ====
section
/-! DEFINITION. The binary32 form of operands and results (30_encoding.md R82, R83). -/

namespace Sys2Proof

/-- `dec32(w)` (30_encoding.md R82): the exact value of a binary32 word, `none` for an infinity or a NaN. -/
def dec32 (w : Word32) : Option ℚ :=
  let e := (w.extractLsb' 23 8).toNat
  let m := (w.extractLsb' 0 23).toNat
  let sign : Int := if w.getLsbD 31 then -1 else 1
  if e = 255 then none
  else if e = 0 then some (mkRat (sign * m) (2 ^ 149))
  else if e < 150 then some (mkRat (sign * (2 ^ 23 + m : Nat)) (2 ^ (150 - e)))
  else some ((sign * (2 ^ 23 + m : Nat) * (2 ^ (e - 150) : Nat) : Int) : ℚ)

section
variable {V : Type} [Field V] [LinearOrder V] [FloorRing V]

/-- The integer nearest to `x`, ties to even. -/
def roundHalfEven (x : V) : Int :=
  let f := ⌊x⌋
  let r := x - (f : V)
  if r < 1 / 2 then f
  else if 1 / 2 < r then f + 1
  else if f % 2 = 0 then f else f + 1

/-- The exponent `e` with `2^e <= x < 2^(e+1)`, for a positive x; at least -126, where the subnormal words begin. -/
def binaryExponent (x : V) : Int := max (Int.log 2 x) (-126)

/-- The binary32 word nearest to a value: ties to even, the largest finite value beyond it
(30_encoding.md R83, 92_eei_decisions.md D3). -/
def binary32 (v : V) : Word32 :=
  let x := |v|
  let e := if x = 0 then -126 else binaryExponent x
  let scaled := if e ≤ 23 then x * ((2 ^ (23 - e).toNat : Nat) : V) else x / ((2 ^ (e - 23).toNat : Nat) : V)
  let bits := (e + 126) * 2 ^ 23 + roundHalfEven scaled
  let finite := if bits < 0x7F800000 then bits.toNat else 0x7F7FFFFF
  BitVec.ofNat 32 (finite + if v < 0 then 0x80000000 else 0)

end

end Sys2Proof
end

