-- ==== Sys2Proof/Machine/Num.lean ====
section
/-! DEFINITION. The numeric domains of the running machine (00_scope.md R12): `sin`, `cos`, `tanh`, `pow10` and `pi` on
the rationals, and the domain that `CFG.NUM` selects.

For `exact` and `series bits` each function is held inside the properties R12 names (`tanh(0) = 0`, `abs(tanh(x)) <= 1`,
`abs(sin(x)) <= 1`) and those the rules use (log 2). `series bits` computes in fixed point, `bits` and 32 guard bits, and
rounds once. -/

namespace Sys2Proof

namespace Num

/-- pi, 50 decimals. PRESUMED (log 2). -/
def piLit : ℚ := 314159265358979323846264338327950288419716939937510 / 100000000000000000000000000000000000000000000000000

/-- The natural logarithm of 10, 50 decimals. PRESUMED (log 2). -/
def ln10Lit : ℚ := 230258509299404568401799145468436420760110148862877 / 100000000000000000000000000000000000000000000000000

/-- `floor(x * 2^g)`. -/
def toFixed (g : Nat) (x : ℚ) : Int := (x * (2 ^ g : Nat)).floor

/-- `n / 2^g`, rounded to a multiple of 2^-bits. -/
def ofFixed (g bits : Nat) (n : Int) : ℚ := mkRat ((n * 2 ^ bits * 2 + 2 ^ g) / (2 ^ g * 2)) (2 ^ bits)

/-- The alternating series `t - t*y/(m(m+1)) + ...`, in fixed point: `fuel` terms. -/
def alternating (g : Nat) (y : Int) : Nat → Nat → Int → Int
  | 0, _, _ => 0
  | fuel + 1, m, t => t + alternating g y fuel (m + 2) (-(t * y / (2 ^ g * (m * (m + 1)))))

/-- The series of `exp(-y)` from its term `t` of degree `m - 1`. -/
def expTerms (g : Nat) (y : Int) : Nat → Nat → Int → Int
  | 0, _, _ => 0
  | fuel + 1, m, t => t + expTerms g y fuel (m + 1) (-(t * y / (2 ^ g * m)))

/-- Square `k` times. -/
def squares (g : Nat) : Nat → Int → Int
  | 0, e => e
  | k + 1, e => squares g k (e * e / 2 ^ g)

/-- `exp(-y)` for `y >= 0`, in fixed point; 0 from 128 up. -/
def expNeg (g : Nat) (y : ℚ) : Int :=
  if 128 ≤ y then 0 else squares g 8 (expTerms g (toFixed g (y / 256)) (g / 4) 1 (2 ^ g))

/-- The argument less the nearest multiple of 2 pi. -/
def reduceAngle (x : ℚ) : ℚ := x - 2 * piLit * ((x / (2 * piLit) + 1 / 2).floor : ℚ)

def seriesSin (bits : Nat) (x : ℚ) : ℚ :=
  let g := bits + 32
  let r := toFixed g (reduceAngle x)
  ofFixed g bits (alternating g (r * r / 2 ^ g) (g / 4) 2 r)

def seriesCos (bits : Nat) (x : ℚ) : ℚ :=
  let g := bits + 32
  let r := toFixed g (reduceAngle x)
  ofFixed g bits (alternating g (r * r / 2 ^ g) (g / 4) 1 (2 ^ g))

/-- `tanh` of a positive argument: `(1 - e) / (1 + e)` with `e = exp(-2x)`, below 1. -/
def seriesTanh (bits : Nat) (x : ℚ) : ℚ :=
  let g := bits + 32
  let e := expNeg g (2 * x)
  let t := ofFixed g bits ((2 ^ g - e) * 2 ^ g / (2 ^ g + e))
  if t < 1 then t else 1 - mkRat 1 (2 ^ bits)

/-- `10^x` as `10^k * 10^f` with k the floor of x and f its fraction; `10^f` is the rounded factor. -/
def seriesPow10 (bits : Nat) (x : ℚ) : ℚ :=
  let g := bits + 32
  let m := ofFixed g bits (2 ^ g * 2 ^ g / expNeg g ((x - (x.floor : ℚ)) * ln10Lit))
  if x < 0 then m / (10 ^ (-x.floor).toNat : Nat) else m * (10 ^ x.floor.toNat : Nat)

/-! The function before it is held: computed, or a free value. -/

def rawSin : NumSel → ℚ → ℚ
  | .series bits => seriesSin bits
  | .exact | .other => Config.otherSin

def rawCos : NumSel → ℚ → ℚ
  | .series bits => seriesCos bits
  | .exact | .other => Config.otherCos

def rawTanh : NumSel → ℚ → ℚ
  | .series bits => seriesTanh bits
  | .exact | .other => Config.otherTanh

def rawPow10 : NumSel → ℚ → ℚ
  | .series bits => seriesPow10 bits
  | .exact | .other => Config.otherPow10

def rawPi : NumSel → ℚ
  | .series _ => piLit
  | .exact | .other => Config.otherPi

/-- A value held in [-1, 1]. -/
def hold (x : ℚ) : ℚ := max (-1) (min x 1)

/-- `pi`, between 3 and 4. -/
def pi (k : NumSel) : ℚ := if 3 < rawPi k ∧ rawPi k < 4 then rawPi k else piLit

/-- `sin`: `sin(0) = 0`, `abs(sin(x)) <= 1`. -/
def sin (k : NumSel) (x : ℚ) : ℚ := if x = 0 then 0 else hold (rawSin k x)

/-- `cos`: `cos(0) = 1`, `abs(cos(x)) <= 1`. -/
def cos (k : NumSel) (x : ℚ) : ℚ := if x = 0 then 1 else hold (rawCos k x)

/-- `tanh` of a positive argument, in (0, 1): a value that is not (a tiny argument, rounded to 0) is taken as
`x / (1 + x)` (41_saturation.md R126 d). -/
def tanhPos (k : NumSel) (x : ℚ) : ℚ := if 0 < rawTanh k x ∧ rawTanh k x < 1 then rawTanh k x else x / (1 + x)

/-- `tanh`: odd, `tanh(0) = 0`, `abs(tanh(x)) < 1`, 0 at 0 only. -/
def tanh (k : NumSel) (x : ℚ) : ℚ :=
  if x = 0 then 0 else if x < 0 then -tanhPos k (-x) else tanhPos k x

/-- `pow10(x) = 10^x`: 1 at 0, at least 1 above, in (0, 1] below. -/
def pow10 (k : NumSel) (x : ℚ) : ℚ :=
  if x = 0 then 1
  else if 0 < x then max 1 (rawPow10 k x)
  else if 0 < rawPow10 k x ∧ rawPow10 k x ≤ 1 then rawPow10 k x
  else 1

end Num

/-- The named properties of an exact domain's functions (00_scope.md R12): those the rule names, and those the derived
facts of the spec use. They hold of the real functions and of every domain the running machine has but `other`. -/
structure Fns.Lawful {V : Type} [Field V] [LinearOrder V] (F : Fns V) : Prop where
  pi : 3 < F.pi ∧ F.pi < 4
  sin_zero : F.sin 0 = 0
  sin_le : ∀ x, |F.sin x| ≤ 1
  cos_zero : F.cos 0 = 1
  cos_le : ∀ x, |F.cos x| ≤ 1
  tanh_neg : ∀ x, F.tanh (-x) = -F.tanh x
  tanh_pos : ∀ x, 0 < x → 0 < F.tanh x
  tanh_lt : ∀ x, |F.tanh x| < 1
  pow10_zero : F.pow10 0 = 1
  pow10_pos : ∀ x, 0 < F.pow10 x
  pow10_le : ∀ x, 0 ≤ x → 1 ≤ F.pow10 x

/-- What a configuration adds to exact arithmetic on the rationals. -/
def Fns.rational (c : Cfg ℚ) : Fns ℚ where
  sin := Num.sin c.num
  cos := Num.cos c.num
  tanh := Num.tanh c.num
  pow10 := Num.pow10 c.num
  pi := Num.pi c.num
  enc32 := match c.enc32 with
    | .binary32 => binary32
    | .other => Config.otherEnc32
  noiseLevel := Config.otherNoiseLevel

/-- The domain in which every operation is a free value. A value of the instance is coded by a rational; a constant is
its own code (log 1). The order of the operations in each formula is the model's (log 23). -/
@[reducible] def NUM.other : NUM ℚ where
  add := Config.otherAdd
  sub := Config.otherSub
  mul := Config.otherMul
  div := Config.otherDiv
  lit q := q
  lt := Config.otherLt
  le := Config.otherLe
  abs := Config.otherAbs
  max := Config.otherMax
  floor := Config.otherFloor
  sin := Config.otherSin
  cos := Config.otherCos
  tanh := Config.otherTanh
  pow10 := Config.otherPow10
  pi := Config.otherPi
  enc32 := Config.otherEnc32
  noiseLevel := Config.otherNoiseLevel

/-- The domain that `CFG.NUM` selects (00_scope.md R8, R12). -/
@[reducible] def numOf (c : Cfg ℚ) : NUM ℚ :=
  match c.num with
  | .exact | .series _ => NUM.exact (Fns.rational c)
  | .other => NUM.other

section
variable {V : Type} [NUM V]

open NUM (lit lt le)

/-- `dbToLin(d) = pow10(d / 20)` (40_coefficient_mapper.md R102). -/
def dbToLin (d : V) : V := NUM.pow10 (d / lit 20)

/-- `CFG.NOISE_LEVEL(h)`: total, 0 at 0, never negative (00_scope.md R8, 44_noise.md R166). -/
def Cfg.noise (c : Cfg V) (h : V) : V :=
  match c.noiseLevel with
  | .linear gain => h * gain
  | .other => if lt (lit 0) h && le (lit 0) (NUM.noiseLevel h) then NUM.noiseLevel h else lit 0

end

end Sys2Proof
end

