-- ==== Sys2Proof/Machine/Prng.lean ====
section
/-! DEFINITION. The generator `CFG.PRNG` (44_noise.md R160 to R163). -/

namespace Sys2Proof

namespace Prng

/-- One shift step of PRBS31: feedback r[30] XOR r[27] enters at bit 0 and is the output bit (44_noise.md R162). -/
def shift (r : BitVec 31) : BitVec 31 × Bool :=
  let nb := r.getLsbD 30 ^^ r.getLsbD 27
  ((r <<< 1) ||| (BitVec.ofBool nb).zeroExtend 31, nb)

/-- `steps` shift steps; the output bits, first bit most significant, are appended to `k`. -/
def shifts : Nat → BitVec 31 → Nat → BitVec 31 × Nat
  | 0, r, k => (r, k)
  | steps + 1, r, k => shifts steps (shift r).1 (2 * k + (shift r).2.toNat)

/-- The 16-bit integer of a draw and the state after it (R162). -/
def draw16 (r : BitVec 31) : BitVec 31 × Nat := shifts 16 r 0

/-- `seedOf` (R160, R162): PRBS31 takes the low 31 bits, 1 if they are 0. -/
def seedOf (sel : PrngSel) (w : Word32) : RngState :=
  match sel with
  | .prbs31 => .prbs (if w.extractLsb' 0 31 = 0 then 1 else w.extractLsb' 0 31)
  | .other => .other (Config.otherSeed w)

/-- The state part of `next` (R160, R162). -/
def advance : RngState → RngState
  | .prbs r => .prbs (draw16 r).1
  | .other n => .other (Config.otherNext n)

section
variable {V : Type} [NUM V]

open NUM (lit)

/-- The value part of `next` (R160, R162): `(k - 32768) / 32768`, a division in V; of another generator a free value
held in [-1, 1). -/
def value : RngState → V
  | .prbs r => ofInt ((draw16 r).2 - 32768) / lit 32768
  | .other n => lit (if -1 ≤ Config.otherDraw n ∧ Config.otherDraw n < 1 then Config.otherDraw n else 0)

/-- The value of `Draw01() = (Draw() + 1) / 2` (44_noise.md R161). -/
def value01 (r : RngState) : V := (value r + lit 1) / lit 2

end

end Prng

end Sys2Proof
end

