-- ==== Sys2Proof/Machine/State.lean ====
section
/-! DEFINITION. The state of one instance (10_state.md), the reasons a step can stop, and the power-on state
(10_state.md R59, 70_reset_and_hazards.md R230).

`Over.State V` is the state over the numeric type `V` of CFG.NUM (00_scope.md R12); the machine that runs, `State`, is
the one over the rationals, `Over.State ℝ` that of NUM_REAL (Machine/Reals.lean). -/

namespace Sys2Proof.Machine

/-- Machine-speed variant, the codes of P[12] (10_state.md R30). -/
inductive Speed
  | slow
  | medium
  | fast
deriving DecidableEq, Repr

/-- Tape-formulation variant, the codes of P[13] (10_state.md R30). -/
inductive Form
  | ferric
  | chrome
  | modern
deriving DecidableEq, Repr

/-- The indices 0..11 of the parameter file, in the order of 10_state.md R30. -/
inductive NumParam
  | drive
  | sat
  | warmth
  | hbamt
  | hbfreq
  | wow
  | flutter
  | hiss
  | outgain
  | mix
  | age
  | bias
deriving DecidableEq, Repr

/-- The fourteen indices of the parameter file (10_state.md R30). -/
inductive ParamId
  | num (k : NumParam)
  | speed
  | form
deriving DecidableEq, Repr

/-- A parameter file: fourteen registers (10_state.md R30, R43). -/
structure ParamFile (V : Type) where
  drive : V
  sat : V
  warmth : V
  hbamt : V
  hbfreq : V
  wow : V
  flutter : V
  hiss : V
  outgain : V
  mix : V
  age : V
  bias : V
  speed : Speed
  form : Form
deriving DecidableEq, Repr

/-- The registers the mapper writes (10_state.md R44 to R46). -/
structure Coef (V : Type) where
  B0 : V
  B1 : V
  B2 : V
  A1 : V
  A2 : V
  LPC : Pair V
  WINC : V
  FINC : V
deriving DecidableEq, Repr

/-- The persistent state of one channel (10_state.md R47 to R49) with its delay RAM (R54). -/
structure Chan (V : Type) where
  X1 : V
  X2 : V
  Y1 : V
  Y2 : V
  LPS : V
  HYS : V
  D : Mem V
deriving DecidableEq, Repr

/-- The state the two channels share (10_state.md R50 to R53). -/
structure Osc (V : Type) where
  WPH : V
  FPH : V
  WRO : V
  FRO : V
  MODCNT : Nat
  WCUR : Nat
deriving DecidableEq, Repr

/-- The sequencer position `SEQ = (n, c)` (10_state.md R33). -/
structure SeqPos where
  n : Nat
  c : Channel
deriving DecidableEq, Repr

/-- What only the sequencer writes, and BUF (10_state.md R33, R38 to R40, R43 to R56). -/
structure Datapath (V : Type) where
  S : ParamFile V
  FS : V
  BLKSZ : Nat
  L : Nat
  coef : Coef V
  ch : Pair (Chan V)
  osc : Osc V
  RNG : RngState
  BUF : Pair (Mem V)
  /-- `none` where R33 gives it no meaning (log 12). -/
  SEQ : Option SeqPos
deriving DecidableEq, Repr

/-- The response to one command (30_encoding.md R81); `info` is E_BADSAMPLE's diagnostic (c, n), read by no rule
(60_exceptions.md R210). -/
structure Response where
  code : BitVec 8
  value : Word32
  info : Option (Nat × Nat)
deriving DecidableEq, Repr

/-- What the block gives to the outside: a response, or the cell the host data agent read (20_memory.md R60). -/
inductive Output (V : Type)
  | response (r : Response)
  | cell (c n : Nat) (v : Option V)
deriving DecidableEq, Repr

/-- What the outside does while the sequencer is idle (log 7). -/
inductive Input (V : Type)
  /-- a command word on the port (30_encoding.md R80) -/
  | cmd (w : CmdWord)
  /-- the host data agent writes a cell of BUF (20_memory.md R60) -/
  | bufWrite (c n : Nat) (v : V)
  /-- the host data agent reads a cell of BUF (20_memory.md R60) -/
  | bufRead (c n : Nat)
  /-- the power-on reset input (70_reset_and_hazards.md R230) -/
  | powerOn
deriving DecidableEq, Repr

/-- A command word that lands inside a running sequencer command, `gap` micro-steps after the one before it
(20_memory.md R71, log 8). -/
structure Arrival where
  gap : Nat
  word : CmdWord
deriving DecidableEq, Repr

namespace Over

/-- The machine. P to PEAK_OUT are the cells several agents share (20_memory.md R70); `dp` is the sequencer's;
`cfg`, `inputs`, `arrivals` and `out` are the model's own (logs 3, 7, 8, 10). -/
structure State (V : Type) where
  cfg : Cfg V
  P : ParamFile V
  PREPARED : Bool
  DIRTY : Bool
  BUSY : Bool
  ERR : BitVec 8
  PEAK_IN : V
  PEAK_OUT : V
  dp : Datapath V
  inputs : List (Input V)
  arrivals : List Arrival
  out : List (Output V)
deriving DecidableEq, Repr

end Over

/-- The machine that runs: its values are rationals (log 1). -/
abbrev State := Over.State ℚ

/-- Why a step stops. No command raises one. -/
inductive Fault
  /-- Raised by the host data agent's access to a cell outside BUF, which has no meaning (20_memory.md R65).
  Safe: the model stops. -/
  | noSuchCell (c n : Nat)
deriving DecidableEq, Repr

/-- Why a step is refused. -/
inductive Refusal
  /-- Answered by exec's arm of a command that has no meaning yet; no arm answers it now. Safe. -/
  | notModelled (mnemonic : String)
  /-- Answered to the host data agent's access to BUF while BUSY = 1 (70_reset_and_hazards.md R241). Safe. -/
  | bufOwnedBySequencer
deriving DecidableEq, Repr

section
variable {V : Type} [NUM V]

open NUM (lit)

/-- Column PO of 10_state.md R30: 0 clamped into each domain. -/
def ParamFile.powerOn : ParamFile V where
  drive := lit 0
  sat := lit 0
  warmth := lit 0
  hbamt := lit 0
  hbfreq := lit 40
  wow := lit 0
  flutter := lit 0
  hiss := lit 0
  outgain := lit 0
  mix := lit 0
  age := lit 0
  bias := lit 0
  speed := .slow
  form := .ferric

/-- The identity coefficients (10_state.md R44 to R46, 40_coefficient_mapper.md R108). -/
def Coef.identity : Coef V where
  B0 := lit 1
  B1 := lit 0
  B2 := lit 0
  A1 := lit 0
  A2 := lit 0
  LPC := ⟨lit 1, lit 1⟩
  WINC := lit 0
  FINC := lit 0

/-- Zero signal state of a channel; an unlisted cell of D reads 0 (10_state.md R54). -/
def Chan.zero : Chan V where
  X1 := lit 0
  X2 := lit 0
  Y1 := lit 0
  Y2 := lit 0
  LPS := lit 0
  HYS := lit 0
  D := []

def Osc.zero : Osc V where
  WPH := lit 0
  FPH := lit 0
  WRO := lit 0
  FRO := lit 0
  MODCNT := 0
  WCUR := 0

/-- Column PO of 10_state.md R59, for the private state. -/
def Datapath.powerOn (c : Cfg V) : Datapath V where
  S := ParamFile.powerOn
  FS := lit 0
  BLKSZ := 0
  L := 0
  coef := Coef.identity
  ch := ⟨Chan.zero, Chan.zero⟩
  osc := Osc.zero
  RNG := Prng.seedOf c.prng c.seed0
  BUF := ⟨[], []⟩
  SEQ := none

/-- The machine right after power-on reset (10_state.md R59, 70_reset_and_hazards.md R230), with the configuration
`c` and nothing on its port. -/
def Over.State.powerOn (c : Cfg V) : Over.State V where
  cfg := c
  P := ParamFile.powerOn
  PREPARED := false
  DIRTY := false
  BUSY := false
  ERR := 0
  PEAK_IN := lit 0
  PEAK_OUT := lit 0
  dp := Datapath.powerOn c
  inputs := []
  arrivals := []
  out := []

end

/-- Power-on of the machine that runs. -/
def State.reset : State :=
  letI := numOf Cfg.running
  Over.State.powerOn Cfg.running

end Sys2Proof.Machine
end

