-- ==== Sys2Proof/Machine/Operands.lean ====
section
/-! DEFINITION. The operand forms of SETP: the clamp of a parameter (30_encoding.md R84) and the enum clamp (R85), and
reading and writing a parameter file by index (10_state.md R30). The binary32 form itself is in Binary32.lean. -/

namespace Sys2Proof.Machine

/-- The lower end of a parameter's domain (10_state.md R30). -/
def NumParam.lo : NumParam → ℚ
  | .drive | .outgain => -12
  | .hbfreq => 40
  | .sat | .warmth | .hbamt | .wow | .flutter | .hiss | .mix | .age | .bias => 0

/-- The upper end of a parameter's domain (10_state.md R30). -/
def NumParam.hi : NumParam → ℚ
  | .drive | .outgain => 12
  | .hbfreq => 150
  | .sat | .warmth | .hbamt | .wow | .flutter | .hiss | .mix | .age | .bias => 100

section
variable {V : Type}

/-- `P[k]` for k in 0..11. -/
def ParamFile.get (p : ParamFile V) : NumParam → V
  | .drive => p.drive
  | .sat => p.sat
  | .warmth => p.warmth
  | .hbamt => p.hbamt
  | .hbfreq => p.hbfreq
  | .wow => p.wow
  | .flutter => p.flutter
  | .hiss => p.hiss
  | .outgain => p.outgain
  | .mix => p.mix
  | .age => p.age
  | .bias => p.bias

/-- `P[k] <- v` for k in 0..11. -/
def ParamFile.set (p : ParamFile V) (k : NumParam) (v : V) : ParamFile V :=
  match k with
  | .drive => { p with drive := v }
  | .sat => { p with sat := v }
  | .warmth => { p with warmth := v }
  | .hbamt => { p with hbamt := v }
  | .hbfreq => { p with hbfreq := v }
  | .wow => { p with wow := v }
  | .flutter => { p with flutter := v }
  | .hiss => { p with hiss := v }
  | .outgain => { p with outgain := v }
  | .mix => { p with mix := v }
  | .age => { p with age := v }
  | .bias => { p with bias := v }

/-- The register of `src` with index k is copied into `dst`: `S[k] <- P[k]` (45_pipeline.md R171). -/
def ParamFile.copy (k : ParamId) (src dst : ParamFile V) : ParamFile V :=
  match k with
  | .num j => dst.set j (src.get j)
  | .speed => { dst with speed := src.speed }
  | .form => { dst with form := src.form }

/-- The fourteen indices, ascending (10_state.md R30). -/
def ParamId.all : List ParamId :=
  [.num .drive, .num .sat, .num .warmth, .num .hbamt, .num .hbfreq, .num .wow, .num .flutter, .num .hiss,
    .num .outgain, .num .mix, .num .age, .num .bias, .speed, .form]

/-- The operand of SETP k, k in 0..11 (30_encoding.md R84). -/
def numOperand [NUM V] (k : NumParam) (w : Word32) : Option V :=
  (dec32 w).map fun q => clamp (NUM.lit q) (NUM.lit k.lo) (NUM.lit k.hi)

end

/-- The operand of SETP 12 and SETP 13: `min(u, 2)` (30_encoding.md R85). -/
def enumOperand (w : Word32) : Nat := min w.toNat 2

/-- The codes of P[12] (10_state.md R30). -/
def Speed.ofCode : Nat → Speed
  | 0 => .slow
  | 1 => .medium
  | _ => .fast

/-- The codes of P[13] (10_state.md R30). -/
def Form.ofCode : Nat → Form
  | 0 => .ferric
  | 1 => .chrome
  | _ => .modern

end Sys2Proof.Machine
end

