-- ==== Sys2Proof/Machine/Flags.lean ====
section
/-! DEFINITION. Every flag computation: which parameters set DIRTY (10_state.md R32, R35), the sticky error register
(R37), the error codes (60_exceptions.md R210) and the status word (10_state.md R42). -/

namespace Sys2Proof.Machine

/-- The error codes (60_exceptions.md R210). -/
inductive ErrCode
  | illegal
  | busy
  | notprep
  | arg
  | badsample
deriving DecidableEq, Repr

/-- Column "code" of 60_exceptions.md R210. -/
def errCode : ErrCode → BitVec 8
  | .illegal => 1
  | .busy => 2
  | .notprep => 3
  | .arg => 4
  | .badsample => 5

/-- Column "sets DIRTY" of 10_state.md R30: k in {2, 3, 4, 10, 12, 13} (R32). -/
def setsDirty : ParamId → Bool
  | .num .warmth | .num .hbamt | .num .hbfreq | .num .age | .speed | .form => true
  | .num .drive | .num .sat | .num .wow | .num .flutter | .num .hiss | .num .outgain | .num .mix | .num .bias => false

/-- First error wins (10_state.md R37, 60_exceptions.md R211). -/
def stickyErr (err : BitVec 8) (e : ErrCode) : BitVec 8 := if err = 0 then errCode e else err

/-- The status word (10_state.md R42): bit 0 PREPARED, bit 1 DIRTY, bit 2 BUSY, bits 15:8 ERR, the others 0. -/
def statusWord {V : Type} (s : Over.State V) : Word32 :=
  (0 : BitVec 16) ++ s.ERR ++ (0 : BitVec 5) ++ BitVec.ofBool s.BUSY ++ BitVec.ofBool s.DIRTY ++
    BitVec.ofBool s.PREPARED

end Sys2Proof.Machine
end

