-- ==== Sys2Proof/Machine/Memory.lean ====
section
/-! DEFINITION. Memory as a canonical list of cells: indices strictly rising, no entry equal to what an unlisted
index reads as (`blank`). BUF has `blank = none` (10_state.md R55), D has the zero of V (10_state.md R54). -/

namespace Sys2Proof

namespace Memory

variable {V : Type}

/-- `MemRead(a, 1)` (00_scope.md R11). -/
def read (blank : Option V) : Mem V → Nat → Option V
  | [], _ => blank
  | (k, v) :: rest, a => if a = k then some v else if a < k then blank else read blank rest a

/-- Replace, insert or remove the entry of one index. -/
def put (e : Option V) : Mem V → Nat → Mem V
  | [], a => match e with
    | some v => [(a, v)]
    | none => []
  | (k, w) :: rest, a =>
    if a = k then match e with
      | some v => (a, v) :: rest
      | none => rest
    else if a < k then match e with
      | some v => (a, v) :: (k, w) :: rest
      | none => (k, w) :: rest
    else (k, w) :: put e rest a

/-- Indices strictly rising, all at least `lo`. -/
def rising : Nat → Mem V → Bool
  | _, [] => true
  | lo, (k, _) :: rest => decide (lo ≤ k) && rising (k + 1) rest

/-- Every listed index is below `n`. -/
def below (n : Nat) (m : Mem V) : Bool := m.all fun e => decide (e.1 < n)

variable [DecidableEq V]

/-- `MemWrite(a, 1, v)` (00_scope.md R11); writing the blank value removes the entry. -/
def write (blank : Option V) (m : Mem V) (a : Nat) (v : V) : Mem V :=
  put (if some v = blank then none else some v) m a

/-- The canonical form. -/
def wf (blank : Option V) (m : Mem V) : Bool :=
  rising 0 m && m.all fun e => decide (some e.2 ≠ blank)

end Memory

end Sys2Proof
end

