-- ==== Sys2Proof/Machine/Ops.lean ====
section
/-! DEFINITION. The named operations over registers and memory: responding, raising an error, drawing a random value,
the cells of BUF and D, the atomic steps of the control agent and the observer, and where they interleave with the
sequencer. -/

namespace Sys2Proof.Machine

open NUM (lit)

variable {V : Type}

/-- Respond `(0, value)` (30_encoding.md R81). -/
def respond (value : Word32) (s : Over.State V) : Over.State V :=
  { s with out := .response ⟨0, value, none⟩ :: s.out }

/-- `raise E` (60_exceptions.md R211): respond `(E, 0)`; the first error stays in ERR. Nothing else changes: there is
no handler, no vector and no saved state. `info` is E_BADSAMPLE's (c, n). -/
def raise (e : ErrCode) (info : Option (Nat × Nat)) (s : Over.State V) : Over.State V :=
  { s with ERR := stickyErr s.ERR e, out := .response ⟨errCode e, 0, info⟩ :: s.out }

section
variable [NUM V]

/-- `Draw()` on the datapath (44_noise.md R161). -/
def draw (d : Datapath V) : Datapath V × V := ({ d with RNG := Prng.advance d.RNG }, Prng.value d.RNG)

/-- `Draw01()` on the datapath (44_noise.md R161). -/
def draw01 (d : Datapath V) : Datapath V × V := ({ d with RNG := Prng.advance d.RNG }, Prng.value01 d.RNG)

end

/-! BUF:(c, n) (20_memory.md R60): an unlisted cell is `none`. -/

def bufRead (d : Datapath V) (c : Channel) (n : Nat) : Option V := Memory.read none (d.BUF.get c) n

def bufWrite [DecidableEq V] (c : Channel) (n : Nat) (v : V) (d : Datapath V) : Datapath V :=
  { d with BUF := d.BUF.set c (Memory.write none (d.BUF.get c) n v) }

/-! D:(c, i) (20_memory.md R61): an unlisted cell is 0 (10_state.md R54). -/

def delayRead [NUM V] (d : Datapath V) (c : Channel) (i : Nat) : V :=
  (Memory.read (some (lit 0)) (d.ch.get c).D i).getD (lit 0)

def setChan (c : Channel) (x : Chan V) (d : Datapath V) : Datapath V := { d with ch := d.ch.set c x }

def delayWrite [NUM V] [DecidableEq V] (c : Channel) (i : Nat) (v : V) (d : Datapath V) : Datapath V :=
  setChan c { d.ch.get c with D := Memory.write (some (lit 0)) (d.ch.get c).D i v } d

/-! The atomic steps of the control agent and the observer (46_commands.md R194 to R196). -/

/-- SETP k for k in 0..11 (46_commands.md R194). -/
def setNum [NUM V] (k : NumParam) (w : Word32) (s : Over.State V) : Over.State V :=
  match numOperand k w with
  | none => raise .arg none s
  | some v => respond 0 { s with P := s.P.set k v, DIRTY := s.DIRTY || setsDirty (.num k) }

/-- SETP 12 (46_commands.md R194). -/
def setSpeed (w : Word32) (s : Over.State V) : Over.State V :=
  respond 0 { s with
    P := { s.P with speed := Speed.ofCode (enumOperand w) }
    DIRTY := s.DIRTY || setsDirty .speed }

/-- SETP 13 (46_commands.md R194). -/
def setForm (w : Word32) (s : Over.State V) : Over.State V :=
  respond 0 { s with
    P := { s.P with form := Form.ofCode (enumOperand w) }
    DIRTY := s.DIRTY || setsDirty .form }

/-- GETT IN (46_commands.md R195). -/
def telemetryIn [NUM V] (s : Over.State V) : Over.State V := respond (NUM.enc32 s.PEAK_IN) s

/-- GETT OUT (46_commands.md R195). -/
def telemetryOut [NUM V] (s : Over.State V) : Over.State V := respond (NUM.enc32 s.PEAK_OUT) s

/-- GETS (46_commands.md R196). -/
def status (s : Over.State V) : Over.State V := respond (statusWord s) s

/-- A command that lands while the sequencer runs: one atomic step for the control agent and the observer, E_BUSY for
a sequencer command (46_commands.md R190). -/
def whileBusy [NUM V] (i : Instr) (s : Over.State V) : Over.State V :=
  match i with
  | .prepare _ _ | .reset | .seed _ | .process _ _ => raise .busy none s
  | .setpDrive w => setNum .drive w s
  | .setpSat w => setNum .sat w s
  | .setpWarmth w => setNum .warmth w s
  | .setpHbamt w => setNum .hbamt w s
  | .setpHbfreq w => setNum .hbfreq w s
  | .setpWow w => setNum .wow w s
  | .setpFlutter w => setNum .flutter w s
  | .setpHiss w => setNum .hiss w s
  | .setpOutgain w => setNum .outgain w s
  | .setpMix w => setNum .mix w s
  | .setpAge w => setNum .age w s
  | .setpBias w => setNum .bias w s
  | .setpSpeed w => setSpeed w s
  | .setpForm w => setForm w s
  | .gettIn => telemetryIn s
  | .gettOut => telemetryOut s
  | .gets => status s

/-- A command word that lands while the sequencer runs (46_commands.md R190). -/
def land [NUM V] (w : CmdWord) (s : Over.State V) : Over.State V :=
  match decode w with
  | .ok i => whileBusy i s
  | .error _ => raise .illegal none s

/-- Land every arrival that is due; the first that is not due comes one micro-step nearer. -/
def landDue [NUM V] : List Arrival → Over.State V → Over.State V
  | [], s => { s with arrivals := [] }
  | a :: rest, s =>
    match a.gap with
    | 0 => landDue rest (land a.word s)
    | gap + 1 => { s with arrivals := { a with gap := gap } :: rest }

/-- The place between two steps of the sequencer, where commands of the other agents fall (20_memory.md R71, log 8). -/
def tick [NUM V] (s : Over.State V) : Over.State V := landDue s.arrivals s

/-- A sequencer command is refused while BUSY = 1 (46_commands.md R190). -/
def unlessBusy (f : Over.State V → Over.State V) (s : Over.State V) : Over.State V :=
  if s.BUSY then raise .busy none s else f s

/-- BUSY <- 1 (46_commands.md R190). -/
def acquire [NUM V] (s : Over.State V) : Over.State V := tick { s with BUSY := true }

/-- BUSY <- 0, and SEQ loses its meaning (10_state.md R33). -/
def release (s : Over.State V) : Over.State V := { s with BUSY := false, dp := { s.dp with SEQ := none } }

/-- The end of a sequencer command: BUSY <- 0; respond (0, 0), as one step (log 24). -/
def complete (s : Over.State V) : Over.State V := respond 0 (release s)

/-- The end of a sequencer command that fails: BUSY <- 0; raise E. DESIGN CHOICE (log 24): BUSY <- 0, the write of ERR
and the response are one step, with no place for another agent's word between them. -/
def failWith (e : ErrCode) (info : Option (Nat × Nat)) (s : Over.State V) : Over.State V := raise e info (release s)

end Sys2Proof.Machine
end

