-- ==== Sys2Proof/Machine/Control.lean ====
section
/-! DEFINITION. The commands of the control agent: SETP k for k = 0..13 (46_commands.md R194). Each is one atomic
step, accepted whatever BUSY is (R190). -/

namespace Sys2Proof.Machine

/-- SETP 0, SET.DRIVE (46_commands.md R194). -/
def execSetpDrive (w : Word32) (s : State) : Host.Outcome State Fault Refusal :=
  .next (letI := numOf s.cfg; setNum .drive w s)

/-- SETP 1, SET.SAT (46_commands.md R194). -/
def execSetpSat (w : Word32) (s : State) : Host.Outcome State Fault Refusal :=
  .next (letI := numOf s.cfg; setNum .sat w s)

/-- SETP 2, SET.WARMTH (46_commands.md R194). -/
def execSetpWarmth (w : Word32) (s : State) : Host.Outcome State Fault Refusal :=
  .next (letI := numOf s.cfg; setNum .warmth w s)

/-- SETP 3, SET.HBAMT (46_commands.md R194). -/
def execSetpHbamt (w : Word32) (s : State) : Host.Outcome State Fault Refusal :=
  .next (letI := numOf s.cfg; setNum .hbamt w s)

/-- SETP 4, SET.HBFREQ (46_commands.md R194). -/
def execSetpHbfreq (w : Word32) (s : State) : Host.Outcome State Fault Refusal :=
  .next (letI := numOf s.cfg; setNum .hbfreq w s)

/-- SETP 5, SET.WOW (46_commands.md R194). -/
def execSetpWow (w : Word32) (s : State) : Host.Outcome State Fault Refusal :=
  .next (letI := numOf s.cfg; setNum .wow w s)

/-- SETP 6, SET.FLUTTER (46_commands.md R194). -/
def execSetpFlutter (w : Word32) (s : State) : Host.Outcome State Fault Refusal :=
  .next (letI := numOf s.cfg; setNum .flutter w s)

/-- SETP 7, SET.HISS (46_commands.md R194). -/
def execSetpHiss (w : Word32) (s : State) : Host.Outcome State Fault Refusal :=
  .next (letI := numOf s.cfg; setNum .hiss w s)

/-- SETP 8, SET.OUTGAIN (46_commands.md R194). -/
def execSetpOutgain (w : Word32) (s : State) : Host.Outcome State Fault Refusal :=
  .next (letI := numOf s.cfg; setNum .outgain w s)

/-- SETP 9, SET.MIX (46_commands.md R194). -/
def execSetpMix (w : Word32) (s : State) : Host.Outcome State Fault Refusal :=
  .next (letI := numOf s.cfg; setNum .mix w s)

/-- SETP 10, SET.AGE (46_commands.md R194). -/
def execSetpAge (w : Word32) (s : State) : Host.Outcome State Fault Refusal :=
  .next (letI := numOf s.cfg; setNum .age w s)

/-- SETP 11, SET.BIAS (46_commands.md R194). -/
def execSetpBias (w : Word32) (s : State) : Host.Outcome State Fault Refusal :=
  .next (letI := numOf s.cfg; setNum .bias w s)

/-- SETP 12, SET.SPEED (46_commands.md R194). -/
def execSetpSpeed (w : Word32) (s : State) : Host.Outcome State Fault Refusal := .next (setSpeed w s)

/-- SETP 13, SET.FORM (46_commands.md R194). -/
def execSetpForm (w : Word32) (s : State) : Host.Outcome State Fault Refusal := .next (setForm w s)

end Sys2Proof.Machine
end

