-- ==== Sys2Proof/Machine/Observe.lean ====
section
/-! DEFINITION. The commands of the observer: GETT IN, GETT OUT, GETS (46_commands.md R195, R196). Each is one atomic
step that writes nothing, accepted whatever BUSY is (R190). -/

namespace Sys2Proof.Machine

/-- GETT IN (46_commands.md R195). -/
def execGettIn (s : State) : Host.Outcome State Fault Refusal :=
  .next (letI := numOf s.cfg; telemetryIn s)

/-- GETT OUT (46_commands.md R195). -/
def execGettOut (s : State) : Host.Outcome State Fault Refusal :=
  .next (letI := numOf s.cfg; telemetryOut s)

/-- GETS (46_commands.md R196). -/
def execGets (s : State) : Host.Outcome State Fault Refusal := .next (status s)

end Sys2Proof.Machine
end

