-- ==== Sys2Proof/Machine/Filters.lean ====
section
/-! DEFINITION. The coloration filters: BQ and LP1 (42_filters.md). -/

namespace Sys2Proof.Machine

variable {V : Type} [NUM V]

/-- BQ on channel c (42_filters.md R131): the difference equation, then the history shifts. The sum is taken from left
to right, each product and each addition by itself. DESIGN CHOICE (log 23): R131 leaves the order to an instance that
rounds; in exact arithmetic it is immaterial. -/
def biquad (c : Channel) (x : V) (d : Datapath V) : Datapath V × V :=
  let k := d.coef
  let h := d.ch.get c
  let y := k.B0 * x + k.B1 * h.X1 + k.B2 * h.X2 - k.A1 * h.Y1 - k.A2 * h.Y2
  (setChan c { h with X2 := h.X1, X1 := x, Y2 := h.Y1, Y1 := y } d, y)

/-- LP1 on channel c (42_filters.md R133). -/
def lowpass (c : Channel) (x : V) (d : Datapath V) : Datapath V × V :=
  let h := d.ch.get c
  let y := h.LPS + d.coef.LPC.get c * (x - h.LPS)
  (setChan c { h with LPS := y } d, y)

end Sys2Proof.Machine
end

