-- ==== Sys2Proof/Machine/Mapper.lean ====
section
/-! DEFINITION. The coefficient mapper: MAP.HB, MAP.LP, MAP.LFO (40_coefficient_mapper.md). -/

namespace Sys2Proof.Machine

open NUM (lit le)

variable {V : Type} [NUM V]

/-! The variant tables (40_coefficient_mapper.md R103). -/

def speedMult : Speed → V
  | .slow => lit (7 / 10)
  | .medium => lit 1
  | .fast => lit (3 / 2)

def formGain : Form → V
  | .ferric => lit (6 / 5)
  | .chrome => lit (9 / 10)
  | .modern => lit (7 / 10)

def baseCut : Speed → V
  | .slow => lit 10000
  | .medium => lit 15000
  | .fast => lit 18000

def formMult : Form → V
  | .ferric => lit (17 / 20)
  | .chrome => lit 1
  | .modern => lit (11 / 10)

/-- The head-bump centre frequency in Hz (40_coefficient_mapper.md R104). -/
def bumpFreq (s : ParamFile V) : V := clamp (s.hbfreq * speedMult s.speed) (lit 30) (lit 200)

/-- The head-bump gain in dB (40_coefficient_mapper.md R104). -/
def bumpGain (s : ParamFile V) : V := s.hbamt / lit 100 * lit 6 * formGain s.form

/-- MAP.HB (40_coefficient_mapper.md R104), with the guard of R108. -/
def mapHB (d : Datapath V) : Datapath V :=
  if le d.FS (lit 0) then
    { d with coef := { d.coef with B0 := lit 1, B1 := lit 0, B2 := lit 0, A1 := lit 0, A2 := lit 0 } }
  else
    let A := NUM.pow10 (bumpGain d.S / lit 40)
    let w0 := lit 2 * NUM.pi * bumpFreq d.S / d.FS
    let alpha := NUM.sin w0 / (lit 2 * lit (3 / 2))
    let a0 := lit 1 + alpha / A
    { d with coef := { d.coef with
      B0 := (lit 1 + alpha * A) / a0
      B1 := lit (-2) * NUM.cos w0 / a0
      B2 := (lit 1 - alpha * A) / a0
      A1 := lit (-2) * NUM.cos w0 / a0
      A2 := (lit 1 - alpha / A) / a0 } }

/-- The cutoff of the HF rolloff in Hz (40_coefficient_mapper.md R106). -/
def cutoff (s : ParamFile V) : V :=
  clamp (baseCut s.speed * formMult s.form * (lit 1 - s.warmth / lit 100 * lit (2 / 5)) *
    (lit 1 - s.age / lit 100 * lit (3 / 10))) (lit 2000) (lit 20000)

/-- MAP.LP (40_coefficient_mapper.md R106), with the guard of R108. -/
def mapLP (d : Datapath V) : Datapath V :=
  if le d.FS (lit 0) then { d with coef := { d.coef with LPC := ⟨lit 1, lit 1⟩ } }
  else
    let w := lit 2 * NUM.pi * cutoff d.S / d.FS
    { d with coef := { d.coef with LPC := ⟨w / (lit 1 + w), w / (lit 1 + w)⟩ } }

/-- MAP.LFO (40_coefficient_mapper.md R107), with the guard of R108; four draws in either case. -/
def mapLFO (d : Datapath V) : Datapath V :=
  let (d, u1) := draw01 d
  let (d, u2) := draw01 d
  let (d, u3) := draw01 d
  let (d, u4) := draw01 d
  let wowRate := (lit (1 / 2) + lit (1 / 2) * u1) + (lit (-1 / 2) + lit 1 * u2)
  let flutterRate := (lit 10 + lit 5 * u3) + (lit (-5) + lit 10 * u4)
  if le d.FS (lit 0) then { d with coef := { d.coef with WINC := lit 0, FINC := lit 0 } }
  else { d with coef := { d.coef with WINC := wowRate / d.FS, FINC := flutterRate / d.FS } }

end Sys2Proof.Machine
end

