-- ==== Sys2Proof/Machine/Blocks.lean ====
section
/-! DEFINITION. The block-local values (45_pipeline.md R174) and what the sequencer holds between two
micro-operations of a block. None of it is state (10_state.md R57). -/

namespace Sys2Proof.Machine

/-- The values computed from S once a block (45_pipeline.md R174, 41_saturation.md R121). -/
structure BlockLocals (V : Type) where
  gIn : V
  gOut : V
  mix : V
  sat : V
  drive0 : V
  boff : V
  wowD : V
  flutD : V
  age : V
  nl : V
  enSat : Bool
  enHB : Bool
  enPM : Bool
  enNoise : Bool
  form : Form
deriving DecidableEq, Repr

section
variable {V : Type} [NUM V]

open NUM (lit lt)

/-- The block-local values of a snapshot (45_pipeline.md R174). `drive0` and `boff` are grouped as R174 writes them, not
as 41_saturation.md R121 does: DESIGN CHOICE (log 23) for an instance that rounds. -/
def blockLocals (c : Cfg V) (s : ParamFile V) : BlockLocals V where
  gIn := dbToLin s.drive
  gOut := dbToLin s.outgain
  mix := s.mix / lit 100
  sat := s.sat / lit 100
  drive0 := lit 1 + lit 4 * (s.sat / lit 100)
  boff := c.kBias * s.bias / lit 100
  wowD := s.wow / lit 100
  flutD := s.flutter / lit 100
  age := s.age / lit 100
  nl := c.noise (s.hiss / lit 100)
  enSat := lt (lit 0) s.sat
  enHB := lt (lit 0) s.hbamt
  enPM := lt (lit 0) s.wow || lt (lit 0) s.flutter
  enNoise := lt (lit 0) (c.noise (s.hiss / lit 100))
  form := s.form

end

/-- What passes from one micro-operation of a block to the next: the old DIRTY, the block-local values, the frame's
delay and noise pair, the dry and the current sample, and the two peaks. -/
structure Locals (V : Type) where
  dirty : Bool
  blk : BlockLocals V
  ds : V
  nz : Pair V
  dry : V
  x : V
  pIn : V
  pOut : V
deriving DecidableEq, Repr

/-- Before the first micro-operation. Each value is written before it is read (log 18). -/
def Locals.start {V : Type} [NUM V] (c : Cfg V) (s : ParamFile V) : Locals V where
  dirty := false
  blk := blockLocals c s
  ds := NUM.lit 0
  nz := ⟨NUM.lit 0, NUM.lit 0⟩
  dry := NUM.lit 0
  x := NUM.lit 0
  pIn := NUM.lit 0
  pOut := NUM.lit 0

end Sys2Proof.Machine
end

