-- ==== Sys2Proof/Machine/Noise.lean ====
section
/-! DEFINITION. The noise floor: NOISE and NOISE.ADD (44_noise.md). -/

namespace Sys2Proof.Machine

open NUM (lit)

variable {V : Type} [NUM V]

/-- The noise pair of two draws (44_noise.md R164). -/
def noisePair (kTilt nl n1 n2 : V) : Pair V :=
  let sh1 := n1 * kTilt
  let sh2 := n2 * kTilt
  let left := sh1 * nl
  ⟨left, lit (9 / 10) * left + lit (1 / 10) * (sh2 * nl)⟩

/-- NOISE (44_noise.md R164): two draws. -/
def noise (c : Cfg V) (b : BlockLocals V) (d : Datapath V) : Datapath V × Pair V :=
  let (d, n1) := draw d
  let (d, n2) := draw d
  (d, noisePair c.kTilt b.nl n1 n2)

/-- NOISE.ADD (44_noise.md R165). -/
def noiseAdd (nz : Pair V) (c : Channel) (x : V) : V := x + nz.get c

end Sys2Proof.Machine
end

