-- ==== Sys2Proof/Machine/Pitch.lean ====
section
/-! DEFINITION. The pitch-modulation engine: LFO.ADV, LFO.RND, LFO.MOD, DLY.WR, DLY.RD, DLY.ADV
(43_pitch_modulation.md). -/

namespace Sys2Proof.Machine

open NUM (lit)

variable {V : Type} [NUM V]

/-- LFO.ADV (43_pitch_modulation.md R141). -/
def lfoAdv (d : Datapath V) : Datapath V :=
  { d with osc := { d.osc with WPH := frac (d.osc.WPH + d.coef.WINC), FPH := frac (d.osc.FPH + d.coef.FINC) } }

/-- LFO.RND (43_pitch_modulation.md R142): every 1000th frame, wow first, then flutter. -/
def lfoRnd (d : Datapath V) : Datapath V :=
  if Config.rndPeriod ≤ d.osc.MODCNT + 1 then
    let (d, u) := draw d
    let (d, v) := draw d
    { d with osc := { d.osc with
      MODCNT := 0
      WRO := lit (99 / 100) * d.osc.WRO + lit (1 / 100) * u
      FRO := lit (99 / 100) * d.osc.FRO + lit (1 / 100) * v } }
  else { d with osc := { d.osc with MODCNT := d.osc.MODCNT + 1 } }

/-- LFO.MOD, first half: the modulation sum `tot` (43_pitch_modulation.md R143). `2*pi` is formed first, so the second
argument is `(1.7 * (2*pi)) * WPH`. DESIGN CHOICE (log 23) for an instance that rounds; immaterial in exact arithmetic. -/
def modSum (b : BlockLocals V) (o : Osc V) : V :=
  let turn := lit 2 * NUM.pi
  let wowMod := b.wowD * (NUM.sin (turn * o.WPH) + o.WRO * NUM.sin (lit (17 / 10) * turn * o.WPH))
  let flutMod := b.flutD * (NUM.sin (turn * o.FPH) + o.FRO * NUM.sin (lit (23 / 10) * turn * o.FPH))
  (wowMod + flutMod) * (lit 1 + lit (1 / 2) * b.age)

/-- LFO.MOD, second half: the delay in samples, clamped to [1, L - 2] (43_pitch_modulation.md R144). `L - 2` is taken
in V: DESIGN CHOICE (log 23) for an instance that rounds. -/
def delaySamples (c : Cfg V) (FS : V) (L : Nat) (tot : V) : V :=
  clamp ((lit Config.delayBaseMs + c.kModMs * tot) * FS / lit 1000) (lit 1) (ofInt L - lit 2)

/-- LFO.MOD (43_pitch_modulation.md R143, R144): the frame's `ds`. -/
def lfoMod (c : Cfg V) (b : BlockLocals V) (d : Datapath V) : V := delaySamples c d.FS d.L (modSum b d.osc)

/-- DLY.WR (43_pitch_modulation.md R145). -/
def dlyWr [DecidableEq V] (c : Channel) (x : V) (d : Datapath V) : Datapath V := delayWrite c d.osc.WCUR x d

/-- The read position of DLY.RD (43_pitch_modulation.md R146): `i0`, `i1` and `fr`. -/
def delayTaps (WCUR L : Nat) (ds : V) : Nat × Nat × V :=
  let rp := ofInt WCUR - ds
  let fl := NUM.floor rp
  let i0 := modNat fl L
  (i0, modNat ((i0 : Int) + 1) L, rp - ofInt fl)

/-- DLY.RD (43_pitch_modulation.md R146): linear interpolation between the two slots. -/
def dlyRd (c : Channel) (ds : V) (d : Datapath V) : V :=
  let (i0, i1, fr) := delayTaps d.osc.WCUR d.L ds
  delayRead d c i0 * (lit 1 - fr) + delayRead d c i1 * fr

/-- DLY.ADV (43_pitch_modulation.md R147). -/
def dlyAdv (d : Datapath V) : Datapath V :=
  { d with osc := { d.osc with WCUR := modNat ((d.osc.WCUR : Int) + 1) d.L } }

end Sys2Proof.Machine
end

