-- ==== Sys2Proof/Machine/Saturation.lean ====
section
/-! DEFINITION. The saturation stage with hysteresis: SAT.A, SAT.B, SAT.M (41_saturation.md). Each takes HYS[c] and
the sample and gives the new HYS[c] and the output sample. -/

namespace Sys2Proof.Machine

open NUM (lit lt le)

variable {V : Type} [NUM V]

/-- SAT.A (41_saturation.md R122). -/
def satA (b : BlockLocals V) (hys xIn : V) : V × V :=
  let drv := b.drive0 * lit (13 / 10)
  let x := (xIn + b.boff) * drv
  let diff := x - hys
  let dampedDrive := lit 1 + lit 3 * b.sat
  let satDiff := NUM.tanh (diff * dampedDrive) / dampedDrive
  let lagCoef := lit (3 / 10) + lit (2 / 5) * b.sat
  let hys' := hys + satDiff * lagCoef
  (hys', hys' * lit (4 / 5))

/-- SAT.B (41_saturation.md R123). -/
def satB (b : BlockLocals V) (hys xIn : V) : V × V :=
  let drv := b.drive0 * lit (9 / 10)
  let xOut := NUM.tanh ((xIn + b.boff) * drv)
  (lit (9 / 10) * hys + lit (1 / 10) * xOut, xOut)

/-- `softclip(x)` with threshold 0.7 (41_saturation.md R125). -/
def softclip (x : V) : V :=
  let T := lit (7 / 10)
  if le (NUM.abs x) T then x
  else sgn x * (T + (lit 1 - T) * NUM.tanh ((NUM.abs x - T) / (lit 1 - T)))

/-- SAT.M (41_saturation.md R124). -/
def satM (b : BlockLocals V) (hys xIn : V) : V × V :=
  let drv := b.drive0 * lit (7 / 10)
  let xOut := softclip ((xIn + b.boff) * drv)
  (lit (19 / 20) * hys + lit (1 / 20) * xOut, xOut)

/-- The formulation code selects the micro-operation (41_saturation.md R120). -/
def satStage (b : BlockLocals V) : V → V → V × V :=
  match b.form with
  | .ferric => satA b
  | .chrome => satB b
  | .modern => satM b

/-- The stage on channel c: its only side effect is on HYS[c] (41_saturation.md R120). -/
def saturate (b : BlockLocals V) (c : Channel) (x : V) (d : Datapath V) : Datapath V × V :=
  let r := satStage b (d.ch.get c).HYS x
  (setChan c { d.ch.get c with HYS := r.1 } d, r.2)

end Sys2Proof.Machine
end

