-- ==== Sys2Proof/Machine/Pipeline.lean ====
section
/-! DEFINITION. The micro-operations of the sequencer (30_encoding.md R90) and the lists of them that PREPARE, RESET,
SEED and PROCESS run (46_commands.md R191 to R193, 45_pipeline.md R171 to R183). Between any two of them the commands
of the other agents may fall (20_memory.md R71). -/

namespace Sys2Proof.Machine

/-- One step of the sequencer. -/
inductive MicroOp (V : Type)
  /-- PREPARE's `FS <- f; BLKSZ <- blk; L <- Lnew` -/
  | configure (fs : V) (blk len : Nat)
  /-- the atomic test-and-clear of DIRTY (45_pipeline.md R171) -/
  | takeDirty
  /-- `S[k] <- P[k]` (45_pipeline.md R171) -/
  | latch (k : ParamId)
  | mapHB
  | mapLP
  | mapLFO
  /-- the block-local values (45_pipeline.md R174) -/
  | setLocals
  /-- RESET's lines for one channel (46_commands.md R192) -/
  | clearChan (c : Channel)
  /-- RESET's lines for the phases, offsets, counter and cursor (46_commands.md R192) -/
  | clearOsc
  | clearPeakIn
  | clearPeakOut
  | setPrepared
  | seedRng (w : Word32)
  /-- `SEQ <- (n, c)` (45_pipeline.md R172) -/
  | seqAt (n : Nat) (c : Channel)
  | lfoAdv
  | lfoRnd
  | noise
  | lfoMod
  | gainIn (n : Nat) (c : Channel)
  | saturate (c : Channel)
  | biquad (c : Channel)
  | lowpass (c : Channel)
  | dlyWr (c : Channel)
  | dlyRd (c : Channel)
  | noiseAdd (c : Channel)
  | gainOut
  | mix (n : Nat) (c : Channel)
  | dlyAdv
  | peakCapOut (nch nsamp : Nat)
  | publishIn
  | publishOut
deriving DecidableEq, Repr

section
variable {V : Type} [NUM V]

open NUM (lit)

/-- `max` of the magnitudes of a list of cells (45_pipeline.md R183). Every one holds a value there (log 15). -/
def peakOf (d : Datapath V) (cells : List (Channel × Nat)) : V :=
  cells.foldl (fun p e => NUM.max p (NUM.abs ((bufRead d e.1 e.2).getD (lit 0)))) (lit 0)

/-- PEAKCAP.IN's scan (45_pipeline.md R173): the peak, or the first cell that holds no value. -/
def scanPeak (d : Datapath V) : List (Channel × Nat) → V → Except (Channel × Nat) V
  | [], p => .ok p
  | e :: rest, p =>
    match bufRead d e.1 e.2 with
    | none => .error e
    | some m => scanPeak d rest (NUM.max p (NUM.abs m))

/-- MIX (45_pipeline.md R182). -/
def mixOf (mix dry x : V) : V := dry * (lit 1 - mix) + x * mix

/-- The datapath micro-operations of a frame: what each does to the private state and to the block-local values. -/
def onDatapath (f : Datapath V → Datapath V) (s : Over.State V) : Over.State V := { s with dp := f s.dp }

/-- One micro-operation (rules at the constructors and at the stage definitions). -/
def MicroOp.run [DecidableEq V] (op : MicroOp V) (s : Over.State V) (l : Locals V) : Over.State V × Locals V :=
  match op with
  | .configure fs blk len => (onDatapath (fun d => { d with FS := fs, BLKSZ := blk, L := len }) s, l)
  | .takeDirty => ({ s with DIRTY := false }, { l with dirty := s.DIRTY })
  | .latch k => (onDatapath (fun d => { d with S := ParamFile.copy k s.P d.S }) s, l)
  | .mapHB => (onDatapath (Machine.mapHB) s, l)
  | .mapLP => (onDatapath (Machine.mapLP) s, l)
  | .mapLFO => (onDatapath Machine.mapLFO s, l)
  | .setLocals => (s, { l with blk := blockLocals s.cfg s.dp.S })
  | .clearChan c => (onDatapath (setChan c Chan.zero) s, l)
  | .clearOsc => (onDatapath (fun d => { d with osc := Osc.zero }) s, l)
  | .clearPeakIn => ({ s with PEAK_IN := lit 0 }, l)
  | .clearPeakOut => ({ s with PEAK_OUT := lit 0 }, l)
  | .setPrepared => ({ s with PREPARED := true }, l)
  | .seedRng w => (onDatapath (fun d => { d with RNG := Prng.seedOf s.cfg.prng w }) s, l)
  | .seqAt n c => (onDatapath (fun d => { d with SEQ := some ⟨n, c⟩ }) s, l)
  | .lfoAdv => (onDatapath Machine.lfoAdv s, l)
  | .lfoRnd => (onDatapath Machine.lfoRnd s, l)
  | .noise => ({ s with dp := (Machine.noise s.cfg l.blk s.dp).1 }, { l with nz := (Machine.noise s.cfg l.blk s.dp).2 })
  | .lfoMod => (s, { l with ds := Machine.lfoMod s.cfg l.blk s.dp })
  | .gainIn n c =>
    let dry := (bufRead s.dp c n).getD (lit 0)
    (s, { l with dry := dry, x := dry * l.blk.gIn })
  | .saturate c =>
    let r := Machine.saturate l.blk c l.x s.dp
    ({ s with dp := r.1 }, { l with x := r.2 })
  | .biquad c => ({ s with dp := (Machine.biquad c l.x s.dp).1 }, { l with x := (Machine.biquad c l.x s.dp).2 })
  | .lowpass c => ({ s with dp := (Machine.lowpass c l.x s.dp).1 }, { l with x := (Machine.lowpass c l.x s.dp).2 })
  | .dlyWr c => (onDatapath (Machine.dlyWr c l.x) s, l)
  | .dlyRd c => (s, { l with x := Machine.dlyRd c l.ds s.dp })
  | .noiseAdd c => (s, { l with x := Machine.noiseAdd l.nz c l.x })
  | .gainOut => (s, { l with x := l.x * l.blk.gOut })
  | .mix n c => (onDatapath (bufWrite c n (mixOf l.blk.mix l.dry l.x)) s, l)
  | .dlyAdv => (onDatapath Machine.dlyAdv s, l)
  | .peakCapOut nch nsamp => (s, { l with pOut := peakOf s.dp (blockCells nch nsamp) })
  | .publishIn => ({ s with PEAK_IN := l.pIn }, l)
  | .publishOut => ({ s with PEAK_OUT := l.pOut }, l)

/-- Run micro-operations in order; after each, the commands of the other agents that are due. -/
def runOps [DecidableEq V] : List (MicroOp V) → Over.State V × Locals V → Over.State V × Locals V
  | [], sl => sl
  | op :: rest, sl => runOps rest (tick (op.run sl.1 sl.2).1, (op.run sl.1 sl.2).2)

/-- LATCH up to the mapper (45_pipeline.md R171). -/
def latchOps : List (MicroOp V) := .takeDirty :: ParamId.all.map .latch

/-- One run of the mapper (40_coefficient_mapper.md R101). -/
def mapperOps : List (MicroOp V) := [.mapHB, .mapLP, .mapLFO]

/-- The state clearing of RESET, the lines marked * (46_commands.md R192). -/
def clearOps : List (MicroOp V) := [.clearChan .left, .clearChan .right, .clearOsc, .clearPeakIn, .clearPeakOut]

/-- The stages of one channel of a frame, in the contract's order (45_pipeline.md R170, R172). -/
def channelOps (b : BlockLocals V) (n : Nat) (c : Channel) : List (MicroOp V) :=
  [.seqAt n c, .gainIn n c] ++
  (if b.enSat then [.saturate c] else []) ++
  (if b.enHB then [.biquad c] else []) ++
  [.lowpass c] ++
  (if b.enPM then [.dlyWr c, .dlyRd c] else []) ++
  (if b.enNoise then [.noiseAdd c] else []) ++
  [.gainOut, .mix n c]

/-- One frame (45_pipeline.md R172). -/
def frameOps (b : BlockLocals V) (nch n : Nat) : List (MicroOp V) :=
  [.seqAt n .left, .lfoAdv, .lfoRnd] ++
  (if b.enNoise then [.noise] else []) ++
  (if b.enPM then [.lfoMod] else []) ++
  (channels nch).flatMap (channelOps b n) ++
  [.dlyAdv]

/-- The frame loop (45_pipeline.md R172). -/
def framesOps (b : BlockLocals V) (nch nsamp : Nat) : List (MicroOp V) := (List.range nsamp).flatMap (frameOps b nch)

/-- PEAKCAP.OUT and publication, PEAK_IN first (45_pipeline.md R183). -/
def publishOps (nch nsamp : Nat) : List (MicroOp V) := [.peakCapOut nch nsamp, .publishIn, .publishOut]

end

end Sys2Proof.Machine
end

