-- ==== Sys2Proof/Machine/Sequencer.lean ====
section
/-! DEFINITION. The sequencer commands: PREPARE, RESET, SEED, PROCESS (46_commands.md R190 to R193, R197). Each runs
to completion, with the commands of the other agents that land in it. -/

namespace Sys2Proof.Machine

open NUM (lit le)

section
variable {V : Type} [NUM V]

/-- `ceil(0.05 * fs)`, at least 4 (46_commands.md R191). -/
def bufferLength (fs : V) : Nat := max 4 (ceil (lit (Config.delayBufMs / 1000) * fs)).toNat

/-- PREPARE's argument checks (46_commands.md R191): the rate and the delay length, if all pass. -/
def prepareArgs (c : Cfg V) (blk : Nat) (fs : Word32) : Option (V × Nat) :=
  match dec32 fs with
  | none => none
  | some q =>
    let f : V := lit q
    if le f (lit 0) then none
    else if blk = 0 ∨ c.nmax < blk then none
    else if c.lmax < bufferLength f then none
    else some (f, bufferLength f)

/-- What PREPARE runs once its arguments pass (46_commands.md R191). -/
def prepareOps (fs : V) (blk len : Nat) : List (MicroOp V) :=
  .configure fs blk len :: latchOps ++ mapperOps ++ clearOps ++ [.setPrepared]

variable [DecidableEq V]

/-- Run micro-operations as the whole body of a sequencer command. -/
def runCommand (ops : List (MicroOp V)) (s : Over.State V) : Over.State V :=
  complete (runOps ops (s, Locals.start s.cfg s.dp.S)).1

/-- PREPARE (46_commands.md R191). A refused argument changes ERR only. -/
def prepare (blk : Nat) (fs : Word32) : Over.State V → Over.State V :=
  unlessBusy fun s =>
    match prepareArgs s.cfg blk fs with
    | none => failWith .arg none (acquire s)
    | some (f, len) => runCommand (prepareOps f blk len) (acquire s)

/-- RESET (46_commands.md R192). -/
def reset : Over.State V → Over.State V := unlessBusy fun s => runCommand clearOps (acquire s)

/-- SEED (46_commands.md R193). -/
def seed (w : Word32) : Over.State V → Over.State V := unlessBusy fun s => runCommand [.seedRng w] (acquire s)

/-- LATCH with its mapper run (45_pipeline.md R171), then the block-local values (R174). -/
def runLatch (s : Over.State V) : Over.State V × Locals V :=
  let r := runOps latchOps (s, Locals.start s.cfg s.dp.S)
  runOps ((if r.2.dirty then mapperOps else []) ++ [.setLocals]) r

/-- The frames and the publication of an accepted block whose scan found the peak `p` (45_pipeline.md R172, R183). -/
def runBlock (nch nsamp : Nat) (p : V) (r : Over.State V × Locals V) : Over.State V :=
  complete (runOps (framesOps r.2.blk nch nsamp ++ publishOps nch nsamp) (tick r.1, { r.2 with pIn := p })).1

/-- The body of PROCESS once its checks pass (46_commands.md R197, 45_pipeline.md R171 to R183). -/
def processBody (nch nsamp : Nat) (s : Over.State V) : Over.State V :=
  let r := runLatch (acquire s)
  match scanPeak r.1.dp (blockCells nch nsamp) (lit 0) with
  | .error (c, n) => failWith .badsample (some (c.index, n)) r.1
  | .ok p => runBlock nch nsamp p r

/-- PROCESS: the checks in order (46_commands.md R197, 60_exceptions.md R215). -/
def process (nch nsamp : Nat) : Over.State V → Over.State V :=
  unlessBusy fun s =>
    if Config.nchMax < nch then raise .arg none s
    else if nch = 0 ∨ nsamp = 0 then respond 0 s
    else if !s.PREPARED then raise .notprep none s
    else if s.dp.BLKSZ < nsamp then raise .arg none s
    else processBody nch nsamp s

end

/-! The four commands on the machine that runs, in the domain of its configuration. -/

/-- PREPARE (46_commands.md R191). -/
def execPrepare (blk : Nat) (fs : Word32) (s : State) : Host.Outcome State Fault Refusal :=
  .next (letI := numOf s.cfg; prepare blk fs s)

/-- RESET (46_commands.md R192). -/
def execReset (s : State) : Host.Outcome State Fault Refusal := .next (letI := numOf s.cfg; reset s)

/-- SEED (46_commands.md R193). -/
def execSeed (w : Word32) (s : State) : Host.Outcome State Fault Refusal := .next (letI := numOf s.cfg; seed w s)

/-- PROCESS (46_commands.md R197). -/
def execProcess (nch nsamp : Nat) (s : State) : Host.Outcome State Fault Refusal :=
  .next (letI := numOf s.cfg; process nch nsamp s)

end Sys2Proof.Machine
end

