-- ==== Sys2Proof/Machine/Dispatch.lean ====
section
/-! DEFINITION. exec: one arm for each constructor of Instr, one direct call of its meaning. -/

namespace Sys2Proof.Machine

def exec (i : Instr) (s : State) : Host.Outcome State Fault Refusal :=
  match i with
  | .prepare blk fs => Sys2Proof.Machine.execPrepare blk fs s
  | .reset => Sys2Proof.Machine.execReset s
  | .seed w => Sys2Proof.Machine.execSeed w s
  | .setpDrive w => Sys2Proof.Machine.execSetpDrive w s
  | .setpSat w => Sys2Proof.Machine.execSetpSat w s
  | .setpWarmth w => Sys2Proof.Machine.execSetpWarmth w s
  | .setpHbamt w => Sys2Proof.Machine.execSetpHbamt w s
  | .setpHbfreq w => Sys2Proof.Machine.execSetpHbfreq w s
  | .setpWow w => Sys2Proof.Machine.execSetpWow w s
  | .setpFlutter w => Sys2Proof.Machine.execSetpFlutter w s
  | .setpHiss w => Sys2Proof.Machine.execSetpHiss w s
  | .setpOutgain w => Sys2Proof.Machine.execSetpOutgain w s
  | .setpMix w => Sys2Proof.Machine.execSetpMix w s
  | .setpAge w => Sys2Proof.Machine.execSetpAge w s
  | .setpBias w => Sys2Proof.Machine.execSetpBias w s
  | .setpSpeed w => Sys2Proof.Machine.execSetpSpeed w s
  | .setpForm w => Sys2Proof.Machine.execSetpForm w s
  | .gettIn => Sys2Proof.Machine.execGettIn s
  | .gettOut => Sys2Proof.Machine.execGettOut s
  | .gets => Sys2Proof.Machine.execGets s
  | .process nch nsamp => Sys2Proof.Machine.execProcess nch nsamp s

end Sys2Proof.Machine
end

