-- ==== Sys2Proof/Machine/External.lean ====
section
/-! DEFINITION. What reaches the block from outside the command port: the host data agent's accesses to BUF
(20_memory.md R60, R65, 70_reset_and_hazards.md R241) and the power-on reset input (70_reset_and_hazards.md R230). -/

namespace Sys2Proof.Machine

variable {V : Type}

/-- The channel of a cell of BUF, if the cell exists: c in {0, 1}, n in 0..NMAX-1 (20_memory.md R60, R65). -/
def bufCell (s : Over.State V) (c n : Nat) : Option Channel := if n < s.cfg.nmax then Channel.ofIndex c else none

/-- The host data agent writes one cell (20_memory.md R60): never while BUSY = 1 (R241), never outside BUF (R65). -/
def hostWrite [DecidableEq V] (c n : Nat) (v : V) (s : Over.State V) : Host.Outcome (Over.State V) Fault Refusal :=
  match bufCell s c n with
  | none => .fault (.noSuchCell c n)
  | some ch => if s.BUSY then .refused .bufOwnedBySequencer else .next { s with dp := bufWrite ch n v s.dp }

/-- The host data agent reads one cell (20_memory.md R60); a cell never written holds no value (10_state.md R55). -/
def hostRead (c n : Nat) (s : Over.State V) : Host.Outcome (Over.State V) Fault Refusal :=
  match bufCell s c n with
  | none => .fault (.noSuchCell c n)
  | some ch =>
    if s.BUSY then .refused .bufOwnedBySequencer
    else .next { s with out := .cell c n (bufRead s.dp ch n) :: s.out }

/-- Power-on reset: every piece of the spec's state at its PO value (10_state.md R59, 70_reset_and_hazards.md R230).
The configuration and the model's record of the outside stay. -/
def powerOnReset [NUM V] (s : Over.State V) : Over.State V :=
  { Over.State.powerOn s.cfg with inputs := s.inputs, arrivals := s.arrivals, out := s.out }

end Sys2Proof.Machine
end

