-- ==== Sys2Proof/Machine/Fetch.lean ====
section
/-! DEFINITION. What the block does with the next thing the outside does (log 7). `run` is what a command does: `exec`
for the machine that runs. -/

namespace Sys2Proof.Machine

section
variable {V : Type} [NUM V] [DecidableEq V]

/-- One command word from the port (46_commands.md R190): an illegal word raises E_ILLEGAL (60_exceptions.md R212). -/
def runWord (run : Instr → Over.State V → Host.Outcome (Over.State V) Fault Refusal) (w : CmdWord) (s : Over.State V) :
    Host.Outcome (Over.State V) Fault Refusal :=
  match decode w with
  | .ok i => run i s
  | .error _ => .next (raise .illegal none s)

/-- One thing the outside does: a command word, an access of the host data agent, or power-on. -/
def runInput (run : Instr → Over.State V → Host.Outcome (Over.State V) Fault Refusal) (i : Input V)
    (s : Over.State V) : Host.Outcome (Over.State V) Fault Refusal :=
  match i with
  | .cmd w => runWord run w s
  | .bufWrite c n v => hostWrite c n v s
  | .bufRead c n => hostRead c n s
  | .powerOn => .next (powerOnReset s)

/-- With nothing on the port the block waits for a command (70_reset_and_hazards.md R230). -/
def nextInput (run : Instr → Over.State V → Host.Outcome (Over.State V) Fault Refusal) (s : Over.State V) :
    Host.Outcome (Over.State V) Fault Refusal :=
  match s.inputs with
  | [] => .next s
  | i :: rest => runInput run i { s with inputs := rest }

end

/-- A command word put on the port ahead of what is there. -/
def putWord (w : CmdWord) (s : State) : State := { s with inputs := .cmd w :: s.inputs }

end Sys2Proof.Machine
end

