-- ==== Sys2Proof/Machine/Step.lean ====
section
/-! DEFINITION. One step of the machine: the next thing the outside does, to its end. -/

namespace Sys2Proof.Machine

/-- A command runs to completion in one step, with the commands that land in it (46_commands.md R190, log 9). -/
def step (s : State) : Host.Outcome State Fault Refusal :=
  letI := numOf s.cfg
  nextInput exec s

/-- The word `w` of `nbits` bits is what the port presents next (log 7). -/
def State.withFetchWord (s : State) (nbits w : Nat) : State := putWord (BitVec.ofNat 64 (w % 2 ^ nbits)) s

end Sys2Proof.Machine
end

