-- ==== Sys2Proof/Machine/Assembler.lean ====
section
/-! DEFINITION. The assembly language (30_encoding.md R91) and the fourteen pseudo-instructions (R92), as a syntax
tree and its translation to commands. Comments, commas and the spelling of numbers are not modelled (log 16). -/

namespace Sys2Proof.Machine

/-- A value operand: a decimal real, an integer, or a raw word of eight hexadecimal digits (30_encoding.md R91). -/
inductive AsmValue
  | real (v : ℚ)
  | int (u : Nat)
  | raw (w : Word32)
deriving DecidableEq, Repr

/-- One line of assembly (30_encoding.md R91, R92). -/
inductive Asm
  | prepare (fs : AsmValue) (blk : Nat)
  | reset
  | seed (imm32 : Nat)
  | setp (k : Nat) (value : AsmValue)
  | gettIn
  | gettOut
  | gets
  | process (nch nsamp : Nat)
  /-- `SET.DRIVE v` to `SET.BIAS v` -/
  | setNum (k : NumParam) (value : AsmValue)
  /-- `SET.SPEED slow / medium / fast` -/
  | setSpeed (v : Speed)
  /-- `SET.FORM A / B / modern` -/
  | setForm (v : Form)
deriving DecidableEq, Repr

/-- A real operand goes into field `w` as the nearest binary32, ties to even (30_encoding.md R91). -/
def realField : AsmValue → Option Word32
  | .real v => some (binary32 v)
  | .raw w => some w
  | .int _ => none

/-- An integer operand, for the enum parameters (30_encoding.md R91). -/
def intField : AsmValue → Option Word32
  | .int u => if u < 2 ^ 32 then some (BitVec.ofNat 32 u) else none
  | .raw w => some w
  | .real _ => none

/-- `SETP k` for k in 0..11. -/
def setpOf : NumParam → Word32 → Instr
  | .drive => .setpDrive
  | .sat => .setpSat
  | .warmth => .setpWarmth
  | .hbamt => .setpHbamt
  | .hbfreq => .setpHbfreq
  | .wow => .setpWow
  | .flutter => .setpFlutter
  | .hiss => .setpHiss
  | .outgain => .setpOutgain
  | .mix => .setpMix
  | .age => .setpAge
  | .bias => .setpBias

/-- The index of a parameter (10_state.md R30). -/
def NumParam.index : NumParam → Nat
  | .drive => 0
  | .sat => 1
  | .warmth => 2
  | .hbamt => 3
  | .hbfreq => 4
  | .wow => 5
  | .flutter => 6
  | .hiss => 7
  | .outgain => 8
  | .mix => 9
  | .age => 10
  | .bias => 11

/-- The parameters 0..11, ascending. -/
def NumParam.all : List NumParam :=
  [.drive, .sat, .warmth, .hbamt, .hbfreq, .wow, .flutter, .hiss, .outgain, .mix, .age, .bias]

/-- The expansion of a pseudo-instruction (30_encoding.md R92); any other line is itself. -/
def Asm.expand : Asm → Asm
  | .setNum k value => .setp k.index value
  | .setSpeed .slow => .setp 12 (.int 0)
  | .setSpeed .medium => .setp 12 (.int 1)
  | .setSpeed .fast => .setp 12 (.int 2)
  | .setForm .ferric => .setp 13 (.int 0)
  | .setForm .chrome => .setp 13 (.int 1)
  | .setForm .modern => .setp 13 (.int 2)
  | .prepare fs blk => .prepare fs blk
  | .reset => .reset
  | .seed imm32 => .seed imm32
  | .setp k value => .setp k value
  | .gettIn => .gettIn
  | .gettOut => .gettOut
  | .gets => .gets
  | .process nch nsamp => .process nch nsamp

/-- The command of an expanded line, if its operands are of the line's form (30_encoding.md R91). -/
def Asm.command : Asm → Option Instr
  | .prepare fs blk => if 1 ≤ blk ∧ blk ≤ 65535 then (realField fs).map (.prepare blk) else none
  | .reset => some .reset
  | .seed imm32 => if imm32 < 2 ^ 32 then some (.seed (BitVec.ofNat 32 imm32)) else none
  | .setp k value =>
    if k = 12 then (intField value).map .setpSpeed
    else if k = 13 then (intField value).map .setpForm
    else (NumParam.all[k]?).bind fun j => (realField value).map (setpOf j)
  | .gettIn => some .gettIn
  | .gettOut => some .gettOut
  | .gets => some .gets
  | .process nch nsamp => if nch < 256 ∧ nsamp < 65536 then some (.process nch nsamp) else none
  | .setNum _ _ | .setSpeed _ | .setForm _ => none

/-- Assemble one line. -/
def assemble (a : Asm) : Option Instr := a.expand.command

end Sys2Proof.Machine
end

