-- ==== Sys2Proof/Machine/Command.lean ====
section
/-! DEFINITION. What each command does, over any numeric domain: the operations that the arms of exec call, by
constructor. `exec` is this function in the domain of the state's configuration (Laws/Command.lean). -/

namespace Sys2Proof.Machine

/-- A command on the state over `V` (46_commands.md R190 to R197). -/
def command {V : Type} [NUM V] [DecidableEq V] (i : Instr) (s : Over.State V) : Over.State V :=
  match i with
  | .prepare blk fs => prepare blk fs s
  | .reset => reset s
  | .seed w => seed w s
  | .setpDrive w => setNum .drive w s
  | .setpSat w => setNum .sat w s
  | .setpWarmth w => setNum .warmth w s
  | .setpHbamt w => setNum .hbamt w s
  | .setpHbfreq w => setNum .hbfreq w s
  | .setpWow w => setNum .wow w s
  | .setpFlutter w => setNum .flutter w s
  | .setpHiss w => setNum .hiss w s
  | .setpOutgain w => setNum .outgain w s
  | .setpMix w => setNum .mix w s
  | .setpAge w => setNum .age w s
  | .setpBias w => setNum .bias w s
  | .setpSpeed w => setSpeed w s
  | .setpForm w => setForm w s
  | .gettIn => telemetryIn s
  | .gettOut => telemetryOut s
  | .gets => status s
  | .process nch nsamp => process nch nsamp s

end Sys2Proof.Machine
end

