-- ==== Sys2Proof/Machine/Reals.lean ====
section
/-! DEFINITION. `NUM_REAL`, the reference instance of `CFG.NUM`: V = the real numbers and every operation exact
(00_scope.md R12), and the machine over it. It is the same text as the machine that runs, at another V. The reals can be
neither compared nor written out by a program, so this machine is for claims only (log 1). -/

namespace Sys2Proof

/-- `sin`, `cos`, `tanh`, `10^x` and pi of the reals (00_scope.md R12). -/
noncomputable def Fns.real (c : Cfg ℝ) : Fns ℝ where
  sin := Real.sin
  cos := Real.cos
  tanh := Real.tanh
  pow10 x := 10 ^ x
  pi := Real.pi
  enc32 := match c.enc32 with
    | .binary32 => binary32
    | .other => Config.realEnc32
  noiseLevel := Config.realNoiseLevel

/-- The reference instance of `CFG.NUM` (00_scope.md R8, R12). -/
@[reducible] noncomputable def NUM_REAL (c : Cfg ℝ) : NUM ℝ := NUM.exact (Fns.real c)

namespace Machine

/-- A command over NUM_REAL. -/
noncomputable def realExec (i : Instr) (s : Over.State ℝ) : Host.Outcome (Over.State ℝ) Fault Refusal :=
  .next (letI := NUM_REAL s.cfg; command i s)

/-- One step over NUM_REAL. -/
noncomputable def realStep (s : Over.State ℝ) : Host.Outcome (Over.State ℝ) Fault Refusal :=
  letI := NUM_REAL s.cfg
  nextInput realExec s

/-- Power-on with the reference configuration (00_scope.md R8), over NUM_REAL. -/
noncomputable def realReset : Over.State ℝ :=
  letI := NUM_REAL Cfg.reference
  Over.State.powerOn Cfg.reference

end Machine

end Sys2Proof
end

