-- ==== Sys2Proof/Safety.lean ====
section
/-! DEFINITION. What claims are stated in: the stages over an exact numeric domain, the invariant of the machine, what a
run respects (70_reset_and_hazards.md R247), and the shapes of a response. -/

namespace Sys2Proof

/-! The micro-operations over an exact domain (00_scope.md R12): any ordered field with a floor, so the reals of
NUM_REAL and the rationals, with any functions. -/

section
variable {V : Type} [Field V] [LinearOrder V] [FloorRing V] (F : Fns V)

/-- One micro-operation. -/
def Fns.run (op : Machine.MicroOp V) (s : Machine.Over.State V) (l : Machine.Locals V) :
    Machine.Over.State V × Machine.Locals V :=
  letI := NUM.exact F
  op.run s l

/-- The block-local values of a snapshot (45_pipeline.md R174). -/
def Fns.blockLocals (c : Cfg V) (p : Machine.ParamFile V) : Machine.BlockLocals V :=
  letI := NUM.exact F
  Machine.blockLocals c p

/-- The delay of LFO.MOD for a modulation sum (43_pitch_modulation.md R144). -/
def Fns.delaySamples (c : Cfg V) (FS : V) (L : Nat) (tot : V) : V :=
  letI := NUM.exact F
  Machine.delaySamples c FS L tot

/-- The taps of DLY.RD and the fraction between them (43_pitch_modulation.md R146). -/
def Fns.delayTaps (WCUR L : Nat) (ds : V) : Nat × Nat × V :=
  letI := NUM.exact F
  Machine.delayTaps WCUR L ds

/-- The value of a draw (44_noise.md R161). -/
def Fns.draw (r : RngState) : V :=
  letI := NUM.exact F
  Prng.value r

end

namespace Machine

section
variable {V : Type}

/-! ## Responses and blocks -/

/-- The response `(code, value)` (30_encoding.md R81). -/
def answer (code : BitVec 8) (value : Word32) : Output V := .response ⟨code, value, none⟩

/-- First error wins (60_exceptions.md R211), with the code written out. -/
def firstError (old code : BitVec 8) : BitVec 8 := if old = 0 then code else old

/-- The command refused with `code` and no other effect (60_exceptions.md R211, R216). -/
def refusedWith (code : BitVec 8) (s : Over.State V) : Over.State V :=
  { s with ERR := firstError s.ERR code, out := answer code 0 :: s.out }

/-- The BUF cells of a block: channel below nch, frame below nsamp (10_state.md R55). -/
def inBlock (nch nsamp : Nat) (c : Channel) (n : Nat) : Prop := c.index < nch ∧ n < nsamp

/-- PROCESS nch, nsamp passes every check before LATCH and does something (46_commands.md R197). -/
structure Accepted (nch nsamp : Nat) (s : Over.State V) : Prop where
  idle : s.BUSY = false
  someChannel : 1 ≤ nch
  channels : nch ≤ 2
  someFrame : 1 ≤ nsamp
  prepared : s.PREPARED = true
  fits : nsamp ≤ s.dp.BLKSZ

/-- Every cell of the block holds a value (45_pipeline.md R173). -/
def Filled (nch nsamp : Nat) (s : Over.State V) : Prop :=
  ∀ c n, inBlock nch nsamp c n → (bufRead s.dp c n).isSome = true

/-- A cell of D, 0 where none is listed (10_state.md R54). -/
def delayCell [Zero V] (d : Datapath V) (c : Channel) (i : Nat) : V :=
  (Memory.read (some 0) (d.ch.get c).D i).getD 0

/-- Everything of the private state that only PREPARE and the block-start latch write (10_state.md R38 to R46). -/
def sameSetup (d e : Datapath V) : Prop :=
  e.S = d.S ∧ e.FS = d.FS ∧ e.BLKSZ = d.BLKSZ ∧ e.L = d.L ∧ e.coef = d.coef

/-- The premises of a claim about a run (70_reset_and_hazards.md R247): no error recorded, nothing in flight. -/
structure Over.State.Clean (s : Over.State V) : Prop where
  noError : s.ERR = 0
  idle : s.BUSY = false

/-- The state after four draws (44_noise.md R161). -/
def afterFourDraws (r : RngState) : RngState := Prng.advance (Prng.advance (Prng.advance (Prng.advance r)))

/-! ## The invariant -/

/-- A channel's delay RAM is in canonical form and has no cell outside 0..L-1 (10_state.md R54). -/
structure Chan.Inv [Zero V] [DecidableEq V] (len : Nat) (h : Chan V) : Prop where
  canonical : Memory.wf (some 0) h.D = true
  inRange : Memory.below len h.D = true

/-- The sizes, counts, memories and flags of the private state, in every numeric domain (10_state.md sections 4 to 7).
Before any PREPARE the block size and the delay length are 0; after one they are what it accepted (R39, R40). -/
structure Datapath.Inv [Zero V] [DecidableEq V] (c : Cfg V) (d : Datapath V) : Prop where
  sized : (d.BLKSZ = 0 ∧ d.L = 0) ∨ (1 ≤ d.BLKSZ ∧ d.BLKSZ ≤ c.nmax ∧ 4 ≤ d.L ∧ d.L ≤ c.lmax)
  chan : ∀ ch : Channel, (d.ch.get ch).Inv d.L
  modcnt : d.osc.MODCNT < 1000
  wcur : d.osc.WCUR < d.L ∨ (d.L = 0 ∧ d.osc.WCUR = 0)
  rng : d.RNG ≠ .prbs 0
  buf : ∀ ch : Channel, Memory.wf none (d.BUF.get ch) = true ∧ Memory.below c.nmax (d.BUF.get ch) = true
  seq : d.SEQ = none

/-- The invariant between two commands, in every numeric domain. -/
structure Over.State.Shaped [Zero V] [DecidableEq V] (s : Over.State V) : Prop where
  nmax : 1 ≤ s.cfg.nmax ∧ s.cfg.nmax ≤ 65535
  lmax : 4 ≤ s.cfg.lmax
  idle : s.BUSY = false
  err : s.ERR.toNat ≤ 5
  prepared : s.PREPARED = true → 1 ≤ s.dp.BLKSZ
  dp : s.dp.Inv s.cfg

section
variable [Field V] [LinearOrder V]

/-- Every parameter is inside its domain (10_state.md R31). -/
def ParamFile.InDomain (p : ParamFile V) : Prop :=
  ∀ k : NumParam, ((k.lo : ℚ) : V) ≤ p.get k ∧ p.get k ≤ ((k.hi : ℚ) : V)

/-- The phases and offsets are in their ranges (10_state.md R50, R51). -/
structure Osc.InRange (o : Osc V) : Prop where
  wph : 0 ≤ o.WPH ∧ o.WPH < 1
  fph : 0 ≤ o.FPH ∧ o.FPH < 1
  wro : -1 ≤ o.WRO ∧ o.WRO ≤ 1
  fro : -1 ≤ o.FRO ∧ o.FRO ≤ 1

/-- The coefficients are in their ranges (10_state.md R45, R46). -/
structure Coef.InRange (k : Coef V) : Prop where
  lpc : ∀ c : Channel, 0 < k.LPC.get c ∧ k.LPC.get c ≤ 1
  winc : 0 ≤ k.WINC
  finc : 0 ≤ k.FINC

/-- The values are in their ranges, in an exact domain (10_state.md R31, R38 to R51). -/
structure Over.State.InRange [FloorRing V] (s : Over.State V) : Prop where
  noise : ∀ g, s.cfg.noiseLevel = .linear g → 0 ≤ g
  params : s.P.InDomain
  snapshot : s.dp.S.InDomain
  peakIn : 0 ≤ s.PEAK_IN
  peakOut : 0 ≤ s.PEAK_OUT
  rate : (s.dp.FS = 0 ∧ s.dp.L = 0) ∨ (0 < s.dp.FS ∧ s.dp.L = max 4 ⌈s.dp.FS / 20⌉.toNat)
  coef : s.dp.coef.InRange
  osc : s.dp.osc.InRange

end

end

/-- The invariant of the machine that runs: its shape whatever CFG.NUM is, its values where the arithmetic is exact. -/
structure State.Inv (s : State) : Prop where
  shaped : s.Shaped
  inRange : s.cfg.num ≠ .other → s.InRange

/-! ## Blocks of the machine that runs -/

/-- One run of the mapper in the domain of the configuration (40_coefficient_mapper.md R101). -/
def mapped (c : Cfg ℚ) (d : Datapath ℚ) : Datapath ℚ :=
  letI := numOf c
  mapLFO (mapLP (mapHB d))

/-- The private state when the frame loop of a block begins, with nothing landing (45_pipeline.md R171): the snapshot
taken, and the mapper run if DIRTY was 1. -/
def latched (s : State) : Datapath ℚ :=
  if s.DIRTY then mapped s.cfg { s.dp with S := s.P } else { s.dp with S := s.P }

/-- The block-local values in the domain of the configuration (45_pipeline.md R174). -/
def localsOf (c : Cfg ℚ) (p : ParamFile ℚ) : BlockLocals ℚ :=
  letI := numOf c
  blockLocals c p

/-- The private state after the frame loop of a block of `s` that begins at the private state `d`, with nothing landing
(45_pipeline.md R172). -/
def afterFrames (nch nsamp : Nat) (s : State) (d : Datapath ℚ) (l : Locals ℚ) : Datapath ℚ :=
  letI := numOf s.cfg
  { (runOps (framesOps l.blk nch nsamp) ({ s with dp := d, arrivals := [] }, l)).1.dp with SEQ := none }

/-- `p` is the largest magnitude of the block's cells, 0 for none (45_pipeline.md R173, R183). -/
def IsPeak (nch nsamp : Nat) (s : State) (p : ℚ) : Prop :=
  (∀ c n v, inBlock nch nsamp c n → bufRead s.dp c n = some v → |v| ≤ p) ∧
    (p = 0 ∨ ∃ c n v, inBlock nch nsamp c n ∧ bufRead s.dp c n = some v ∧ p = |v|)

end Machine

end Sys2Proof
end

