-- ==== Sys2Proof/Certificates/Slice0/Obligations.lean ====
section
/-! DEFINITION. The statements for the provers. Each docstring names the rule or section of spec/ it is about. -/

open Sys2Proof Sys2Proof.Machine

/-! ## Encoding -/

/-- Decoding the word of a well-formed command gives the command back (30_encoding.md R80, R87). -/
def Obligations.CommandWordsRoundTrip : Prop :=
  ∀ i : Instr, i.wf = true → decode (encode i) = .ok i

/-- A word that decodes is the word of a well-formed command: no bit is dropped (30_encoding.md R80, R87, R88). -/
def Obligations.DecodedWordsEncodeBack : Prop :=
  ∀ (w : CmdWord) (i : Instr), decode w = .ok i → encode i = w ∧ i.wf = true

/-- R89: a word either decodes, and then its row is the one row of the table that matches it, or is illegal, and then
no row matches it. -/
def Obligations.EveryWordMatchesOneRowOrIsIllegal : Prop :=
  ∀ w : CmdWord,
    (∃ i, decode w = .ok i ∧ i.row ∈ opcodeTable ∧ i.row.matches w = true ∧
      ∀ r ∈ opcodeTable, r.matches w = true → r = i.row) ∨
    (∃ e, decode w = .error e ∧ ∀ r ∈ opcodeTable, r.matches w = false)

/-- The worked encodings of R93 decode to the commands they stand for. -/
def Obligations.WorkedEncodingsDecode : Prop :=
  decode 0x01000200473B8000 = .ok (.prepare 512 0x473B8000) ∧
  decode 0x0200000000000000 = .ok .reset ∧
  decode 0x0300000000000001 = .ok (.seed 1) ∧
  decode 0x0401000042480000 = .ok (.setpSat 0x42480000) ∧
  decode 0x0409000042C80000 = .ok (.setpMix 0x42C80000) ∧
  decode 0x040D000000000001 = .ok (.setpForm 1) ∧
  decode 0x0501000000000000 = .ok .gettOut ∧
  decode 0x0600000000000000 = .ok .gets ∧
  decode 0x0702020000000000 = .ok (.process 2 512)

/-- `dec32` (30_encoding.md R82): none for e = 255, the subnormal and the normal formula otherwise. -/
def Obligations.Dec32IsTheBinary32Value : Prop :=
  ∀ w : Word32,
    let s : ℚ := if w.getLsbD 31 then -1 else 1
    let e := (w.extractLsb' 23 8).toNat
    let m := (w.extractLsb' 0 23).toNat
    (e = 255 → dec32 w = none) ∧
    (e = 0 → dec32 w = some (s * m * (2 : ℚ) ^ (-149 : Int))) ∧
    (0 < e → e < 255 → dec32 w = some (s * (2 ^ 23 + m) * (2 : ℚ) ^ ((e : Int) - 150)))

/-- The fourteen pseudo-instructions assemble to SETP with k fixed (30_encoding.md R92), and two lines of R93 to their
words. -/
def Obligations.PseudoInstructionsExpandToSetp : Prop :=
  (∀ (k : NumParam) (v : ℚ), assemble (.setNum k (.real v)) = some (setpOf k (binary32 v))) ∧
  (∀ k : NumParam, (encode (setpOf k 0)).extractLsb' 48 8 = BitVec.ofNat 8 k.index) ∧
  assemble (.setSpeed .slow) = some (.setpSpeed 0) ∧ assemble (.setSpeed .medium) = some (.setpSpeed 1) ∧
  assemble (.setSpeed .fast) = some (.setpSpeed 2) ∧ assemble (.setForm .ferric) = some (.setpForm 0) ∧
  assemble (.setForm .chrome) = some (.setpForm 1) ∧ assemble (.setForm .modern) = some (.setpForm 2) ∧
  (assemble (.prepare (.real 48000) 512)).map encode = some 0x01000200473B8000 ∧
  (assemble (.setp 1 (.real 50))).map encode = some 0x0401000042480000

/-! ## The step -/

/-- A step with a word on the port that decodes is exec of its command, the word taken off the port (46_commands.md
R190; the port as a list is the model's, log 7). -/
def Obligations.StepRunsDecodedCommand : Prop :=
  ∀ (s : State) (w : CmdWord) (i : Instr) (rest : List (Input ℚ)),
    s.inputs = .cmd w :: rest → decode w = .ok i → step s = exec i { s with inputs := rest }

/-- R212: an illegal command word changes ERR, if it was 0, and nothing else. -/
def Obligations.IllegalWordRecordsOnlyAnError : Prop :=
  ∀ (s : State) (w : CmdWord) (e : Illegal) (rest : List (Input ℚ)),
    s.inputs = .cmd w :: rest → decode w = .error e →
      step s = .next { s with
        inputs := rest
        ERR := if s.ERR = 0 then 1 else s.ERR
        out := answer 1 0 :: s.out }

/-- R37: ERR keeps the first error until power-on reset, which clears it; a step that changes it changes it from 0 to
one of the five codes. -/
def Obligations.ErrorRegisterKeepsTheFirstError : Prop :=
  State.reset.ERR = 0 ∧
  ∀ s t : State, step s = .next t →
    (s.inputs.head? = some .powerOn → t.ERR = 0) ∧
    (s.inputs.head? ≠ some .powerOn → s.ERR ≠ 0 → t.ERR = s.ERR) ∧
    (s.inputs.head? ≠ some .powerOn → t.ERR ≠ s.ERR → s.ERR = 0 ∧ 1 ≤ t.ERR.toNat ∧ t.ERR.toNat ≤ 5)

/-- A command ends with BUSY = 0 when it began with BUSY = 0 (10_state.md R36), whatever lands in it. -/
def Obligations.CommandsEndIdle : Prop :=
  ∀ (i : Instr) (s : State), s.BUSY = false → ∃ t, exec i s = .next t ∧ t.BUSY = false

/-- R81: every command answers with one response; its code is at most 5 and its value 0 unless the command is GETT or
GETS. Stated with nothing landing, so that the response is the command's own. -/
def Obligations.EveryCommandAnswersOnce : Prop :=
  ∀ (i : Instr) (s t : State), s.arrivals = [] → exec i s = .next t →
    ∃ r : Response, t.out = .response r :: s.out ∧ r.code.toNat ≤ 5 ∧ (i.cls ≠ .obs → r.value = 0)

/-- 60_exceptions.md R217: the control class changes P and DIRTY only (or records its refusal), the observer class
changes nothing, the sequencer class never changes P. -/
def Obligations.ClassesTouchOnlyTheirCells : Prop :=
  ∀ (i : Instr) (s t : State), s.arrivals = [] → exec i s = .next t →
    (i.cls = .ctl → t = { s with P := t.P, DIRTY := t.DIRTY, ERR := t.ERR, out := t.out }) ∧
    (i.cls = .obs → t = { s with out := t.out }) ∧
    (i.cls = .seq → t.P = s.P)

/-- 46_commands.md R190: a sequencer command while BUSY = 1 raises E_BUSY and has no other effect. -/
def Obligations.BusyRefusesSequencerCommands : Prop :=
  ∀ (i : Instr) (s : State), i.cls = .seq → s.BUSY = true → exec i s = .next (refusedWith 2 s)

/-- A word that lands inside a running command does exactly what the port's next word would do at that state
(20_memory.md section 4, 46_commands.md section 1). -/
def Obligations.LandingWordsActAsCommands : Prop :=
  ∀ (w : CmdWord) (s : State), s.BUSY = true → letI := numOf s.cfg; runWord exec w s = .next (land w s)

/-- R230: the power-on reset input puts every piece of state at its PO value, in any configuration; a block with
nothing on its port waits. -/
def Obligations.PowerOnSetsEveryRegister : Prop :=
  (∀ u : State, u.inputs = [] → step u = .next u) ∧
  ∀ (s : State) (rest : List (Input ℚ)), s.inputs = .powerOn :: rest →
    ∃ t, step s = .next t ∧ t.cfg = s.cfg ∧ t.inputs = rest ∧
      t.P = ⟨0, 0, 0, 0, 40, 0, 0, 0, 0, 0, 0, 0, .slow, .ferric⟩ ∧ t.dp.S = t.P ∧
      t.PREPARED = false ∧ t.DIRTY = false ∧ t.BUSY = false ∧ t.ERR = 0 ∧ t.PEAK_IN = 0 ∧ t.PEAK_OUT = 0 ∧
      t.dp.FS = 0 ∧ t.dp.BLKSZ = 0 ∧ t.dp.L = 0 ∧ t.dp.coef = ⟨1, 0, 0, 0, 0, ⟨1, 1⟩, 0, 0⟩ ∧
      (∀ c, t.dp.ch.get c = ⟨0, 0, 0, 0, 0, 0, []⟩) ∧ t.dp.osc = ⟨0, 0, 0, 0, 0, 0⟩ ∧
      (∀ c n, bufRead t.dp c n = none) ∧ t.dp.RNG = Prng.seedOf s.cfg.prng s.cfg.seed0

/-- 20_memory.md R60, R65, 70_reset_and_hazards.md R241: the host data agent's write is read back and leaves every
other cell and register alone, its read changes nothing, an access outside BUF faults, one while BUSY = 1 is refused. -/
def Obligations.HostDataAgentOwnsBufBetweenBlocks : Prop :=
  ∀ (s : State) (c n : Nat) (v : ℚ) (rest : List (Input ℚ)),
    (s.inputs = .bufWrite c n v :: rest →
      (∀ ch, Channel.ofIndex c = some ch → n < s.cfg.nmax → s.BUSY = false →
        ∃ t, step s = .next t ∧ bufRead t.dp ch n = some v ∧
          (∀ e m, (e, m) ≠ (ch, n) → bufRead t.dp e m = bufRead s.dp e m) ∧
          t = { s with inputs := rest, dp := { s.dp with BUF := t.dp.BUF } }) ∧
      (2 ≤ c ∨ s.cfg.nmax ≤ n → step s = .fault (.noSuchCell c n)) ∧
      (c < 2 → n < s.cfg.nmax → s.BUSY = true → step s = .refused .bufOwnedBySequencer)) ∧
    (s.inputs = .bufRead c n :: rest →
      (∀ ch, Channel.ofIndex c = some ch → n < s.cfg.nmax → s.BUSY = false →
        step s = .next { s with inputs := rest, out := .cell c n (bufRead s.dp ch n) :: s.out }) ∧
      (2 ≤ c ∨ s.cfg.nmax ≤ n → step s = .fault (.noSuchCell c n)) ∧
      (c < 2 → n < s.cfg.nmax → s.BUSY = true → step s = .refused .bufOwnedBySequencer))

/-! ## The control agent and the observer -/

/-- R84: SETP k, k in 0..11, stores its operand clamped to the parameter's domain (10_state.md R30) by the comparison of
CFG.NUM, whatever BUSY is, sets DIRTY for k in {2, 3, 4, 10}, and leaves everything else; an infinity or a NaN is
refused with E_ARG. -/
def Obligations.SetpStoresItsOperandClamped : Prop :=
  ∀ (k : NumParam) (w : Word32) (s : State),
    let lt := (numOf s.cfg).lt
    let lo : ℚ := if k = .drive ∨ k = .outgain then -12 else if k = .hbfreq then 40 else 0
    let hi : ℚ := if k = .drive ∨ k = .outgain then 12 else if k = .hbfreq then 150 else 100
    (dec32 w = none → exec (setpOf k w) s = .next (refusedWith 4 s)) ∧
    (∀ v, dec32 w = some v → ∃ t, exec (setpOf k w) s = .next t ∧
      t.P.get k = (if lt v lo then lo else if lt hi v then hi else v) ∧
      (s.cfg.num ≠ .other → t.P.get k = max lo (min v hi)) ∧
      (∀ j, j ≠ k → t.P.get j = s.P.get j) ∧ t.P.speed = s.P.speed ∧ t.P.form = s.P.form ∧
      t.DIRTY = (s.DIRTY || [2, 3, 4, 10].contains k.index) ∧
      t = { s with P := t.P, DIRTY := t.DIRTY, out := answer 0 0 :: s.out })

/-- R85: SETP.SPEED and SETP.FORM store the code min(w, 2), set DIRTY, and leave everything else. -/
def Obligations.SetpEnumStoresTheLesserOfCodeAndTwo : Prop :=
  ∀ (w : Word32) (s : State),
    (∃ v : Speed, exec (.setpSpeed w) s =
        .next { s with P := { s.P with speed := v }, DIRTY := true, out := answer 0 0 :: s.out } ∧
      (min w.toNat 2 = 0 → v = .slow) ∧ (min w.toNat 2 = 1 → v = .medium) ∧ (min w.toNat 2 = 2 → v = .fast)) ∧
    (∃ v : Form, exec (.setpForm w) s =
        .next { s with P := { s.P with form := v }, DIRTY := true, out := answer 0 0 :: s.out } ∧
      (min w.toNat 2 = 0 → v = .ferric) ∧ (min w.toNat 2 = 1 → v = .chrome) ∧ (min w.toNat 2 = 2 → v = .modern))

/-- R195: GETT answers with the encoded peak and writes nothing, whatever BUSY is; the reference encoding is the nearest
binary32 word (R83). -/
def Obligations.GettAnswersThePeak : Prop :=
  ∀ s : State,
    let enc32 := (numOf s.cfg).enc32
    exec .gettIn s = .next { s with out := answer 0 (enc32 s.PEAK_IN) :: s.out } ∧
    exec .gettOut s = .next { s with out := answer 0 (enc32 s.PEAK_OUT) :: s.out } ∧
    (s.cfg.num ≠ .other → s.cfg.enc32 = .binary32 → enc32 = binary32)

/-- R42: the status word of GETS, bit by bit; GETS writes nothing, whatever BUSY is. -/
def Obligations.GetsAnswersTheStatusBits : Prop :=
  ∀ s : State, ∃ v : Word32, exec .gets s = .next { s with out := answer 0 v :: s.out } ∧
    v.getLsbD 0 = s.PREPARED ∧ v.getLsbD 1 = s.DIRTY ∧ v.getLsbD 2 = s.BUSY ∧ v.extractLsb' 3 5 = 0 ∧
    v.extractLsb' 8 8 = s.ERR ∧ v.extractLsb' 16 16 = 0

/-- The reference encoding of a telemetry value answers the binary32 word it came from: every finite word but the
zeros (30_encoding.md sections 2, 92_eei_decisions.md D3). -/
def Obligations.Binary32GivesBackFiniteWords : Prop :=
  ∀ (w : Word32) (v : ℚ), dec32 w = some v → v ≠ 0 → binary32 v = w

/-! ## RESET, SEED, PREPARE -/

/-- R192: RESET zeroes the signal state of both channels, the oscillators and the telemetry, and leaves
FS, BLKSZ, L, S, the coefficients, RNG, BUF, PREPARED, the configuration and the port's inputs, whatever lands in it. -/
def Obligations.ResetClearsTheSignalState : Prop :=
  ∀ s : State, (s.BUSY = true → exec .reset s = .next (refusedWith 2 s)) ∧ (s.BUSY = false →
    ∃ t, exec .reset s = .next t ∧
      t.dp = { s.dp with
        ch := ⟨⟨0, 0, 0, 0, 0, 0, []⟩, ⟨0, 0, 0, 0, 0, 0, []⟩⟩
        osc := ⟨0, 0, 0, 0, 0, 0⟩
        SEQ := none } ∧
      (∀ c i, delayCell t.dp c i = 0) ∧ t.cfg = s.cfg ∧
      t.PEAK_IN = 0 ∧ t.PEAK_OUT = 0 ∧ t.BUSY = false ∧ t.PREPARED = s.PREPARED ∧ t.inputs = s.inputs ∧
      t.out.head? = some (answer 0 0) ∧
      (s.arrivals = [] →
        t.P = s.P ∧ t.DIRTY = s.DIRTY ∧ t.ERR = s.ERR ∧ t.arrivals = [] ∧ t.out = answer 0 0 :: s.out))

/-- R193: SEED changes nothing of the private state but RNG, and neither the configuration nor the inputs; with
PRBS31 it takes the low 31 bits, 1 if they are 0. -/
def Obligations.SeedWritesOnlyTheGenerator : Prop :=
  ∀ (w : Word32) (s : State), (s.BUSY = true → exec (.seed w) s = .next (refusedWith 2 s)) ∧ (s.BUSY = false →
    ∃ t, exec (.seed w) s = .next t ∧
      t.dp = { s.dp with RNG := t.dp.RNG, SEQ := none } ∧ t.dp.RNG = Prng.seedOf s.cfg.prng w ∧
      (s.cfg.prng = .prbs31 → t.dp.RNG = .prbs (if w.extractLsb' 0 31 = 0 then 1 else w.extractLsb' 0 31)) ∧
      t.BUSY = false ∧ t.PREPARED = s.PREPARED ∧ t.PEAK_IN = s.PEAK_IN ∧ t.PEAK_OUT = s.PEAK_OUT ∧
      t.cfg = s.cfg ∧ t.inputs = s.inputs ∧ t.out.head? = some (answer 0 0) ∧
      (s.arrivals = [] →
        t.P = s.P ∧ t.DIRTY = s.DIRTY ∧ t.ERR = s.ERR ∧ t.arrivals = [] ∧ t.out = answer 0 0 :: s.out))

/-- 46_commands.md R191: a PREPARE with a rate that is not a positive number, a block size outside 1..NMAX or a delay
length above LMAX is refused with E_ARG and changes nothing but ERR. The rate and the length are compared in exact
arithmetic; the other checks are the same in every numeric domain. -/
def Obligations.PrepareRefusesBadArguments : Prop :=
  ∀ (blk : Nat) (fs : Word32) (s : State), s.BUSY = false → s.arrivals = [] → s.dp.SEQ = none →
    (dec32 fs = none ∨ blk = 0 ∨ s.cfg.nmax < blk ∨
      s.cfg.num ≠ .other ∧ ∃ f, dec32 fs = some f ∧ (f ≤ 0 ∨ s.cfg.lmax < max 4 ⌈f / 20⌉.toNat)) →
    exec (.prepare blk fs) s = .next (refusedWith 4 s)

/-- 46_commands.md R191: with good arguments, exact arithmetic and nothing landing, PREPARE sets FS, BLKSZ and L, takes
the parameters into S, clears DIRTY, runs the mapper with its four draws, clears what RESET clears and sets PREPARED; P,
ERR and BUF stay. -/
def Obligations.PrepareSetsUpTheBlock : Prop :=
  ∀ (blk : Nat) (fs : Word32) (f : ℚ) (s : State), s.cfg.num ≠ .other → s.BUSY = false → s.arrivals = [] →
    dec32 fs = some f → 0 < f → 1 ≤ blk → blk ≤ s.cfg.nmax → max 4 ⌈f / 20⌉.toNat ≤ s.cfg.lmax →
    ∃ t, exec (.prepare blk fs) s = .next t ∧
      t = { s with
        PREPARED := true
        DIRTY := false
        PEAK_IN := 0
        PEAK_OUT := 0
        out := answer 0 0 :: s.out
        dp :=
          { S := s.P
            FS := f
            BLKSZ := blk
            L := max 4 ⌈f / 20⌉.toNat
            coef := t.dp.coef
            ch := ⟨⟨0, 0, 0, 0, 0, 0, []⟩, ⟨0, 0, 0, 0, 0, 0, []⟩⟩
            osc := ⟨0, 0, 0, 0, 0, 0⟩
            RNG := afterFourDraws s.dp.RNG
            BUF := s.dp.BUF
            SEQ := none } } ∧
      t.dp.coef = (mapped s.cfg { s.dp with S := s.P, FS := f }).coef

/-- 46_commands.md R191 in exact arithmetic, under any interleaving: whatever lands in a good PREPARE, it completes, and
the sizes, the cleared state, the generator and BUF are the same. -/
def Obligations.PrepareCompletesWhateverLands : Prop :=
  ∀ (blk : Nat) (fs : Word32) (f : ℚ) (s : State), s.cfg.num ≠ .other → s.BUSY = false →
    dec32 fs = some f → 0 < f → 1 ≤ blk → blk ≤ s.cfg.nmax → max 4 ⌈f / 20⌉.toNat ≤ s.cfg.lmax →
    ∃ t, exec (.prepare blk fs) s = .next t ∧ t.BUSY = false ∧ t.PREPARED = true ∧
      t.dp.FS = f ∧ t.dp.BLKSZ = blk ∧ t.dp.L = max 4 ⌈f / 20⌉.toNat ∧
      (∀ c, t.dp.ch.get c = ⟨0, 0, 0, 0, 0, 0, []⟩) ∧ t.dp.osc = ⟨0, 0, 0, 0, 0, 0⟩ ∧
      t.PEAK_IN = 0 ∧ t.PEAK_OUT = 0 ∧ t.dp.RNG = afterFourDraws s.dp.RNG ∧ t.dp.BUF = s.dp.BUF ∧
      t.out.head? = some (answer 0 0)

/-! ## PROCESS -/

/-- 46_commands.md R197, 60_exceptions.md R215: the checks of PROCESS before LATCH, in order; none changes anything but
ERR, and the no-op changes nothing. -/
def Obligations.ProcessChecksInOrder : Prop :=
  ∀ (nch nsamp : Nat) (s : State), s.BUSY = false →
    (2 < nch → exec (.process nch nsamp) s = .next (refusedWith 4 s)) ∧
    (nch ≤ 2 → (nch = 0 ∨ nsamp = 0) → exec (.process nch nsamp) s = .next { s with out := answer 0 0 :: s.out }) ∧
    (1 ≤ nch → nch ≤ 2 → 1 ≤ nsamp → s.PREPARED = false → exec (.process nch nsamp) s = .next (refusedWith 3 s)) ∧
    (1 ≤ nch → nch ≤ 2 → 1 ≤ nsamp → s.PREPARED = true → s.dp.BLKSZ < nsamp →
      exec (.process nch nsamp) s = .next (refusedWith 4 s))

/-- 45_pipeline.md R173: the first cell without a value, in frame-major order, ends the block with E_BADSAMPLE; LATCH
has run, no frame has: BUF, the telemetry and the signal state are as before. -/
def Obligations.ProcessRefusesAnUnwrittenCell : Prop :=
  ∀ (nch nsamp : Nat) (s : State) (c : Channel) (n : Nat), Accepted nch nsamp s → s.arrivals = [] →
    inBlock nch nsamp c n → bufRead s.dp c n = none →
    (∀ e m, inBlock nch nsamp e m → m < n ∨ (m = n ∧ e.index < c.index) → (bufRead s.dp e m).isSome = true) →
    ∃ t, exec (.process nch nsamp) s = .next t ∧
      t.out = .response ⟨5, 0, some (c.index, n)⟩ :: s.out ∧ t.ERR = firstError s.ERR 5 ∧ t.BUSY = false ∧
      t.DIRTY = false ∧ t.P = s.P ∧ t.PREPARED = s.PREPARED ∧ t.PEAK_IN = s.PEAK_IN ∧ t.PEAK_OUT = s.PEAK_OUT ∧
      t.dp = { s.dp with
        S := s.P
        coef := if s.DIRTY then (mapped s.cfg { s.dp with S := s.P }).coef else s.dp.coef
        RNG := if s.DIRTY then afterFourDraws s.dp.RNG else s.dp.RNG
        SEQ := none }

/-- 46_commands.md R197, 45_pipeline.md R172, R173, R183: an accepted block whose cells all hold values completes,
whatever lands in it. PEAK_IN is the peak of the input and PEAK_OUT of the output; every cell of the block still holds
a value and no other cell changes; FS, BLKSZ, L, PREPARED, the configuration and the port's inputs stay. -/
def Obligations.ProcessCompletesAFilledBlock : Prop :=
  ∀ (nch nsamp : Nat) (s : State), Accepted nch nsamp s → Filled nch nsamp s →
    ∃ t, exec (.process nch nsamp) s = .next t ∧ t.BUSY = false ∧ t.out.head? = some (answer 0 0) ∧
      (s.cfg.num ≠ .other → IsPeak nch nsamp s t.PEAK_IN ∧ IsPeak nch nsamp t t.PEAK_OUT) ∧ Filled nch nsamp t ∧
      (∀ c n, ¬inBlock nch nsamp c n → bufRead t.dp c n = bufRead s.dp c n) ∧
      t.dp.FS = s.dp.FS ∧ t.dp.BLKSZ = s.dp.BLKSZ ∧ t.dp.L = s.dp.L ∧ t.PREPARED = s.PREPARED ∧
      t.cfg = s.cfg ∧ t.inputs = s.inputs ∧ t.dp.SEQ = none

/-- 45_pipeline.md R171 to R174, 20_memory.md R73: with nothing landing, a block runs on the parameters latched at its
start. The private state it leaves is the frame loop's, run with the block-local values of the snapshot from the state
after the latch, which has the coefficients recomputed exactly when DIRTY was 1; the frame loop takes nothing but the
block-local values from what the sequencer holds. So the coefficients stay in the block, the counter and the cursor
advance once a frame, and with the noise disabled and no update due the generator moves by the mapper's draws only. -/
def Obligations.BlockRunsOnLatchedParameters : Prop :=
  ∀ (nch nsamp : Nat) (s : State), Accepted nch nsamp s → Filled nch nsamp s → s.arrivals = [] →
    ∃ t, exec (.process nch nsamp) s = .next t ∧ t.cfg = s.cfg ∧ t.P = s.P ∧ t.ERR = s.ERR ∧ t.DIRTY = false ∧
      (∀ l : Locals ℚ, l.blk = localsOf s.cfg s.P → t.dp = afterFrames nch nsamp s (latched s) l) ∧
      t.dp.S = s.P ∧
      t.dp.coef = (if s.DIRTY then (mapped s.cfg { s.dp with S := s.P }).coef else s.dp.coef) ∧
      (s.dp.osc.MODCNT < 1000 → t.dp.osc.MODCNT = (s.dp.osc.MODCNT + nsamp) % 1000) ∧
      (s.dp.osc.WCUR < s.dp.L → t.dp.osc.WCUR = (s.dp.osc.WCUR + nsamp) % s.dp.L) ∧
      ((localsOf s.cfg s.P).enNoise = false → s.dp.osc.MODCNT + nsamp < 1000 →
        t.dp.RNG = if s.DIRTY then afterFourDraws s.dp.RNG else s.dp.RNG)

/-- 45_pipeline.md R184: in exact arithmetic, with MIX at 0 every output cell equals its input cell, for every other
parameter and state; over the rationals and over the reals of NUM_REAL. -/
def Obligations.DryPassthrough : Prop :=
  (∀ (nch nsamp : Nat) (s : State), s.cfg.num ≠ .other →
    Accepted nch nsamp s → Filled nch nsamp s → s.arrivals = [] → s.P.mix = 0 →
    ∃ t, exec (.process nch nsamp) s = .next t ∧ (∀ c n, bufRead t.dp c n = bufRead s.dp c n) ∧
      t.PEAK_OUT = t.PEAK_IN) ∧
  (∀ (nch nsamp : Nat) (s : Over.State ℝ),
    Accepted nch nsamp s → Filled nch nsamp s → s.arrivals = [] → s.P.mix = 0 →
    ∃ t, realExec (.process nch nsamp) s = .next t ∧ (∀ c n, bufRead t.dp c n = bufRead s.dp c n) ∧
      t.PEAK_OUT = t.PEAK_IN)

/-- 45_pipeline.md R186: in exact arithmetic, zeros in, zeros out, from cleared signal state, with the hiss at 0 and the
saturation or the bias at 0; the signal state stays clear. -/
def Obligations.ZerosInZerosOut : Prop :=
  ∀ (nch nsamp : Nat) (s : State), s.cfg.num ≠ .other → Accepted nch nsamp s → s.arrivals = [] →
    (∀ c n, inBlock nch nsamp c n → bufRead s.dp c n = some 0) →
    (∀ c, s.dp.ch.get c = ⟨0, 0, 0, 0, 0, 0, []⟩) → s.P.hiss = 0 → (s.P.sat = 0 ∨ s.P.bias = 0) →
    ∃ t, exec (.process nch nsamp) s = .next t ∧ t.PEAK_IN = 0 ∧ t.PEAK_OUT = 0 ∧
      (∀ c n, inBlock nch nsamp c n → bufRead t.dp c n = some 0) ∧
      (∀ c, t.dp.ch.get c = ⟨0, 0, 0, 0, 0, 0, []⟩)

/-- 45_pipeline.md R187: a mono block leaves channel 1's state and BUF array alone, and the shared oscillator state and
the generator end as a stereo block's. -/
def Obligations.MonoLeavesTheRightChannel : Prop :=
  ∀ (nsamp : Nat) (s : State), Accepted 1 nsamp s → Filled 2 nsamp s → s.arrivals = [] →
    ∃ t u, exec (.process 1 nsamp) s = .next t ∧ exec (.process 2 nsamp) s = .next u ∧
      t.dp.ch.right = s.dp.ch.right ∧ t.dp.BUF.right = s.dp.BUF.right ∧
      t.dp.osc = u.dp.osc ∧ t.dp.RNG = u.dp.RNG ∧ t.dp.coef = u.dp.coef

/-- 45_pipeline.md R187: a mono block does not read channel 1 either: with any other state, delay RAM and BUF array of
channel 1 it answers, does and leaves the same, and keeps what channel 1 held. -/
def Obligations.MonoNeverReadsTheRightChannel : Prop :=
  ∀ (nsamp : Nat) (s : State) (r : Chan ℚ) (m : Mem ℚ), ∃ t, exec (.process 1 nsamp) s = .next t ∧
    exec (.process 1 nsamp) { s with dp := { s.dp with ch := ⟨s.dp.ch.left, r⟩, BUF := ⟨s.dp.BUF.left, m⟩ } } =
      .next { t with dp := { t.dp with ch := ⟨t.dp.ch.left, r⟩, BUF := ⟨t.dp.BUF.left, m⟩ } }

/-- 20_memory.md R72: commands that land after the block-start latch has read the last parameter (fifteen micro-steps
after acceptance in the model's count, log 8) have no effect on the block: the private state, BUF included, and the
telemetry are those of the block in which nothing lands. -/
def Obligations.LateCommandsMissTheBlock : Prop :=
  ∀ (nch nsamp : Nat) (s : State) (as : List Arrival), (∀ a ∈ as.head?, 15 ≤ a.gap) →
    ∃ t u, exec (.process nch nsamp) { s with arrivals := as } = .next t ∧
      exec (.process nch nsamp) { s with arrivals := [] } = .next u ∧
      t.dp = u.dp ∧ t.PEAK_IN = u.PEAK_IN ∧ t.PEAK_OUT = u.PEAK_OUT

/-- 20_memory.md R76: a SETP that sets DIRTY is either before the block start's test-and-clear, and is consumed by the
block's recomputation (DIRTY cleared, its value latched, the mapper run on the latched S with four draws, and the block
run from there), or after it, and leaves DIRTY = 1 when it lands. Gaps count the model's micro-steps (log 8): up to 15
the word lands in the block for certain. -/
def Obligations.DirtyIsNeverLost : Prop :=
  ∀ (nch nsamp gap : Nat) (w : CmdWord) (i : Instr) (v : Word32) (s : State), Accepted nch nsamp s →
    Filled nch nsamp s → s.arrivals = [⟨gap, w⟩] → decode w = .ok i →
    ((dec32 v).isSome = true ∧ i ∈ [Instr.setpWarmth v, .setpHbamt v, .setpHbfreq v, .setpAge v] ∨
      i ∈ [Instr.setpSpeed v, .setpForm v]) →
    ∃ t, exec (.process nch nsamp) s = .next t ∧
      (gap = 0 → t.DIRTY = false ∧ t.dp.S = t.P ∧ t.dp.coef = (mapped s.cfg { s.dp with S := t.P }).coef ∧
        ∀ l : Locals ℚ, l.blk = localsOf s.cfg t.P →
          t.dp = afterFrames nch nsamp s (mapped s.cfg { s.dp with S := t.P }) l) ∧
      (1 ≤ gap → t.DIRTY = true ∨ t.arrivals ≠ []) ∧ (1 ≤ gap → gap ≤ 15 → t.DIRTY = true)

/-- 20_memory.md R71: a latch that runs while two parameters are written may take the old value of one and the new
value of the other. Here DRIVE and MIX are written after the latch has read DRIVE and before it reads MIX. -/
def Obligations.LatchMayTearAcrossParameters : Prop :=
  ∀ (nch nsamp : Nat) (a b : Word32) (va vb : ℚ) (s : State), Accepted nch nsamp s → Filled nch nsamp s →
    (letI := numOf s.cfg; numOperand .drive a = some va ∧ numOperand .mix b = some vb) →
    s.arrivals = [⟨2, encode (.setpDrive a)⟩, ⟨0, encode (.setpMix b)⟩] →
    ∃ t, exec (.process nch nsamp) s = .next t ∧
      t.P.drive = va ∧ t.P.mix = vb ∧ t.dp.S.drive = s.P.drive ∧ t.dp.S.mix = vb

/-- 46_commands.md R198: a block of n1 + n2 frames, or a block of n1 frames and then one of n2 frames whose cells the
host has filled with the remaining inputs, give the same outputs and the same final state but for the telemetry. -/
def Obligations.SplittingABlockChangesOnlyTheTelemetry : Prop :=
  ∀ (nch n1 n2 : Nat) (s : State) (m : Pair (Mem ℚ)), Accepted nch (n1 + n2) s → Filled nch (n1 + n2) s →
    s.arrivals = [] → 1 ≤ n1 → 1 ≤ n2 →
    (∀ c k, inBlock nch n2 c k → Memory.read none (m.get c) k = bufRead s.dp c (n1 + k)) →
    ∃ t u w, exec (.process nch (n1 + n2)) s = .next t ∧ exec (.process nch n1) s = .next u ∧
      exec (.process nch n2) { u with dp := { u.dp with BUF := m } } = .next w ∧
      (∀ c k, inBlock nch n1 c k → bufRead u.dp c k = bufRead t.dp c k) ∧
      (∀ c k, inBlock nch n2 c k → bufRead w.dp c k = bufRead t.dp c (n1 + k)) ∧
      w.dp = { t.dp with BUF := w.dp.BUF } ∧
      w = { t with dp := w.dp, PEAK_IN := w.PEAK_IN, PEAK_OUT := w.PEAK_OUT, out := w.out }

/-! ## The stages, over every exact numeric domain: the reals of NUM_REAL and the rationals among them -/

/-- R140, R170: the order of a frame and of the stages of a channel, the conditional ones only where enabled; the pitch
stage is enabled by a wow or a flutter depth above 0. -/
def Obligations.StageOrderIsTheContract : Prop :=
  (∀ (V : Type) [DecidableEq V] (b : BlockLocals V) (nch n : Nat),
    frameOps b nch n =
      [MicroOp.seqAt n .left, .lfoAdv, .lfoRnd] ++
      ([MicroOp.noise, .lfoMod].filter fun op => if op = .noise then b.enNoise else b.enPM) ++
      (channels nch).flatMap (channelOps b n) ++ [.dlyAdv]) ∧
  (∀ (V : Type) (b : BlockLocals V) (n : Nat) (c : Channel),
    channelOps b n c =
      [MicroOp.seqAt n c, .gainIn n c, .saturate c, .biquad c, .lowpass c, .dlyWr c, .dlyRd c, .noiseAdd c, .gainOut,
        .mix n c].filter fun op =>
          match op with
          | .saturate _ => b.enSat
          | .biquad _ => b.enHB
          | .dlyWr _ | .dlyRd _ => b.enPM
          | .noiseAdd _ => b.enNoise
          | _ => true) ∧
  (∀ (V : Type) [Field V] [LinearOrder V] [IsStrictOrderedRing V] [FloorRing V] (F : Fns V) (c : Cfg V)
    (s : ParamFile V), (F.blockLocals c s).enPM = true ↔ 0 < s.wow ∨ 0 < s.flutter)

/-- 45_pipeline.md R174: the block-local values, computed from the snapshot; the configuration's noise level is used
for the hiss fraction, the reference one being linear. -/
def Obligations.BlockLocalsComeFromTheSnapshot : Prop :=
  ∀ (V : Type) [Field V] [LinearOrder V] [IsStrictOrderedRing V] [FloorRing V] (F : Fns V)
    (s : Over.State V) (l : Locals V), ∃ b : BlockLocals V, F.run .setLocals s l = (s, { l with blk := b }) ∧
    let p := s.dp.S
    b.gIn = F.pow10 (p.drive / 20) ∧ b.gOut = F.pow10 (p.outgain / 20) ∧
    b.mix = p.mix / 100 ∧ b.sat = p.sat / 100 ∧ b.drive0 = 1 + 4 * b.sat ∧ b.boff = s.cfg.kBias * p.bias / 100 ∧
    b.wowD = p.wow / 100 ∧ b.flutD = p.flutter / 100 ∧ b.age = p.age / 100 ∧ b.form = p.form ∧
    (∀ g, s.cfg.noiseLevel = .linear g → b.nl = p.hiss / 100 * g) ∧ (p.hiss = 0 → b.nl = 0) ∧
    (b.enSat = true ↔ 0 < p.sat) ∧ (b.enHB = true ↔ 0 < p.hbamt) ∧ (b.enPM = true ↔ 0 < p.wow ∨ 0 < p.flutter) ∧
    (b.enNoise = true ↔ 0 < b.nl)

/-- 41_saturation.md R122 to R125: the three formulations, each with its new HYS[c] and its output; the stage changes
HYS[c] and the sample and nothing else. -/
def Obligations.SaturationFollowsTheFormulation : Prop :=
  ∀ (V : Type) [Field V] [LinearOrder V] [IsStrictOrderedRing V] [FloorRing V] (F : Fns V)
    (c : Channel) (s : Over.State V) (l : Locals V), ∃ h x : V,
    F.run (.saturate c) s l =
      ({ s with dp := { s.dp with ch := s.dp.ch.set c { s.dp.ch.get c with HYS := h } } }, { l with x := x }) ∧
    let old := (s.dp.ch.get c).HYS
    let xin := l.x + l.blk.boff
    let tanh := F.tanh
    (l.blk.form = .ferric →
      h = old + tanh ((xin * (l.blk.drive0 * 1.3) - old) * (1 + 3 * l.blk.sat)) / (1 + 3 * l.blk.sat) *
        (0.3 + 0.4 * l.blk.sat) ∧ x = h * 0.8) ∧
    (l.blk.form = .chrome → x = tanh (xin * (l.blk.drive0 * 0.9)) ∧ h = 0.9 * old + 0.1 * x) ∧
    (l.blk.form = .modern →
      let y := xin * (l.blk.drive0 * 0.7)
      (|y| ≤ 0.7 → x = y) ∧ (0.7 < y → x = 0.7 + 0.3 * tanh ((y - 0.7) / 0.3)) ∧
      (y < -0.7 → x = -(0.7 + 0.3 * tanh ((-y - 0.7) / 0.3))) ∧ h = 0.95 * old + 0.05 * x)

/-- 41_saturation.md R126 (a), (c), (d): formulations B and modern give an output below 1 in magnitude, whatever the
input, and their memory stays within the larger of its old magnitude and 1; from a clear memory a zero input gives 0 and
leaves it clear without a bias offset, and gives an output that is not 0 with one. -/
def Obligations.SaturationBoundsAndBiasOffset : Prop :=
  ∀ (V : Type) [Field V] [LinearOrder V] [IsStrictOrderedRing V] [FloorRing V] (F : Fns V)
    (c : Channel) (s : Over.State V) (l : Locals V), F.Lawful →
    let r := F.run (.saturate c) s l
    let old := (s.dp.ch.get c).HYS
    (l.blk.form ≠ .ferric → |r.2.x| < 1 ∧ |(r.1.dp.ch.get c).HYS| ≤ max |old| 1) ∧
    (old = 0 → l.x = 0 → l.blk.boff = 0 → r.2.x = 0 ∧ (r.1.dp.ch.get c).HYS = 0) ∧
    (old = 0 → l.x = 0 → l.blk.boff ≠ 0 → 0 ≤ l.blk.sat → 0 < l.blk.drive0 → r.2.x ≠ 0)

/-- 41_saturation.md R122 (b): formulation A's memory moves by less than (0.3 + 0.4 sat) / (1 + 3 sat) a frame, and is
within 0.3 of it. -/
def Obligations.FerricMemoryHasASlewLimit : Prop :=
  ∀ (V : Type) [Field V] [LinearOrder V] [IsStrictOrderedRing V] [FloorRing V] (F : Fns V)
    (c : Channel) (s : Over.State V) (l : Locals V), F.Lawful → l.blk.form = .ferric → 0 ≤ l.blk.sat → l.blk.sat ≤ 1 →
    let r := F.run (.saturate c) s l
    let old := (s.dp.ch.get c).HYS
    let new := (r.1.dp.ch.get c).HYS
    |new - old| < (0.3 + 0.4 * l.blk.sat) / (1 + 3 * l.blk.sat) ∧ |new - old| < 0.3 ∧ r.2.x = 0.8 * new

/-- 42_filters.md R131: BQ's difference equation and history shift; nothing else changes. -/
def Obligations.BiquadIsTheDifferenceEquation : Prop :=
  ∀ (V : Type) [Field V] [LinearOrder V] [IsStrictOrderedRing V] [FloorRing V] (F : Fns V)
    (c : Channel) (s : Over.State V) (l : Locals V),
    let h := s.dp.ch.get c
    let k := s.dp.coef
    let y := k.B0 * l.x + k.B1 * h.X1 + k.B2 * h.X2 - k.A1 * h.Y1 - k.A2 * h.Y2
    F.run (.biquad c) s l =
      ({ s with dp := { s.dp with ch := s.dp.ch.set c { h with X1 := l.x, X2 := h.X1, Y1 := y, Y2 := h.Y1 } } },
        { l with x := y })

/-- 42_filters.md R132: with B0 = 1, B1 = A1, B2 = A2 and matching history BQ returns its input and keeps the history
matching. -/
def Obligations.FlatBiquadPassesThrough : Prop :=
  ∀ (V : Type) [Field V] [LinearOrder V] [IsStrictOrderedRing V] [FloorRing V] (F : Fns V)
    (c : Channel) (s : Over.State V) (l : Locals V),
    let k := s.dp.coef
    let h := s.dp.ch.get c
    let r := F.run (.biquad c) s l
    k.B0 = 1 → k.B1 = k.A1 → k.B2 = k.A2 → h.X1 = h.Y1 → h.X2 = h.Y2 →
      r.2.x = l.x ∧ (r.1.dp.ch.get c).X1 = (r.1.dp.ch.get c).Y1 ∧ (r.1.dp.ch.get c).X2 = (r.1.dp.ch.get c).Y2

/-- 42_filters.md R133: LP1's recurrence, its frame, that no enable skips it, and that LPC = 1 passes the input. That
for LPC in (0, 1] the output lies between the old state and the input is marked derived in that rule. -/
def Obligations.LowpassIsAConvexStep : Prop :=
  ∀ (V : Type) [Field V] [LinearOrder V] [IsStrictOrderedRing V] [FloorRing V] (F : Fns V)
    (c : Channel) (s : Over.State V) (l : Locals V),
    let old := (s.dp.ch.get c).LPS
    let k := s.dp.coef.LPC.get c
    let y := old + k * (l.x - old)
    F.run (.lowpass c) s l =
      ({ s with dp := { s.dp with ch := s.dp.ch.set c { s.dp.ch.get c with LPS := y } } }, { l with x := y }) ∧
    (0 < k → k ≤ 1 → min old l.x ≤ y ∧ y ≤ max old l.x ∧ |y| ≤ max |old| |l.x|) ∧ (k = 1 → y = l.x) ∧
    ∀ (b : BlockLocals V) n, MicroOp.lowpass c ∈ channelOps b n c

/-- R141: LFO.ADV takes each phase to the fractional part of phase plus increment, for every increment; so the phases
stay in [0, 1), and for an increment below 1 the wrap is one subtraction. Nothing else changes. -/
def Obligations.PhasesWrapAtOne : Prop :=
  ∀ (V : Type) [Field V] [LinearOrder V] [IsStrictOrderedRing V] [FloorRing V] (F : Fns V)
    (s : Over.State V) (l : Locals V),
    let o := s.dp.osc
    let w := o.WPH + s.dp.coef.WINC
    let f := o.FPH + s.dp.coef.FINC
    let w' := w - ⌊w⌋
    let f' := f - ⌊f⌋
    F.run .lfoAdv s l = ({ s with dp := { s.dp with osc := { o with WPH := w', FPH := f' } } }, l) ∧
    0 ≤ w' ∧ w' < 1 ∧ 0 ≤ f' ∧ f' < 1 ∧
    (0 ≤ o.WPH → o.WPH < 1 → 0 ≤ s.dp.coef.WINC → s.dp.coef.WINC < 1 → w' = if 1 ≤ w then w - 1 else w) ∧
    (0 ≤ o.FPH → o.FPH < 1 → 0 ≤ s.dp.coef.FINC → s.dp.coef.FINC < 1 → f' = if 1 ≤ f then f - 1 else f)

/-- R142: LFO.RND's counter, and in the frame that brings it to 1000 the two draws, wow first; offsets in [-1, 1] stay
there. -/
def Obligations.OffsetsUpdateEveryThousandthFrame : Prop :=
  ∀ (V : Type) [Field V] [LinearOrder V] [IsStrictOrderedRing V] [FloorRing V] (F : Fns V)
    (s : Over.State V) (l : Locals V),
    let o := s.dp.osc
    let r := Prng.advance s.dp.RNG
    let t := (F.run .lfoRnd s l).1
    (o.MODCNT < 999 →
      F.run .lfoRnd s l = ({ s with dp := { s.dp with osc := { o with MODCNT := o.MODCNT + 1 } } }, l)) ∧
    (o.MODCNT = 999 →
      F.run .lfoRnd s l = ({ s with dp := { s.dp with
        RNG := Prng.advance r
        osc := { o with
          MODCNT := 0
          WRO := 0.99 * o.WRO + 0.01 * F.draw s.dp.RNG
          FRO := 0.99 * o.FRO + 0.01 * F.draw r } } }, l)) ∧
    (|o.WRO| ≤ 1 → |o.FRO| ≤ 1 → |t.dp.osc.WRO| ≤ 1 ∧ |t.dp.osc.FRO| ≤ 1)

/-- R143, R144: LFO.MOD's modulation sum and the delay in samples, clamped to [1, L - 2]. The sum is at most
(2 wowD + 2 flutD) (1 + age / 2) in magnitude, so at most 6, for offsets in [-1, 1] and depths in [0, 1]; it is 0 at
zero phases. -/
def Obligations.DelayFollowsTheModulationSum : Prop :=
  ∀ (V : Type) [Field V] [LinearOrder V] [IsStrictOrderedRing V] [FloorRing V] (F : Fns V)
    (s : Over.State V) (l : Locals V),
    let b := l.blk
    let o := s.dp.osc
    let wowMod := b.wowD * (F.sin (2 * F.pi * o.WPH) + o.WRO * F.sin (1.7 * (2 * F.pi) * o.WPH))
    let flutMod := b.flutD * (F.sin (2 * F.pi * o.FPH) + o.FRO * F.sin (2.3 * (2 * F.pi) * o.FPH))
    let tot := (wowMod + flutMod) * (1 + 0.5 * b.age)
    let ds := (10 + s.cfg.kModMs * tot) * s.dp.FS / 1000
    let len : V := s.dp.L
    F.run .lfoMod s l = (s, { l with ds := if ds < 1 then 1 else if len - 2 < ds then len - 2 else ds }) ∧
    (F.Lawful → |o.WRO| ≤ 1 → |o.FRO| ≤ 1 → 0 ≤ b.wowD → b.wowD ≤ 1 → 0 ≤ b.flutD → b.flutD ≤ 1 → 0 ≤ b.age →
      b.age ≤ 1 → |tot| ≤ (2 * b.wowD + 2 * b.flutD) * (1 + b.age / 2) ∧ |tot| ≤ 6) ∧
    (F.Lawful → o.WPH = 0 → o.FPH = 0 → tot = 0)

/-- 43_pitch_modulation.md R149, R150, 20_memory.md R67, R68: every index is inside the buffer for every `ds`; with the
clamped `ds` both taps are among the L - 1 most recent slots and none is ahead of the cursor: the older tap is not the
cursor's slot, and the newer is only for a delay of exactly 1, with weight 0. A slot's distance is counted back from
the cursor round the buffer. -/
def Obligations.DelayTapsStayBehindTheCursor : Prop :=
  ∀ (V : Type) [Field V] [LinearOrder V] [IsStrictOrderedRing V] [FloorRing V] (F : Fns V)
    (WCUR len : Nat), 0 < len →
    (∀ ds : V,
      (F.delayTaps WCUR len ds).1 < len ∧ (F.delayTaps WCUR len ds).2.1 < len ∧
      0 ≤ (F.delayTaps WCUR len ds).2.2 ∧ (F.delayTaps WCUR len ds).2.2 < 1) ∧
    (∀ (c : Cfg V) (fs tot : V), 4 ≤ len → WCUR < len →
      let ds := F.delaySamples c fs len tot
      let i0 := (F.delayTaps WCUR len ds).1
      let i1 := (F.delayTaps WCUR len ds).2.1
      1 ≤ ds ∧ ds ≤ (len : V) - 2 ∧
      1 ≤ (WCUR + len - i0) % len ∧ (WCUR + len - i0) % len ≤ len - 2 ∧ (WCUR + len - i1) % len ≤ len - 2 ∧
      i0 ≠ WCUR ∧ (i1 = WCUR → ds = 1 ∧ (F.delayTaps WCUR len ds).2.2 = 0))

/-- R145, R146, R147: DLY.WR writes one cell of D, DLY.RD interpolates between two, DLY.ADV moves the cursor; each
changes nothing else. A whole delay of m frames reads the cell m slots behind the cursor. -/
def Obligations.DelayLineWritesReadsAndAdvances : Prop :=
  ∀ (V : Type) [Field V] [LinearOrder V] [IsStrictOrderedRing V] [FloorRing V] (F : Fns V)
    (c : Channel) (s : Over.State V) (l : Locals V), 0 < s.dp.L → s.dp.osc.WCUR < s.dp.L →
    Memory.wf (some 0) (s.dp.ch.get c).D = true →
    (let r := F.run (.dlyWr c) s l
     r.2 = l ∧ delayCell r.1.dp c s.dp.osc.WCUR = l.x ∧
     (∀ e i, (e, i) ≠ (c, s.dp.osc.WCUR) → delayCell r.1.dp e i = delayCell s.dp e i) ∧
     r.1 = { s with dp := { s.dp with
       ch := s.dp.ch.set c { s.dp.ch.get c with D := (r.1.dp.ch.get c).D } } }) ∧
    (let rp := (s.dp.osc.WCUR : V) - l.ds
     let fl : Int := ⌊rp⌋
     let fr := rp - fl
     let i0 := (fl % s.dp.L).toNat
     let i1 := (i0 + 1) % s.dp.L
     F.run (.dlyRd c) s l =
       (s, { l with x := delayCell s.dp c i0 * (1 - fr) + delayCell s.dp c i1 * fr })) ∧
    (∀ m : Nat, m ≤ s.dp.L → l.ds = m →
      F.run (.dlyRd c) s l =
        (s, { l with x := delayCell s.dp c ((s.dp.osc.WCUR + s.dp.L - m) % s.dp.L) })) ∧
    F.run .dlyAdv s l =
      ({ s with dp := { s.dp with osc := { s.dp.osc with WCUR := (s.dp.osc.WCUR + 1) % s.dp.L } } }, l)

/-- R164: NOISE gives the frame's noise pair from two draws, bounded by K_TILT times the level; the draws are the only
change of the state. -/
def Obligations.NoiseIsTwoScaledDraws : Prop :=
  ∀ (V : Type) [Field V] [LinearOrder V] [IsStrictOrderedRing V] [FloorRing V] (F : Fns V)
    (s : Over.State V) (l : Locals V),
    let r := Prng.advance s.dp.RNG
    let n1 := F.draw s.dp.RNG
    let n2 := F.draw r
    let k := s.cfg.kTilt
    let nl := l.blk.nl
    let left := n1 * k * nl
    let right := 0.9 * left + 0.1 * (n2 * k * nl)
    F.run .noise s l = ({ s with dp := { s.dp with RNG := Prng.advance r } }, { l with nz := ⟨left, right⟩ }) ∧
    (0 ≤ k → 0 ≤ nl → |left| ≤ k * nl ∧ |right| ≤ k * nl)

/-- 44_noise.md R162: after a PRBS31 draw the low 16 bits of the register are the drawn integer. -/
def Obligations.DrawnBitsStandInTheRegister : Prop :=
  ∀ r : BitVec 31, (Prng.draw16 r).2 = (Prng.draw16 r).1.toNat % 65536

/-- R104: MAP.HB, with the variant tables of R103 written out. -/
def Obligations.HeadBumpFollowsThePeakingFormula : Prop :=
  ∀ (V : Type) [Field V] [LinearOrder V] [IsStrictOrderedRing V] [FloorRing V] (F : Fns V)
    (s : Over.State V) (l : Locals V),
    let p := s.dp.S
    let speedMult : V := match p.speed with | .slow => 0.7 | .medium => 1.0 | .fast => 1.5
    let formGain : V := match p.form with | .ferric => 1.2 | .chrome => 0.9 | .modern => 0.7
    let f := p.hbfreq * speedMult
    let f0 := if f < 30 then 30 else if 200 < f then 200 else f
    let gdb := p.hbamt / 100 * 6 * formGain
    let A := F.pow10 (gdb / 40)
    let w0 := 2 * F.pi * f0 / s.dp.FS
    let alpha := F.sin w0 / (2 * 1.5)
    let cosw := F.cos w0
    let a0 := 1 + alpha / A
    F.run .mapHB s l = ({ s with dp := { s.dp with coef :=
      if s.dp.FS ≤ 0 then { s.dp.coef with B0 := 1, B1 := 0, B2 := 0, A1 := 0, A2 := 0 }
      else { s.dp.coef with
        B0 := (1 + alpha * A) / a0
        B1 := -2 * cosw / a0
        B2 := (1 - alpha * A) / a0
        A1 := -2 * cosw / a0
        A2 := (1 - alpha / A) / a0 } } }, l)

/-- 40_coefficient_mapper.md R105 (a), (c): at a head-bump amount of 0 the coefficients are the pass-through ones, and
for every amount from 0 up the divisor a0 = 1 + alpha / A of R104 is in [2/3, 4/3]. -/
def Obligations.HeadBumpAtZeroIsFlat : Prop :=
  ∀ (V : Type) [Field V] [LinearOrder V] [IsStrictOrderedRing V] [FloorRing V] (F : Fns V)
    (s : Over.State V) (l : Locals V), F.Lawful → 0 < s.dp.FS → 0 ≤ s.dp.S.hbamt →
    let k := (F.run .mapHB s l).1.dp.coef
    let p := s.dp.S
    let formGain : V := match p.form with | .ferric => 1.2 | .chrome => 0.9 | .modern => 0.7
    let A := F.pow10 (p.hbamt / 100 * 6 * formGain / 40)
    (p.hbamt = 0 → k.B0 = 1 ∧ k.B1 = k.A1 ∧ k.B2 = k.A2) ∧
    (∀ w0, 2 / 3 ≤ 1 + F.sin w0 / (2 * 1.5) / A ∧ 1 + F.sin w0 / (2 * 1.5) / A ≤ 4 / 3)

/-- 40_coefficient_mapper.md R106: MAP.LP, with the variant tables of R103 written out. That with the snapshot in its
domains the unclamped cutoff is in [3570, 19800], so that the clamp never acts, and that for FS > 0 the coefficient is
strictly between 0 and 1, are marked derived in that rule. -/
def Obligations.LowpassCoefficientFollowsTheCutoff : Prop :=
  ∀ (V : Type) [Field V] [LinearOrder V] [IsStrictOrderedRing V] [FloorRing V] (F : Fns V)
    (s : Over.State V) (l : Locals V),
    let p := s.dp.S
    let baseCut : V := match p.speed with | .slow => 10000 | .medium => 15000 | .fast => 18000
    let formMult : V := match p.form with | .ferric => 0.85 | .chrome => 1.0 | .modern => 1.1
    let product := baseCut * formMult * (1 - p.warmth / 100 * 0.4) * (1 - p.age / 100 * 0.3)
    let cut := if product < 2000 then 2000 else if 20000 < product then 20000 else product
    let w := 2 * F.pi * cut / s.dp.FS
    let k := if s.dp.FS ≤ 0 then 1 else w / (1 + w)
    F.run .mapLP s l = ({ s with dp := { s.dp with coef := { s.dp.coef with LPC := ⟨k, k⟩ } } }, l) ∧
    (p.InDomain → 3570 ≤ product ∧ product ≤ 19800) ∧ (F.Lawful → 0 < s.dp.FS → 0 < k ∧ k < 1)

/-- R107: MAP.LFO: four draws in order, the two rates and the increments they give, whatever the guard; the wow rate is
in [0, 1.5) Hz and the flutter rate in [5, 20) Hz. -/
def Obligations.OscillatorRatesAreDrawnInRange : Prop :=
  ∀ (V : Type) [Field V] [LinearOrder V] [IsStrictOrderedRing V] [FloorRing V] (F : Fns V)
    (s : Over.State V) (l : Locals V),
    let r1 := Prng.advance s.dp.RNG
    let r2 := Prng.advance r1
    let r3 := Prng.advance r2
    let u1 := (F.draw s.dp.RNG + 1) / 2
    let u2 := (F.draw r1 + 1) / 2
    let u3 := (F.draw r2 + 1) / 2
    let u4 := (F.draw r3 + 1) / 2
    let wowRate := (0.5 + 0.5 * u1) + (-0.5 + 1.0 * u2)
    let flutterRate := (10 + 5 * u3) + (-5 + 10 * u4)
    F.run .mapLFO s l = ({ s with dp := { s.dp with
      RNG := Prng.advance r3
      coef := { s.dp.coef with
        WINC := if s.dp.FS ≤ 0 then 0 else wowRate / s.dp.FS
        FINC := if s.dp.FS ≤ 0 then 0 else flutterRate / s.dp.FS } } }, l) ∧
    0 ≤ wowRate ∧ wowRate < 1.5 ∧ 5 ≤ flutterRate ∧ flutterRate < 20

/-- R165, R180 to R182: NOISE.ADD, GAIN.IN, GAIN.OUT and MIX; a MIX of 0 writes the dry sample, of 1 the wet one; each
changes only its own cell or sample. -/
def Obligations.GainsAndMixAreTheFormulas : Prop :=
  ∀ (V : Type) [Field V] [LinearOrder V] [IsStrictOrderedRing V] [FloorRing V] (F : Fns V)
    (n : Nat) (c : Channel) (s : Over.State V) (l : Locals V) (v : V), bufRead s.dp c n = some v →
    F.run (.gainIn n c) s l = (s, { l with dry := v, x := v * l.blk.gIn }) ∧
    F.run (.noiseAdd c) s l = (s, { l with x := l.x + l.nz.get c }) ∧
    F.run .gainOut s l = (s, { l with x := l.x * l.blk.gOut }) ∧
    (let r := F.run (.mix n c) s l
     r.2 = l ∧ r.1 = { s with dp := { s.dp with BUF := r.1.dp.BUF } } ∧
     bufRead r.1.dp c n = some (l.dry * (1 - l.blk.mix) + l.x * l.blk.mix) ∧
     (l.blk.mix = 0 → bufRead r.1.dp c n = some l.dry) ∧ (l.blk.mix = 1 → bufRead r.1.dp c n = some l.x) ∧
     ∀ e m, (e, m) ≠ (c, n) → bufRead r.1.dp e m = bufRead s.dp e m)

/-! ## The invariant -/

/-- The power-on state meets the invariant (10_state.md R31, R59), over the rationals and over the reals. -/
def Obligations.PowerOnMeetsTheInvariant : Prop := State.reset.Inv ∧ realReset.Shaped ∧ realReset.InRange

/-- Every step keeps the invariant. In every numeric domain: sizes consistent, counter and cursor in their ranges, the
generator not locked, BUF and D canonical and in range, ERR a code, BUSY 0 between commands. In exact arithmetic, over
the rationals and over the reals of NUM_REAL: parameters and snapshot in their domains, coefficients, phases and offsets
in their ranges, telemetry not negative (10_state.md R31, R38 to R56). -/
def Obligations.EveryStepKeepsTheInvariant : Prop :=
  (∀ s t : State, s.Inv → step s = .next t → t.Inv) ∧
  (∀ s t : Over.State ℝ, s.Shaped → s.InRange → realStep s = .next t → t.Shaped ∧ t.InRange)
end

