-- ==== Sys2Proof/Laws/Numeric.lean ====
section
/-! SUPPORT. The operations of an exact domain as the field's and the order's own, the primitives of Machine/Basics.lean
as order facts, and the named properties of the functions (00_scope.md R12). -/

namespace Sys2Proof.Laws

section
variable {V : Type} [Field V] [LinearOrder V] [FloorRing V] (F : Fns V)

/-! An exact domain -/

@[simp] theorem lit_exact (q : ℚ) : (NUM.exact F).lit q = (q : V) := rfl
@[simp] theorem lt_exact (x y : V) : (NUM.exact F).lt x y = decide (x < y) := rfl
@[simp] theorem le_exact (x y : V) : (NUM.exact F).le x y = decide (x ≤ y) := rfl
@[simp] theorem abs_exact (x : V) : (NUM.exact F).abs x = |x| := rfl
@[simp] theorem max_exact (x y : V) : (NUM.exact F).max x y = max x y := rfl
@[simp] theorem floor_exact (x : V) : (NUM.exact F).floor x = ⌊x⌋ := rfl
@[simp] theorem sin_exact (x : V) : (NUM.exact F).sin x = F.sin x := rfl
@[simp] theorem cos_exact (x : V) : (NUM.exact F).cos x = F.cos x := rfl
@[simp] theorem tanh_exact (x : V) : (NUM.exact F).tanh x = F.tanh x := rfl
@[simp] theorem pow10_exact (x : V) : (NUM.exact F).pow10 x = F.pow10 x := rfl
@[simp] theorem pi_exact : (NUM.exact F).pi = F.pi := rfl

@[simp] theorem ofInt_exact (z : Int) : letI := NUM.exact F; (ofInt z : V) = (z : V) := by simp [ofInt]

theorem clamp_exact (x lo hi : V) : letI := NUM.exact F; clamp x lo hi = if x < lo then lo else if hi < x then hi else x := by
  simp [clamp]

theorem clamp_mem (x : V) {lo hi : V} (h : lo ≤ hi) : letI := NUM.exact F; lo ≤ clamp x lo hi ∧ clamp x lo hi ≤ hi := by
  rw [clamp_exact]
  split
  · exact ⟨le_rfl, h⟩
  · split
    · exact ⟨h, le_rfl⟩
    · exact ⟨not_lt.mp ‹_›, not_lt.mp ‹_›⟩

theorem clamp_of_mem {x lo hi : V} (h₁ : lo ≤ x) (h₂ : x ≤ hi) : letI := NUM.exact F; clamp x lo hi = x := by
  rw [clamp_exact, if_neg (not_lt.mpr h₁), if_neg (not_lt.mpr h₂)]

theorem frac_exact (x : V) : letI := NUM.exact F; frac x = Int.fract x := by
  simp only [frac, floor_exact, ofInt_exact]
  rfl

variable [IsStrictOrderedRing V]

theorem frac_mem (x : V) : letI := NUM.exact F; 0 ≤ frac x ∧ frac x < 1 := by
  rw [frac_exact]
  exact ⟨Int.fract_nonneg x, Int.fract_lt_one x⟩

theorem ceil_exact (x : V) : letI := NUM.exact F; ceil x = ⌈x⌉ := by
  simp [ceil, Int.floor_neg]

end

theorem modNat_lt (a : Int) {m : Nat} (h : 0 < m) : modNat a m < m := by
  have h₀ := Int.emod_nonneg a (b := (m : Int)) (by omega)
  have h₁ := Int.emod_lt_of_pos a (b := (m : Int)) (by omega)
  unfold modNat; omega

/-! The domain that a configuration selects -/

/-- A configuration whose NUM is not `other` computes in exact arithmetic. -/
theorem numOf_eq_exact {c : Cfg ℚ} (h : c.num ≠ .other) : numOf c = NUM.exact (Fns.rational c) := by
  unfold numOf
  split
  · rfl
  · rfl
  · exact absurd ‹_› h

theorem numOf_eq_other {c : Cfg ℚ} (h : c.num = .other) : numOf c = NUM.other := by simp only [numOf, h]

/-- A constant is itself in every domain of the machine that runs. -/
@[simp] theorem lit_numOf (c : Cfg ℚ) (q : ℚ) : (numOf c).lit q = q := by
  by_cases h : c.num = .other
  · rw [numOf_eq_other h]
    rfl
  · rw [numOf_eq_exact h, lit_exact, Rat.cast_id]

theorem hold_mem (x : ℚ) : |Num.hold x| ≤ 1 := by
  rw [abs_le]
  exact ⟨le_max_left _ _, max_le (by norm_num) (min_le_right _ _)⟩

theorem pi_mem (k : NumSel) : 3 < Num.pi k ∧ Num.pi k < 4 := by
  have lit : 3 < Num.piLit ∧ Num.piLit < 4 := by unfold Num.piLit; norm_num
  unfold Num.pi
  split <;> assumption

theorem tanhPos_mem (k : NumSel) {x : ℚ} (h : 0 < x) : 0 < Num.tanhPos k x ∧ Num.tanhPos k x < 1 := by
  unfold Num.tanhPos
  split
  · assumption
  · exact ⟨by positivity, by rw [div_lt_one (by linarith)]; linarith⟩

theorem tanh_lt (k : NumSel) (x : ℚ) : |Num.tanh k x| < 1 := by
  unfold Num.tanh
  split
  · norm_num
  · split
    · obtain ⟨h₁, h₂⟩ := tanhPos_mem k (x := -x) (by linarith)
      rw [abs_neg, abs_of_pos h₁]; exact h₂
    · obtain ⟨h₁, h₂⟩ := tanhPos_mem k (lt_of_le_of_ne (not_lt.mp ‹_›) (Ne.symm ‹¬x = 0›))
      rw [abs_of_pos h₁]; exact h₂

theorem tanh_neg (k : NumSel) (x : ℚ) : Num.tanh k (-x) = -Num.tanh k x := by
  unfold Num.tanh
  rcases lt_trichotomy x 0 with h | rfl | h
  · simp [h, h.ne, h.le]
  · simp
  · simp [h, h.ne', h.le]

theorem tanh_pos (k : NumSel) {x : ℚ} (h : 0 < x) : 0 < Num.tanh k x := by
  unfold Num.tanh
  rw [if_neg h.ne', if_neg (not_lt.mpr h.le)]
  exact (tanhPos_mem k h).1

theorem one_le_pow10 (k : NumSel) {x : ℚ} (h : 0 ≤ x) : 1 ≤ Num.pow10 k x := by
  unfold Num.pow10
  split
  · exact le_rfl
  · rw [if_pos (lt_of_le_of_ne h (Ne.symm ‹_›))]; exact le_max_left _ _

theorem pow10_pos (k : NumSel) (x : ℚ) : 0 < Num.pow10 k x := by
  rcases le_or_gt 0 x with h | h
  · exact lt_of_lt_of_le one_pos (one_le_pow10 k h)
  · unfold Num.pow10
    rw [if_neg h.ne, if_neg (not_lt.mpr h.le)]
    split
    · exact (‹_ ∧ _›).1
    · norm_num

/-- The functions of the machine that runs have the named properties. -/
theorem rational_lawful (c : Cfg ℚ) : (Fns.rational c).Lawful where
  pi := pi_mem c.num
  sin_zero := by simp [Fns.rational, Num.sin]
  sin_le x := by
    show |Num.sin c.num x| ≤ 1
    unfold Num.sin
    split
    · norm_num
    · exact hold_mem _
  cos_zero := by simp [Fns.rational, Num.cos]
  cos_le x := by
    show |Num.cos c.num x| ≤ 1
    unfold Num.cos
    split
    · norm_num
    · exact hold_mem _
  tanh_neg := tanh_neg c.num
  tanh_pos _ := tanh_pos c.num
  tanh_lt := tanh_lt c.num
  pow10_zero := by simp [Fns.rational, Num.pow10]
  pow10_pos := pow10_pos c.num
  pow10_le _ := one_le_pow10 c.num

/-! The noise level -/

section
variable {V : Type} [Field V] [LinearOrder V] [FloorRing V] (F : Fns V)

theorem noise_zero (c : Cfg V) : letI := NUM.exact F; c.noise 0 = 0 := by
  unfold Cfg.noise
  split
  · exact zero_mul _
  · simp

theorem noise_nonneg [IsStrictOrderedRing V] (c : Cfg V) (hc : ∀ g, c.noiseLevel = .linear g → 0 ≤ g) {h : V} (hh : 0 ≤ h) :
    letI := NUM.exact F; 0 ≤ c.noise h := by
  unfold Cfg.noise
  split
  · exact mul_nonneg hh (hc _ ‹_›)
  · split
    · rename_i h; simp at h; exact h.2
    · simp

end

end Sys2Proof.Laws
end

