-- ==== Sys2Proof/Laws/Memory.lean ====
section
/-! SUPPORT. The laws of memory: read after write, writes elsewhere, and the canonical form every operation keeps. -/

namespace Sys2Proof.Laws

open Memory

variable {V : Type}

theorem read_of_lt {blank : Option V} {m : Mem V} {lo a : Nat} (h : rising lo m = true) (ha : a < lo) :
    Memory.read blank m a = blank := by
  cases m with
  | nil => rfl
  | cons e rest =>
    simp only [rising, Bool.and_eq_true, decide_eq_true_eq] at h
    simp [Memory.read, show a ≠ e.1 by omega, show a < e.1 by omega]

theorem rising_mono {lo lo' : Nat} {m : Mem V} (hl : lo' ≤ lo) (h : rising lo m = true) : rising lo' m = true := by
  cases m with
  | nil => rfl
  | cons e rest =>
    simp only [rising, Bool.and_eq_true, decide_eq_true_eq] at h ⊢
    exact ⟨by omega, h.2⟩

theorem rising_put {e : Option V} {m : Mem V} {lo a : Nat} (h : rising lo m = true) (ha : lo ≤ a) :
    rising lo (put e m a) = true := by
  induction m generalizing lo with
  | nil => cases e <;> simp [put, rising, ha]
  | cons x rest ih =>
    obtain ⟨k, w⟩ := x
    simp only [rising, Bool.and_eq_true, decide_eq_true_eq] at h
    unfold put
    split
    · subst a
      cases e with
      | none => exact rising_mono (by omega) h.2
      | some v => simp [rising, h.1, h.2]
    · split
      · cases e with
        | none => simp [rising, h.1, h.2]
        | some v => simp only [rising, Bool.and_eq_true, decide_eq_true_eq]; exact ⟨ha, by omega, h.2⟩
      · simp only [rising, Bool.and_eq_true, decide_eq_true_eq]
        exact ⟨h.1, ih h.2 (by omega)⟩

theorem all_put {e : Option V} {m : Mem V} {a : Nat} {p : Nat × V → Bool} (h : m.all p = true)
    (hv : ∀ v, e = some v → p (a, v) = true) : (put e m a).all p = true := by
  induction m with
  | nil => cases e with
    | none => rfl
    | some v => simp [put, hv v rfl]
  | cons x rest ih =>
    obtain ⟨k, w⟩ := x
    simp only [List.all_cons, Bool.and_eq_true] at h
    unfold put
    split
    · cases e with
      | none => exact h.2
      | some v => simp only [List.all_cons, hv v rfl, h.2, Bool.and_self]
    · split
      · cases e with
        | none => simp only [List.all_cons, h.1, h.2, Bool.and_self]
        | some v => simp only [List.all_cons, hv v rfl, h.1, h.2, Bool.and_self]
      · simp only [List.all_cons, h.1, ih h.2, Bool.and_self]

/-- A write keeps the canonical form. -/
theorem wf_write [DecidableEq V] {blank : Option V} {m : Mem V} (h : wf blank m = true) (a : Nat) (v : V) :
    wf blank (write blank m a v) = true := by
  simp only [wf, Bool.and_eq_true] at h ⊢
  refine ⟨rising_put h.1 (Nat.zero_le a), all_put h.2 ?_⟩
  intro u hu
  split at hu
  · cases hu
  · simp only [Option.some.injEq] at hu; subst hu; simpa using ‹_›

/-- A write inside the range keeps every index in it. -/
theorem below_write [DecidableEq V] {blank : Option V} {m : Mem V} {n a : Nat} (h : below n m = true) (ha : a < n) (v : V) :
    below n (write blank m a v) = true :=
  all_put h fun _ _ => by simpa using ha

@[simp] theorem wf_nil [DecidableEq V] (blank : Option V) : wf blank ([] : Mem V) = true := rfl

@[simp] theorem below_nil (n : Nat) : below n ([] : Mem V) = true := rfl

@[simp] theorem read_nil (blank : Option V) (a : Nat) : Memory.read blank [] a = blank := rfl

theorem read_put_same {blank : Option V} {m : Mem V} {lo : Nat} (h : rising lo m = true) (e : Option V) (a : Nat) :
    Memory.read blank (put e m a) a = e.or blank := by
  induction m generalizing lo with
  | nil => cases e <;> simp [put, Memory.read]
  | cons x rest ih =>
    obtain ⟨k, w⟩ := x
    simp only [rising, Bool.and_eq_true, decide_eq_true_eq] at h
    unfold put
    split
    · subst a
      cases e with
      | none => simpa using read_of_lt h.2 (Nat.lt_succ_self k)
      | some v => simp [Memory.read]
    · split
      · cases e <;> simp [Memory.read, *]
      · simp only [Memory.read, if_neg ‹¬a = k›, if_neg ‹¬a < k›]
        exact ih h.2

/-- A cell reads as what was last written to it. -/
theorem read_write_same [DecidableEq V] {blank : Option V} {m : Mem V} (h : wf blank m = true) (a : Nat) (v : V) :
    Memory.read blank (write blank m a v) a = some v := by
  simp only [wf, Bool.and_eq_true] at h
  rw [write, read_put_same h.1]
  split <;> simp [*]

theorem read_put_other {blank : Option V} {m : Mem V} {lo : Nat} (h : rising lo m = true) (e : Option V) {a b : Nat}
    (hb : b ≠ a) : Memory.read blank (put e m a) b = Memory.read blank m b := by
  induction m generalizing lo with
  | nil =>
    cases e with
    | none => rfl
    | some v => simp [put, Memory.read, hb]
  | cons x rest ih =>
    obtain ⟨k, w⟩ := x
    simp only [rising, Bool.and_eq_true, decide_eq_true_eq] at h
    unfold put
    split
    · subst a
      cases e with
      | none =>
        simp only [Memory.read, if_neg hb]
        split
        · exact read_of_lt h.2 (by omega)
        · rfl
      | some v => simp [Memory.read, hb]
    · split
      · cases e with
        | none => rfl
        | some v =>
          simp only [Memory.read, if_neg hb]
          split
          · rw [if_neg (by omega), if_pos (by omega)]
          · rfl
      · simp only [Memory.read]
        split
        · rfl
        · split
          · rfl
          · exact ih h.2

/-- A write of a value that is not the blank one leaves every other cell alone, in canonical form or not. -/
theorem read_insert_other (blank : Option V) (m : Mem V) {a b : Nat} (hb : b ≠ a) (v : V) :
    Memory.read blank (put (some v) m a) b = Memory.read blank m b := by
  induction m with
  | nil => simp only [put, Memory.read, if_neg hb, ite_self]
  | cons x rest ih =>
    obtain ⟨k, w⟩ := x
    unfold put
    split
    · subst a
      simp only [Memory.read, if_neg hb]
    · split
      · simp only [Memory.read, if_neg hb]
        split
        · rw [if_neg (by omega), if_pos (by omega)]
        · rfl
      · simp only [Memory.read, ih]

/-- A write of a value that is not the blank one is read back, in canonical form or not. -/
theorem read_insert_same (blank : Option V) (m : Mem V) (a : Nat) (v : V) :
    Memory.read blank (put (some v) m a) a = some v := by
  induction m with
  | nil => simp [put, Memory.read]
  | cons x rest ih =>
    obtain ⟨k, w⟩ := x
    unfold put
    split
    · simp [Memory.read]
    · split
      · simp [Memory.read]
      · simpa only [Memory.read, if_neg ‹¬a = k›, if_neg ‹¬a < k›] using ih

/-- A write leaves every other cell alone. -/
theorem read_write_other [DecidableEq V] {blank : Option V} {m : Mem V} (h : wf blank m = true) {a b : Nat} (hb : b ≠ a) (v : V) :
    Memory.read blank (write blank m a v) b = Memory.read blank m b := by
  simp only [wf, Bool.and_eq_true] at h
  exact read_put_other h.1 _ hb

/-- No cell at or past the range is listed. -/
theorem read_of_below {blank : Option V} {m : Mem V} {n a : Nat} (h : below n m = true) (ha : n ≤ a) :
    Memory.read blank m a = blank := by
  induction m with
  | nil => rfl
  | cons x rest ih =>
    simp only [below, List.all_cons, Bool.and_eq_true, decide_eq_true_eq] at h
    simp only [Memory.read, show a ≠ x.1 by omega, show ¬a < x.1 by omega, if_false]
    exact ih h.2

end Sys2Proof.Laws
end

