-- ==== Sys2Proof/Laws/State.lean ====
section
/-! SUPPORT. One lemma for each field and each named update of State, Datapath and ParamFile, so that no later proof
unfolds an update. -/

namespace Sys2Proof.Machine

section
variable {V : Type} (s : Over.State V) (d : Datapath V) (p : ParamFile V)

/-! respond -/

@[simp] theorem respond_cfg (v : Word32) : (respond v s).cfg = s.cfg := rfl
@[simp] theorem respond_P (v : Word32) : (respond v s).P = s.P := rfl
@[simp] theorem respond_PREPARED (v : Word32) : (respond v s).PREPARED = s.PREPARED := rfl
@[simp] theorem respond_DIRTY (v : Word32) : (respond v s).DIRTY = s.DIRTY := rfl
@[simp] theorem respond_BUSY (v : Word32) : (respond v s).BUSY = s.BUSY := rfl
@[simp] theorem respond_ERR (v : Word32) : (respond v s).ERR = s.ERR := rfl
@[simp] theorem respond_PEAK_IN (v : Word32) : (respond v s).PEAK_IN = s.PEAK_IN := rfl
@[simp] theorem respond_PEAK_OUT (v : Word32) : (respond v s).PEAK_OUT = s.PEAK_OUT := rfl
@[simp] theorem respond_dp (v : Word32) : (respond v s).dp = s.dp := rfl
@[simp] theorem respond_inputs (v : Word32) : (respond v s).inputs = s.inputs := rfl
@[simp] theorem respond_arrivals (v : Word32) : (respond v s).arrivals = s.arrivals := rfl
@[simp] theorem respond_out (v : Word32) : (respond v s).out = Output.response ⟨0, v, none⟩ :: s.out := rfl

/-! raise -/

@[simp] theorem raise_cfg (e : ErrCode) (i : Option (Nat × Nat)) : (raise e i s).cfg = s.cfg := rfl
@[simp] theorem raise_P (e : ErrCode) (i : Option (Nat × Nat)) : (raise e i s).P = s.P := rfl
@[simp] theorem raise_PREPARED (e : ErrCode) (i : Option (Nat × Nat)) : (raise e i s).PREPARED = s.PREPARED := rfl
@[simp] theorem raise_DIRTY (e : ErrCode) (i : Option (Nat × Nat)) : (raise e i s).DIRTY = s.DIRTY := rfl
@[simp] theorem raise_BUSY (e : ErrCode) (i : Option (Nat × Nat)) : (raise e i s).BUSY = s.BUSY := rfl
@[simp] theorem raise_ERR (e : ErrCode) (i : Option (Nat × Nat)) : (raise e i s).ERR = stickyErr s.ERR e := rfl
@[simp] theorem raise_PEAK_IN (e : ErrCode) (i : Option (Nat × Nat)) : (raise e i s).PEAK_IN = s.PEAK_IN := rfl
@[simp] theorem raise_PEAK_OUT (e : ErrCode) (i : Option (Nat × Nat)) : (raise e i s).PEAK_OUT = s.PEAK_OUT := rfl
@[simp] theorem raise_dp (e : ErrCode) (i : Option (Nat × Nat)) : (raise e i s).dp = s.dp := rfl
@[simp] theorem raise_inputs (e : ErrCode) (i : Option (Nat × Nat)) : (raise e i s).inputs = s.inputs := rfl
@[simp] theorem raise_arrivals (e : ErrCode) (i : Option (Nat × Nat)) : (raise e i s).arrivals = s.arrivals := rfl
@[simp] theorem raise_out (e : ErrCode) (i : Option (Nat × Nat)) : (raise e i s).out = Output.response ⟨errCode e, 0, i⟩ :: s.out := rfl

/-! release -/

@[simp] theorem release_cfg : (release s).cfg = s.cfg := rfl
@[simp] theorem release_P : (release s).P = s.P := rfl
@[simp] theorem release_PREPARED : (release s).PREPARED = s.PREPARED := rfl
@[simp] theorem release_DIRTY : (release s).DIRTY = s.DIRTY := rfl
@[simp] theorem release_BUSY : (release s).BUSY = false := rfl
@[simp] theorem release_ERR : (release s).ERR = s.ERR := rfl
@[simp] theorem release_PEAK_IN : (release s).PEAK_IN = s.PEAK_IN := rfl
@[simp] theorem release_PEAK_OUT : (release s).PEAK_OUT = s.PEAK_OUT := rfl
@[simp] theorem release_dp : (release s).dp = { s.dp with SEQ := none } := rfl
@[simp] theorem release_inputs : (release s).inputs = s.inputs := rfl
@[simp] theorem release_arrivals : (release s).arrivals = s.arrivals := rfl
@[simp] theorem release_out : (release s).out = s.out := rfl

/-! onDatapath -/

@[simp] theorem onDatapath_cfg (f : Datapath V → Datapath V) : (onDatapath f s).cfg = s.cfg := rfl
@[simp] theorem onDatapath_P (f : Datapath V → Datapath V) : (onDatapath f s).P = s.P := rfl
@[simp] theorem onDatapath_PREPARED (f : Datapath V → Datapath V) : (onDatapath f s).PREPARED = s.PREPARED := rfl
@[simp] theorem onDatapath_DIRTY (f : Datapath V → Datapath V) : (onDatapath f s).DIRTY = s.DIRTY := rfl
@[simp] theorem onDatapath_BUSY (f : Datapath V → Datapath V) : (onDatapath f s).BUSY = s.BUSY := rfl
@[simp] theorem onDatapath_ERR (f : Datapath V → Datapath V) : (onDatapath f s).ERR = s.ERR := rfl
@[simp] theorem onDatapath_PEAK_IN (f : Datapath V → Datapath V) : (onDatapath f s).PEAK_IN = s.PEAK_IN := rfl
@[simp] theorem onDatapath_PEAK_OUT (f : Datapath V → Datapath V) : (onDatapath f s).PEAK_OUT = s.PEAK_OUT := rfl
@[simp] theorem onDatapath_dp (f : Datapath V → Datapath V) : (onDatapath f s).dp = f s.dp := rfl
@[simp] theorem onDatapath_inputs (f : Datapath V → Datapath V) : (onDatapath f s).inputs = s.inputs := rfl
@[simp] theorem onDatapath_arrivals (f : Datapath V → Datapath V) : (onDatapath f s).arrivals = s.arrivals := rfl
@[simp] theorem onDatapath_out (f : Datapath V → Datapath V) : (onDatapath f s).out = s.out := rfl

/-! setChan -/

@[simp] theorem setChan_S (c : Channel) (x : Chan V) : (setChan c x d).S = d.S := rfl
@[simp] theorem setChan_FS (c : Channel) (x : Chan V) : (setChan c x d).FS = d.FS := rfl
@[simp] theorem setChan_BLKSZ (c : Channel) (x : Chan V) : (setChan c x d).BLKSZ = d.BLKSZ := rfl
@[simp] theorem setChan_L (c : Channel) (x : Chan V) : (setChan c x d).L = d.L := rfl
@[simp] theorem setChan_coef (c : Channel) (x : Chan V) : (setChan c x d).coef = d.coef := rfl
@[simp] theorem setChan_ch (c : Channel) (x : Chan V) : (setChan c x d).ch = d.ch.set c x := rfl
@[simp] theorem setChan_osc (c : Channel) (x : Chan V) : (setChan c x d).osc = d.osc := rfl
@[simp] theorem setChan_RNG (c : Channel) (x : Chan V) : (setChan c x d).RNG = d.RNG := rfl
@[simp] theorem setChan_BUF (c : Channel) (x : Chan V) : (setChan c x d).BUF = d.BUF := rfl
@[simp] theorem setChan_SEQ (c : Channel) (x : Chan V) : (setChan c x d).SEQ = d.SEQ := rfl

section
variable [DecidableEq V]

/-! bufWrite -/

@[simp] theorem bufWrite_S (c : Channel) (n : Nat) (v : V) : (bufWrite c n v d).S = d.S := rfl
@[simp] theorem bufWrite_FS (c : Channel) (n : Nat) (v : V) : (bufWrite c n v d).FS = d.FS := rfl
@[simp] theorem bufWrite_BLKSZ (c : Channel) (n : Nat) (v : V) : (bufWrite c n v d).BLKSZ = d.BLKSZ := rfl
@[simp] theorem bufWrite_L (c : Channel) (n : Nat) (v : V) : (bufWrite c n v d).L = d.L := rfl
@[simp] theorem bufWrite_coef (c : Channel) (n : Nat) (v : V) : (bufWrite c n v d).coef = d.coef := rfl
@[simp] theorem bufWrite_ch (c : Channel) (n : Nat) (v : V) : (bufWrite c n v d).ch = d.ch := rfl
@[simp] theorem bufWrite_osc (c : Channel) (n : Nat) (v : V) : (bufWrite c n v d).osc = d.osc := rfl
@[simp] theorem bufWrite_RNG (c : Channel) (n : Nat) (v : V) : (bufWrite c n v d).RNG = d.RNG := rfl
@[simp] theorem bufWrite_BUF (c : Channel) (n : Nat) (v : V) : (bufWrite c n v d).BUF = d.BUF.set c (Memory.write none (d.BUF.get c) n v) := rfl
@[simp] theorem bufWrite_SEQ (c : Channel) (n : Nat) (v : V) : (bufWrite c n v d).SEQ = d.SEQ := rfl

variable [NUM V]

/-! delayWrite -/

@[simp] theorem delayWrite_S (c : Channel) (i : Nat) (v : V) : (delayWrite c i v d).S = d.S := rfl
@[simp] theorem delayWrite_FS (c : Channel) (i : Nat) (v : V) : (delayWrite c i v d).FS = d.FS := rfl
@[simp] theorem delayWrite_BLKSZ (c : Channel) (i : Nat) (v : V) : (delayWrite c i v d).BLKSZ = d.BLKSZ := rfl
@[simp] theorem delayWrite_L (c : Channel) (i : Nat) (v : V) : (delayWrite c i v d).L = d.L := rfl
@[simp] theorem delayWrite_coef (c : Channel) (i : Nat) (v : V) : (delayWrite c i v d).coef = d.coef := rfl
@[simp] theorem delayWrite_ch (c : Channel) (i : Nat) (v : V) : (delayWrite c i v d).ch = d.ch.set c { d.ch.get c with D := Memory.write (some (NUM.lit 0)) (d.ch.get c).D i v } := rfl
@[simp] theorem delayWrite_osc (c : Channel) (i : Nat) (v : V) : (delayWrite c i v d).osc = d.osc := rfl
@[simp] theorem delayWrite_RNG (c : Channel) (i : Nat) (v : V) : (delayWrite c i v d).RNG = d.RNG := rfl
@[simp] theorem delayWrite_BUF (c : Channel) (i : Nat) (v : V) : (delayWrite c i v d).BUF = d.BUF := rfl
@[simp] theorem delayWrite_SEQ (c : Channel) (i : Nat) (v : V) : (delayWrite c i v d).SEQ = d.SEQ := rfl

end

section
variable [NUM V]

/-! draw -/

@[simp] theorem draw_S : (draw d).1.S = d.S := rfl
@[simp] theorem draw_FS : (draw d).1.FS = d.FS := rfl
@[simp] theorem draw_BLKSZ : (draw d).1.BLKSZ = d.BLKSZ := rfl
@[simp] theorem draw_L : (draw d).1.L = d.L := rfl
@[simp] theorem draw_coef : (draw d).1.coef = d.coef := rfl
@[simp] theorem draw_ch : (draw d).1.ch = d.ch := rfl
@[simp] theorem draw_osc : (draw d).1.osc = d.osc := rfl
@[simp] theorem draw_RNG : (draw d).1.RNG = Prng.advance d.RNG := rfl
@[simp] theorem draw_BUF : (draw d).1.BUF = d.BUF := rfl
@[simp] theorem draw_SEQ : (draw d).1.SEQ = d.SEQ := rfl
@[simp] theorem draw_value : (draw d).2 = Prng.value d.RNG := rfl

/-! draw01 -/

@[simp] theorem draw01_S : (draw01 d).1.S = d.S := rfl
@[simp] theorem draw01_FS : (draw01 d).1.FS = d.FS := rfl
@[simp] theorem draw01_BLKSZ : (draw01 d).1.BLKSZ = d.BLKSZ := rfl
@[simp] theorem draw01_L : (draw01 d).1.L = d.L := rfl
@[simp] theorem draw01_coef : (draw01 d).1.coef = d.coef := rfl
@[simp] theorem draw01_ch : (draw01 d).1.ch = d.ch := rfl
@[simp] theorem draw01_osc : (draw01 d).1.osc = d.osc := rfl
@[simp] theorem draw01_RNG : (draw01 d).1.RNG = Prng.advance d.RNG := rfl
@[simp] theorem draw01_BUF : (draw01 d).1.BUF = d.BUF := rfl
@[simp] theorem draw01_SEQ : (draw01 d).1.SEQ = d.SEQ := rfl
@[simp] theorem draw01_value : (draw01 d).2 = Prng.value01 d.RNG := rfl

end

@[simp] theorem complete_eq : complete s = respond 0 (release s) := rfl

@[simp] theorem failWith_eq (e : ErrCode) (i : Option (Nat × Nat)) : failWith e i s = raise e i (release s) := rfl

/-! Pairs -/

@[simp] theorem pair_get_set_same {α : Type} (q : Pair α) (c : Channel) (a : α) : (q.set c a).get c = a := by
  cases c <;> rfl

@[simp] theorem pair_get_set_other {α : Type} (q : Pair α) {c e : Channel} (h : e ≠ c) (a : α) :
    (q.set c a).get e = q.get e := by
  cases c <;> cases e <;> first | rfl | exact absurd rfl h

theorem pair_get_set {α : Type} (q : Pair α) (c e : Channel) (a : α) :
    (q.set c a).get e = if e = c then a else q.get e := by
  cases c <;> cases e <;> rfl

theorem pair_ext {α : Type} {q r : Pair α} (h : ∀ c, q.get c = r.get c) : q = r := by
  cases q; cases r
  have hl := h .left
  have hr := h .right
  simp only [Pair.get] at hl hr
  simp [hl, hr]

/-! Parameter files -/

@[simp] theorem get_set_same (k : NumParam) (v : V) : (p.set k v).get k = v := by cases k <;> rfl

theorem get_set (k j : NumParam) (v : V) : (p.set k v).get j = if j = k then v else p.get j := by
  cases k <;> cases j <;> rfl

@[simp] theorem set_speed (k : NumParam) (v : V) : (p.set k v).speed = p.speed := by cases k <;> rfl

@[simp] theorem set_form (k : NumParam) (v : V) : (p.set k v).form = p.form := by cases k <;> rfl

/-- Copying all fourteen registers copies the file (45_pipeline.md R171). -/
theorem copy_all (src dst : ParamFile V) : ParamId.all.foldl (fun q k => ParamFile.copy k src q) dst = src := by
  simp [ParamId.all, ParamFile.copy, ParamFile.set, ParamFile.get]

end

end Sys2Proof.Machine
end

