-- ==== Sys2Proof/Laws/Ops.lean ====
section
/-! SUPPORT. What each shared operation can do, said once: an atomic step of the control agent or the observer, the
commands that land between two steps of the sequencer, and a list of micro-operations. -/

namespace Sys2Proof.Machine

/-- What the other agents can change while the sequencer runs (60_exceptions.md R217): P and DIRTY (SETP), ERR (a
refusal) and the record of the port. An error once recorded stays; DIRTY once set stays. -/
structure AgentChange {V : Type} (s t : Over.State V) : Prop where
  rest : t = { s with P := t.P, DIRTY := t.DIRTY, ERR := t.ERR, arrivals := t.arrivals, out := t.out }
  err : s.ERR ≠ 0 → t.ERR = s.ERR
  dirty : s.DIRTY = true → t.DIRTY = true

namespace AgentChange

variable {V : Type}

theorem refl (s : Over.State V) : AgentChange s s := ⟨rfl, fun _ => rfl, fun h => h⟩

theorem trans {s t u : Over.State V} (a : AgentChange s t) (b : AgentChange t u) : AgentChange s u := by
  refine ⟨?_, fun h => ?_, fun h => b.dirty (a.dirty h)⟩
  · rw [b.rest, a.rest]
  · rw [b.err (by rw [a.err h]; exact h), a.err h]

variable {s t : Over.State V} (a : AgentChange s t)
include a

theorem cfg : t.cfg = s.cfg := by rw [a.rest]
theorem PREPARED : t.PREPARED = s.PREPARED := by rw [a.rest]
theorem BUSY : t.BUSY = s.BUSY := by rw [a.rest]
theorem PEAK_IN : t.PEAK_IN = s.PEAK_IN := by rw [a.rest]
theorem PEAK_OUT : t.PEAK_OUT = s.PEAK_OUT := by rw [a.rest]
theorem dp : t.dp = s.dp := by rw [a.rest]
theorem inputs : t.inputs = s.inputs := by rw [a.rest]

end AgentChange

variable {V : Type}

theorem stickyErr_of_ne {err : BitVec 8} (h : err ≠ 0) (e : ErrCode) : stickyErr err e = err := by
  exact if_neg h

theorem raise_change (e : ErrCode) (i : Option (Nat × Nat)) (s : Over.State V) : AgentChange s (raise e i s) :=
  ⟨rfl, fun h => stickyErr_of_ne h e, fun h => h⟩

theorem respond_change (v : Word32) (s : Over.State V) : AgentChange s (respond v s) := ⟨rfl, fun _ => rfl, fun h => h⟩

theorem setSpeed_change (w : Word32) (s : Over.State V) : AgentChange s (setSpeed w s) :=
  ⟨rfl, fun _ => rfl, fun h => by simp [setSpeed, h]⟩

theorem setForm_change (w : Word32) (s : Over.State V) : AgentChange s (setForm w s) :=
  ⟨rfl, fun _ => rfl, fun h => by simp [setForm, h]⟩

section
variable [NUM V]

theorem setNum_change (k : NumParam) (w : Word32) (s : Over.State V) : AgentChange s (setNum k w s) := by
  unfold setNum
  split
  · exact raise_change _ _ _
  · exact ⟨rfl, fun _ => rfl, fun h => by simp [h]⟩

/-- A command that lands in a running sequencer command changes only what its class may (46_commands.md R190). -/
theorem whileBusy_change (i : Instr) (s : Over.State V) : AgentChange s (whileBusy i s) := by
  cases i with
  | prepare | reset | seed | process => exact raise_change _ _ _
  | gettIn | gettOut | gets => exact respond_change _ _
  | setpSpeed w => exact setSpeed_change w s
  | setpForm w => exact setForm_change w s
  | _ w => exact setNum_change _ w s

theorem land_change (w : CmdWord) (s : Over.State V) : AgentChange s (land w s) := by
  unfold land
  split
  · exact whileBusy_change _ _
  · exact raise_change _ _ _

theorem landDue_change (as : List Arrival) (s : Over.State V) : AgentChange s (landDue as s) := by
  induction as generalizing s with
  | nil => exact ⟨rfl, fun _ => rfl, fun h => h⟩
  | cons a rest ih =>
    unfold landDue
    split
    · exact (land_change _ _).trans (ih _)
    · exact ⟨rfl, fun _ => rfl, fun h => h⟩

/-- Between two steps of the sequencer only the other agents' cells change (20_memory.md R71). -/
theorem tick_change (s : Over.State V) : AgentChange s (tick s) := landDue_change _ _

/-- With nothing landing, nothing changes. -/
theorem tick_of_quiet {s : Over.State V} (h : s.arrivals = []) : tick s = s := by
  obtain ⟨⟩ := s
  subst h
  rfl

@[simp] theorem tick_cfg (s : Over.State V) : (tick s).cfg = s.cfg := (tick_change s).cfg
@[simp] theorem tick_PREPARED (s : Over.State V) : (tick s).PREPARED = s.PREPARED := (tick_change s).PREPARED
@[simp] theorem tick_BUSY (s : Over.State V) : (tick s).BUSY = s.BUSY := (tick_change s).BUSY
@[simp] theorem tick_PEAK_IN (s : Over.State V) : (tick s).PEAK_IN = s.PEAK_IN := (tick_change s).PEAK_IN
@[simp] theorem tick_PEAK_OUT (s : Over.State V) : (tick s).PEAK_OUT = s.PEAK_OUT := (tick_change s).PEAK_OUT
@[simp] theorem tick_dp (s : Over.State V) : (tick s).dp = s.dp := (tick_change s).dp
@[simp] theorem tick_inputs (s : Over.State V) : (tick s).inputs = s.inputs := (tick_change s).inputs

/-! Lists of micro-operations -/

variable [DecidableEq V]

@[simp] theorem runOps_nil (sl : Over.State V × Locals V) : runOps [] sl = sl := rfl

theorem runOps_cons (op : MicroOp V) (rest : List (MicroOp V)) (sl : Over.State V × Locals V) :
    runOps (op :: rest) sl = runOps rest (tick (op.run sl.1 sl.2).1, (op.run sl.1 sl.2).2) := rfl

theorem runOps_append (xs ys : List (MicroOp V)) (sl : Over.State V × Locals V) :
    runOps (xs ++ ys) sl = runOps ys (runOps xs sl) := by
  induction xs generalizing sl with
  | nil => rfl
  | cons op rest ih => exact ih _

/-- A property of states that every listed micro-operation and every landing command keeps holds after the list. -/
theorem runOps_induct {I : Over.State V × Locals V → Prop} {ops : List (MicroOp V)}
    (hop : ∀ op ∈ ops, ∀ s l, I (s, l) → I (op.run s l))
    (hagent : ∀ s t l, AgentChange s t → I (s, l) → I (t, l)) (sl : Over.State V × Locals V) (h : I sl) :
    I (runOps ops sl) := by
  induction ops generalizing sl with
  | nil => exact h
  | cons op rest ih =>
    rw [runOps_cons]
    refine ih (fun o ho => hop o (List.mem_cons_of_mem _ ho)) _ ?_
    exact hagent _ _ _ (tick_change _) (hop op List.mem_cons_self _ _ h)

/-- The fields no micro-operation writes; P is only read, ERR and the port belong to the other agents. -/
theorem run_keeps (op : MicroOp V) (s : Over.State V) (l : Locals V) :
    (op.run s l).1.cfg = s.cfg ∧ (op.run s l).1.P = s.P ∧ (op.run s l).1.BUSY = s.BUSY ∧
      (op.run s l).1.ERR = s.ERR ∧ (op.run s l).1.inputs = s.inputs ∧ (op.run s l).1.arrivals = s.arrivals ∧
      (op.run s l).1.out = s.out := by
  cases op <;> exact ⟨rfl, rfl, rfl, rfl, rfl, rfl, rfl⟩

/-- With nothing landing, a list of micro-operations is their composition, and nothing lands in it. -/
theorem runOps_of_quiet {ops : List (MicroOp V)} {sl : Over.State V × Locals V} (h : sl.1.arrivals = []) :
    runOps ops sl = ops.foldl (fun q op => op.run q.1 q.2) sl ∧ (runOps ops sl).1.arrivals = [] := by
  induction ops generalizing sl with
  | nil => exact ⟨rfl, h⟩
  | cons op rest ih =>
    have hq : (op.run sl.1 sl.2).1.arrivals = [] := by rw [(run_keeps op sl.1 sl.2).2.2.2.2.2.1, h]
    rw [runOps_cons, tick_of_quiet hq]
    exact ih hq

/-- A list of micro-operations keeps the configuration, BUSY and the inputs, and an error once recorded. -/
theorem runOps_keeps (ops : List (MicroOp V)) (sl : Over.State V × Locals V) :
    (runOps ops sl).1.cfg = sl.1.cfg ∧ (runOps ops sl).1.BUSY = sl.1.BUSY ∧
      (runOps ops sl).1.inputs = sl.1.inputs ∧ (sl.1.ERR ≠ 0 → (runOps ops sl).1.ERR = sl.1.ERR) := by
  refine runOps_induct (I := fun q => q.1.cfg = sl.1.cfg ∧ q.1.BUSY = sl.1.BUSY ∧ q.1.inputs = sl.1.inputs ∧
    (sl.1.ERR ≠ 0 → q.1.ERR = sl.1.ERR)) ?_ ?_ sl ⟨rfl, rfl, rfl, fun _ => rfl⟩
  · intro op _ s l ⟨h1, h2, h3, h4⟩
    obtain ⟨k1, _, k3, k4, k5, _, _⟩ := run_keeps op s l
    exact ⟨k1.trans h1, k3.trans h2, k5.trans h3, fun h => k4.trans (h4 h)⟩
  · intro s t l a ⟨h1, h2, h3, h4⟩
    refine ⟨a.cfg.trans h1, a.BUSY.trans h2, a.inputs.trans h3, fun h => ?_⟩
    have h4' : s.ERR = sl.1.ERR := h4 h
    exact (a.err (by rw [h4']; exact h)).trans h4'

end

end Sys2Proof.Machine
end

