-- ==== Sys2Proof/Laws/Pipeline.lean ====
section
/-! SUPPORT. What the micro-operations of the frame loop change (45_pipeline.md R170 to R183), and what each command
comes to when nothing lands in it. -/

namespace Sys2Proof.Machine

variable {V : Type}

/-- The micro-operations of a frame loop over `nch` channels and `nsamp` frames (45_pipeline.md R172). -/
def MicroOp.inFrames (nch nsamp : Nat) : MicroOp V → Prop
  | .seqAt n _ => n < nsamp
  | .gainIn n c | .mix n c => inBlock nch nsamp c n
  | .saturate c | .biquad c | .lowpass c | .dlyWr c | .dlyRd c | .noiseAdd c => c.index < nch
  | .lfoAdv | .lfoRnd | .noise | .lfoMod | .gainOut | .dlyAdv => True
  | .configure _ _ _ | .takeDirty | .latch _ | .mapHB | .mapLP | .mapLFO | .setLocals | .clearChan _ | .clearOsc
  | .clearPeakIn | .clearPeakOut | .setPrepared | .seedRng _ | .peakCapOut _ _ | .publishIn | .publishOut => False

theorem index_lt_of_mem_channels {nch : Nat} {c : Channel} (h : c ∈ channels nch) : c.index < nch := by
  match nch, h with
  | 0, h => cases h
  | 1, h => cases List.mem_singleton.mp h; decide
  | n + 2, h => cases c <;> simp [Channel.index]

theorem channelOps_inFrames {b : BlockLocals V} {nch nsamp n : Nat} {c : Channel} (hc : c.index < nch) (hn : n < nsamp) :
    ∀ op ∈ channelOps b n c, op.inFrames nch nsamp := by
  intro op h
  simp only [channelOps, List.mem_append, List.mem_cons, List.not_mem_nil, or_false] at h
  have hin : inBlock nch nsamp c n := ⟨hc, hn⟩
  rcases h with (((((h | h) | h) | h) | h) | h) | h
  · rcases h with rfl | rfl <;> simp [MicroOp.inFrames, hn, hin]
  · split at h <;> simp_all [MicroOp.inFrames]
  · split at h <;> simp_all [MicroOp.inFrames]
  · subst h; exact hc
  · split at h
    · rcases List.mem_cons.mp h with rfl | h
      · exact hc
      · simp_all [MicroOp.inFrames]
    · cases h
  · split at h <;> simp_all [MicroOp.inFrames]
  · rcases h with rfl | rfl <;> simp [MicroOp.inFrames, hin]

theorem frameOps_inFrames {b : BlockLocals V} {nch nsamp n : Nat} (hn : n < nsamp) :
    ∀ op ∈ frameOps b nch n, op.inFrames nch nsamp := by
  intro op h
  simp only [frameOps, List.mem_append, List.mem_cons, List.not_mem_nil, or_false, List.mem_flatMap] at h
  rcases h with (((h | h) | h) | ⟨c, hc, h⟩) | h
  · rcases h with rfl | rfl | rfl <;> simp [MicroOp.inFrames, hn]
  · split at h <;> simp_all [MicroOp.inFrames]
  · split at h <;> simp_all [MicroOp.inFrames]
  · exact channelOps_inFrames (index_lt_of_mem_channels hc) hn op h
  · subst h; trivial

theorem framesOps_inFrames (b : BlockLocals V) (nch nsamp : Nat) :
    ∀ op ∈ framesOps b nch nsamp, op.inFrames nch nsamp := by
  intro op h
  simp only [framesOps, List.mem_flatMap, List.mem_range] at h
  obtain ⟨n, hn, h⟩ := h
  exact frameOps_inFrames hn op h

@[simp] theorem lfoRnd_keeps [NUM V] (d : Datapath V) :
    (lfoRnd d).S = d.S ∧ (lfoRnd d).FS = d.FS ∧ (lfoRnd d).BLKSZ = d.BLKSZ ∧ (lfoRnd d).L = d.L ∧
      (lfoRnd d).coef = d.coef ∧ (lfoRnd d).ch = d.ch ∧ (lfoRnd d).BUF = d.BUF ∧ (lfoRnd d).SEQ = d.SEQ := by
  unfold lfoRnd
  split <;> exact ⟨rfl, rfl, rfl, rfl, rfl, rfl, rfl, rfl⟩

section
variable [DecidableEq V]

/-- A BUF cell reads as what was last written to it (20_memory.md R60). -/
theorem bufRead_bufWrite_same (c : Channel) (n : Nat) (v : V) (d : Datapath V) :
    bufRead (bufWrite c n v d) c n = some v := by
  simp [bufRead, Memory.write, Laws.read_insert_same]

/-- A write to one BUF cell leaves every other cell alone (20_memory.md R63). -/
theorem bufRead_bufWrite_other {c e : Channel} {n m : Nat} (h : ¬(e = c ∧ m = n)) (v : V) (d : Datapath V) :
    bufRead (bufWrite c n v d) e m = bufRead d e m := by
  simp only [bufRead, bufWrite_BUF, pair_get_set]
  split
  · subst e
    have hm : m ≠ n := fun hm => h ⟨rfl, hm⟩
    simp [Memory.write, Laws.read_insert_other _ _ hm]
  · rfl

end

section
variable [NUM V] [DecidableEq V]

/-- The frame loop writes none of the registers of the block's setup, no flag and no telemetry register. -/
theorem run_frame_keeps {nch nsamp : Nat} {op : MicroOp V} (h : op.inFrames nch nsamp) (s : Over.State V) (l : Locals V) :
    sameSetup s.dp (op.run s l).1.dp ∧ (op.run s l).1.PREPARED = s.PREPARED ∧ (op.run s l).1.DIRTY = s.DIRTY ∧
      (op.run s l).1.PEAK_IN = s.PEAK_IN ∧ (op.run s l).1.PEAK_OUT = s.PEAK_OUT ∧
      (op.run s l).2.blk = l.blk ∧ (op.run s l).2.pIn = l.pIn := by
  cases op with
  | lfoRnd =>
    obtain ⟨h1, h2, h3, h4, h5, -⟩ := lfoRnd_keeps s.dp
    exact ⟨⟨h1, h2, h3, h4, h5⟩, rfl, rfl, rfl, rfl, rfl, rfl⟩
  | configure | takeDirty | latch | mapHB | mapLP | mapLFO | setLocals | clearChan | clearOsc | clearPeakIn
  | clearPeakOut | setPrepared | seedRng | peakCapOut | publishIn | publishOut => exact h.elim
  | _ => exact ⟨⟨rfl, rfl, rfl, rfl, rfl⟩, rfl, rfl, rfl, rfl, rfl, rfl⟩

/-- A frame-loop micro-operation changes no BUF cell outside its block (46_commands.md R197). -/
theorem run_frame_buf {nch nsamp : Nat} {op : MicroOp V} (h : op.inFrames nch nsamp) (s : Over.State V) (l : Locals V)
    {c : Channel} {n : Nat} (hout : ¬inBlock nch nsamp c n) :
    bufRead (op.run s l).1.dp c n = bufRead s.dp c n := by
  cases op with
  | lfoRnd => exact congrArg (fun b : Pair (Mem V) => Memory.read none (b.get c) n) (lfoRnd_keeps s.dp).2.2.2.2.2.2.1
  | mix m e =>
    refine bufRead_bufWrite_other ?_ _ _
    rintro ⟨rfl, rfl⟩
    exact hout h
  | configure | takeDirty | latch | mapHB | mapLP | mapLFO | setLocals | clearChan | clearOsc | clearPeakIn
  | clearPeakOut | setPrepared | seedRng | peakCapOut | publishIn | publishOut => exact h.elim
  | _ => rfl

/-- LATCH with nothing landing: S is P, DIRTY is cleared, its old value is known (45_pipeline.md R171). -/
theorem runOps_latch {s : Over.State V} (l : Locals V) (h : s.arrivals = []) :
    runOps latchOps (s, l) =
      ({ s with DIRTY := false, dp := { s.dp with S := s.P } }, { l with dirty := s.DIRTY }) := by
  rw [(runOps_of_quiet (sl := (s, l)) h).1]
  obtain ⟨⟩ := s
  simp [latchOps, ParamId.all, MicroOp.run, onDatapath, ParamFile.copy, ParamFile.set, ParamFile.get]

/-- The state clearing of RESET with nothing landing (46_commands.md R192). -/
theorem runOps_clear {s : Over.State V} (l : Locals V) (h : s.arrivals = []) :
    runOps clearOps (s, l) =
      ({ s with PEAK_IN := NUM.lit 0, PEAK_OUT := NUM.lit 0, dp := { s.dp with ch := ⟨Chan.zero, Chan.zero⟩, osc := Osc.zero } }, l) := by
  rw [(runOps_of_quiet (sl := (s, l)) h).1]
  rfl

/-- A run of the mapper with nothing landing (40_coefficient_mapper.md R101). -/
theorem runOps_mapper {s : Over.State V} (l : Locals V) (h : s.arrivals = []) :
    runOps mapperOps (s, l) = ({ s with dp := mapLFO (mapLP (mapHB s.dp)) }, l) := by
  rw [(runOps_of_quiet (sl := (s, l)) h).1]
  rfl

end

variable [NUM V]

theorem acquire_of_quiet {s : Over.State V} (h : s.arrivals = []) : acquire s = { s with BUSY := true } :=
  tick_of_quiet (s := { s with BUSY := true }) h

/-- The mapper advances the generator by four draws, whatever the guard (40_coefficient_mapper.md R107). -/
theorem mapLFO_RNG (d : Datapath V) : (mapLFO d).RNG = afterFourDraws d.RNG := by
  unfold mapLFO
  dsimp only
  split <;> rfl

@[simp] theorem mapHB_RNG (d : Datapath V) : (mapHB d).RNG = d.RNG := by
  unfold mapHB
  dsimp only
  split <;> rfl

@[simp] theorem mapLP_RNG (d : Datapath V) : (mapLP d).RNG = d.RNG := by
  unfold mapLP
  dsimp only
  split <;> rfl

@[simp] theorem mapHB_S (d : Datapath V) : (mapHB d).S = d.S := by
  unfold mapHB
  dsimp only
  split <;> rfl

@[simp] theorem mapLP_S (d : Datapath V) : (mapLP d).S = d.S := by
  unfold mapLP
  dsimp only
  split <;> rfl

@[simp] theorem mapLFO_S (d : Datapath V) : (mapLFO d).S = d.S := by
  unfold mapLFO
  dsimp only
  split <;> rfl

end Sys2Proof.Machine
end

