-- ==== Sys2Proof/Laws/Random.lean ====
section
/-! SUPPORT. What a draw can give (44_noise.md R160 to R162). -/

namespace Sys2Proof.Laws

theorem shifts_lt (n : Nat) (r : BitVec 31) (k : Nat) : (Prng.shifts n r k).2 < (k + 1) * 2 ^ n := by
  induction n generalizing r k with
  | zero => simp [Prng.shifts]
  | succ n ih =>
    refine lt_of_lt_of_le (ih _ _) ?_
    have : (Prng.shift r).2.toNat ≤ 1 := Bool.toNat_le _
    calc (2 * k + (Prng.shift r).2.toNat + 1) * 2 ^ n ≤ (2 * (k + 1)) * 2 ^ n := Nat.mul_le_mul_right _ (by omega)
      _ = (k + 1) * 2 ^ (n + 1) := by ring

section
variable {V : Type} [Field V] [LinearOrder V] [IsStrictOrderedRing V] [FloorRing V] (F : Fns V)

/-- Every draw is in [-1, 1) (44_noise.md R160). -/
theorem value_mem (r : RngState) : letI := NUM.exact F; -1 ≤ (Prng.value r : V) ∧ (Prng.value r : V) < 1 := by
  cases r with
  | prbs b =>
    have h : (Prng.draw16 b).2 < 65536 := by simpa [Prng.draw16] using shifts_lt 16 b 0
    have h' : ((Prng.draw16 b).2 : V) < 65536 := by exact_mod_cast h
    have h0 : (0 : V) ≤ ((Prng.draw16 b).2 : V) := Nat.cast_nonneg _
    simp only [Prng.value, ofInt_exact, lit_exact]
    push_cast
    constructor
    · rw [le_div_iff₀ (by norm_num)]; linarith
    · rw [div_lt_iff₀ (by norm_num)]; linarith
  | other n =>
    simp only [Prng.value, lit_exact]
    split
    · exact_mod_cast ‹_ ∧ _›
    · norm_num

/-- `Draw01()` is in [0, 1) (44_noise.md R161). -/
theorem value01_mem (r : RngState) : letI := NUM.exact F; 0 ≤ (Prng.value01 r : V) ∧ (Prng.value01 r : V) < 1 := by
  have := value_mem F r
  simp only [Prng.value01, lit_exact]
  push_cast
  constructor <;> linarith

end

/-- The register never locks: a shift of a non-zero state is non-zero (44_noise.md R162). -/
theorem shift_ne_zero {r : BitVec 31} (h : r ≠ 0) : (Prng.shift r).1 ≠ 0 := by
  intro h0
  apply h
  have bit : ∀ i, i < 31 → (Prng.shift r).1.getLsbD i = false := fun i _ => by rw [h0]; simp
  have hb : ∀ j (hj : j < 30), r[j]'(by omega) = false := by
    intro j hj
    have := bit (j + 1) (by omega)
    simpa [Prng.shift, hj, show j + 1 < 31 by omega] using this
  have h30 : r[30] = false := by
    have := bit 0 (by omega)
    simpa [Prng.shift, hb 27 (by omega)] using this
  ext i hi
  simp only [BitVec.ofNat_eq_ofNat, BitVec.getElem_zero]
  rcases Nat.lt_or_ge i 30 with h1 | h1
  · exact hb i h1
  · obtain rfl : i = 30 := by omega
    exact h30

theorem shifts_ne_zero (n : Nat) {r : BitVec 31} (h : r ≠ 0) (k : Nat) : (Prng.shifts n r k).1 ≠ 0 := by
  induction n generalizing r k with
  | zero => exact h
  | succ n ih => exact ih (shift_ne_zero h) _

theorem advance_ne_zero {r : RngState} (h : r ≠ .prbs 0) : Prng.advance r ≠ .prbs 0 := by
  cases r with
  | prbs b =>
    simp only [Prng.advance, ne_eq, RngState.prbs.injEq] at h ⊢
    exact shifts_ne_zero 16 h 0
  | other n => simp [Prng.advance]

theorem seedOf_ne_zero (sel : PrngSel) (w : Word32) : Prng.seedOf sel w ≠ .prbs 0 := by
  cases sel with
  | prbs31 =>
    simp only [Prng.seedOf, ne_eq, RngState.prbs.injEq]
    split
    · decide
    · assumption
  | other => simp [Prng.seedOf]

end Sys2Proof.Laws
end

