-- ==== Sys2Proof/Laws/Command.lean ====
section
/-! SUPPORT. exec and realExec as one function at two numeric domains, and what no command and no step changes. -/

namespace Sys2Proof

open Machine

/-- The real functions have the named properties (00_scope.md R12). -/
theorem Laws.real_lawful (c : Cfg ℝ) : (Fns.real c).Lawful where
  pi := ⟨Real.pi_gt_three, Real.pi_lt_four⟩
  sin_zero := Real.sin_zero
  sin_le := Real.abs_sin_le_one
  cos_zero := Real.cos_zero
  cos_le := Real.abs_cos_le_one
  tanh_neg := Real.tanh_neg
  tanh_pos x h := by
    show 0 < Real.tanh x
    rw [Real.tanh_eq_sinh_div_cosh]
    exact div_pos (Real.sinh_pos_iff.mpr h) (Real.cosh_pos x)
  tanh_lt := Real.abs_tanh_lt_one
  pow10_zero := Real.rpow_zero 10
  pow10_pos x := Real.rpow_pos_of_pos (by norm_num) x
  pow10_le x h := Real.one_le_rpow (by norm_num) h

namespace Machine

/-- exec is `command` in the domain of the state's configuration. -/
theorem exec_eq_command (i : Instr) (s : State) : exec i s = .next (letI := numOf s.cfg; command i s) := by
  cases i <;> rfl

/-- Where the arithmetic is exact, exec is `command` in exact arithmetic on the rationals. -/
theorem exec_eq_exact {s : State} (h : s.cfg.num ≠ .other) (i : Instr) :
    exec i s = .next (letI := NUM.exact (Fns.rational s.cfg); command i s) := by
  rw [exec_eq_command, Laws.numOf_eq_exact h]

section
variable {V : Type}

theorem unlessBusy_of_busy {s : Over.State V} (h : s.BUSY = true) (f : Over.State V → Over.State V) :
    unlessBusy f s = raise .busy none s := if_pos h

theorem unlessBusy_of_idle {s : Over.State V} (h : s.BUSY = false) (f : Over.State V → Over.State V) :
    unlessBusy f s = f s := if_neg (by rw [h]; decide)

/-- What unlessBusy does keeps what both its branches keep. -/
theorem unlessBusy_keeps {α : Type} (p : Over.State V → α) {f : Over.State V → Over.State V} {s : Over.State V}
    (hr : p (raise .busy none s) = p s) (hf : p (f s) = p s) : p (unlessBusy f s) = p s := by
  unfold unlessBusy
  split <;> assumption

variable [NUM V] [DecidableEq V]

theorem runCommand_keeps (ops : List (MicroOp V)) (s : Over.State V) :
    (runCommand ops s).cfg = s.cfg ∧ (runCommand ops s).inputs = s.inputs :=
  ⟨(runOps_keeps _ _).1, (runOps_keeps _ _).2.2.1⟩

theorem runLatch_keeps (s : Over.State V) : (runLatch s).1.cfg = s.cfg ∧ (runLatch s).1.inputs = s.inputs :=
  ⟨(runOps_keeps _ _).1.trans (runOps_keeps _ _).1, (runOps_keeps _ _).2.2.1.trans (runOps_keeps _ _).2.2.1⟩

omit [NUM V] [DecidableEq V] in
theorem failWith_keeps (e : ErrCode) (i : Option (Nat × Nat)) (s : Over.State V) :
    (failWith e i s).cfg = s.cfg ∧ (failWith e i s).inputs = s.inputs := ⟨rfl, rfl⟩

theorem runBlock_keeps (nch nsamp : Nat) (p : V) (r : Over.State V × Locals V) :
    (runBlock nch nsamp p r).cfg = r.1.cfg ∧ (runBlock nch nsamp p r).inputs = r.1.inputs := by
  obtain ⟨h1, -, h2, -⟩ := runOps_keeps (framesOps r.2.blk nch nsamp ++ publishOps nch nsamp)
    (tick r.1, { r.2 with pIn := p })
  exact ⟨h1.trans (tick_cfg _), h2.trans (tick_inputs _)⟩

theorem processBody_keeps (nch nsamp : Nat) (s : Over.State V) :
    (processBody nch nsamp s).cfg = s.cfg ∧ (processBody nch nsamp s).inputs = s.inputs := by
  have h := runLatch_keeps (acquire s)
  have hs : (acquire s).cfg = s.cfg ∧ (acquire s).inputs = s.inputs := ⟨tick_cfg _, tick_inputs _⟩
  unfold processBody
  dsimp only
  split
  · exact ⟨(failWith_keeps _ _ _).1.trans (h.1.trans hs.1), (failWith_keeps _ _ _).2.trans (h.2.trans hs.2)⟩
  · next p _ =>
    have k := runBlock_keeps nch nsamp p (runLatch (acquire s))
    exact ⟨k.1.trans (h.1.trans hs.1), k.2.trans (h.2.trans hs.2)⟩

/-- No command changes the configuration or takes a word off the port (logs 3, 7). -/
theorem command_keeps (i : Instr) (s : Over.State V) :
    (command i s).cfg = s.cfg ∧ (command i s).inputs = s.inputs := by
  have acq : (acquire s).cfg = s.cfg ∧ (acquire s).inputs = s.inputs := ⟨tick_cfg _, tick_inputs _⟩
  have run (ops : List (MicroOp V)) :
      (runCommand ops (acquire s)).cfg = s.cfg ∧ (runCommand ops (acquire s)).inputs = s.inputs :=
    ⟨(runCommand_keeps ops _).1.trans acq.1, (runCommand_keeps ops _).2.trans acq.2⟩
  have pair {f : Over.State V → Over.State V} (h : (f s).cfg = s.cfg ∧ (f s).inputs = s.inputs) :
      (unlessBusy f s).cfg = s.cfg ∧ (unlessBusy f s).inputs = s.inputs :=
    ⟨unlessBusy_keeps (·.cfg) rfl h.1, unlessBusy_keeps (·.inputs) rfl h.2⟩
  have agent {t : Over.State V} (a : AgentChange s t) : t.cfg = s.cfg ∧ t.inputs = s.inputs := ⟨a.cfg, a.inputs⟩
  cases i with
  | prepare blk fs =>
    refine pair ?_
    split
    · exact acq
    · exact run _
  | reset => exact pair (run _)
  | seed w => exact pair (run _)
  | process nch nsamp =>
    refine pair ?_
    split
    · exact ⟨rfl, rfl⟩
    · split
      · exact ⟨rfl, rfl⟩
      · split
        · exact ⟨rfl, rfl⟩
        · split
          · exact ⟨rfl, rfl⟩
          · exact processBody_keeps _ _ _
  | setpSpeed w => exact agent (setSpeed_change w s)
  | setpForm w => exact agent (setForm_change w s)
  | gettIn | gettOut | gets => exact ⟨rfl, rfl⟩
  | _ w => exact agent (setNum_change _ w s)

/-! A block (46_commands.md R197) -/

/-- An accepted block passes every check before LATCH. -/
theorem process_of_accepted {nch nsamp : Nat} {s : Over.State V} (h : Accepted nch nsamp s) :
    process nch nsamp s = processBody nch nsamp s := by
  have h1 := h.someChannel
  have h2 := h.someFrame
  have h3 := h.channels
  have h4 := h.fits
  unfold process
  rw [unlessBusy_of_idle h.idle, if_neg (by simp only [Config.nchMax]; omega), if_neg (by omega),
    if_neg (by simp [h.prepared]), if_neg (by omega)]

/-- The cells of the scan are those of the block (45_pipeline.md R173). -/
theorem mem_blockCells {nch nsamp : Nat} (hn : nch ≤ 2) {e : Channel × Nat} :
    e ∈ blockCells nch nsamp ↔ inBlock nch nsamp e.1 e.2 := by
  obtain ⟨c, n⟩ := e
  have hc : c ∈ channels nch ↔ c.index < nch := by
    match nch, hn with
    | 0, _ | 1, _ | 2, _ => cases c <;> simp [channels, Channel.index]
  simp [blockCells, inBlock, hc, and_comm]

omit [DecidableEq V] in
/-- The scan of cells that all hold values finds a peak (45_pipeline.md R173). -/
theorem scanPeak_of_full {d : Datapath V} {cells : List (Channel × Nat)}
    (h : ∀ e ∈ cells, (bufRead d e.1 e.2).isSome = true) (p : V) : ∃ q, scanPeak d cells p = .ok q := by
  induction cells generalizing p with
  | nil => exact ⟨p, rfl⟩
  | cons e rest ih =>
    obtain ⟨m, hm⟩ := Option.isSome_iff_exists.mp (h e List.mem_cons_self)
    obtain ⟨q, hq⟩ := ih (fun x hx => h x (List.mem_cons_of_mem _ hx)) (NUM.max p (NUM.abs m))
    exact ⟨q, by rw [scanPeak, hm]; exact hq⟩

/-- With nothing landing, LATCH takes S from P, runs the mapper if DIRTY was 1, and computes the block-local values
(45_pipeline.md R171, R174). -/
theorem runLatch_of_quiet {s : Over.State V} (h : s.arrivals = []) :
    runLatch s = ({ s with
        DIRTY := false
        dp := if s.DIRTY then mapLFO (mapLP (mapHB { s.dp with S := s.P })) else { s.dp with S := s.P } },
      { Locals.start s.cfg s.dp.S with dirty := s.DIRTY, blk := blockLocals s.cfg s.P }) := by
  unfold runLatch
  dsimp only
  rw [runOps_latch _ h, runOps_append]
  dsimp only
  cases hd : s.DIRTY
  · simp [runOps, MicroOp.run, tick_of_quiet, h]
  · rw [if_pos rfl, runOps_mapper _ (by exact h)]
    simp [runOps, MicroOp.run, tick_of_quiet, h]

end

end Machine

end Sys2Proof
end

