-- ==== Sys2Proof/Laws/PerInstr.lean ====
section
/-! SUPPORT. The word of a command matches the command's own row of the opcode table (30_encoding.md R87): one lemma
for each constructor. -/

namespace Sys2Proof.Laws

/-- Masking the packed fields masks each field. -/
theorem pack_and (op a op' a' : BitVec 8) (b b' : BitVec 16) (w w' : Word32) :
    pack op a b w &&& pack op' a' b' w' = pack (op &&& op') (a &&& a') (b &&& b') (w &&& w') :=
  (BitVec.and_append (x₁ := op ++ a ++ b) (x₂ := op' ++ a' ++ b')).trans
    (by rw [BitVec.and_append, BitVec.and_append]; rfl)

namespace EncodeMatchesRow

def Statement (i : Instr) : Prop := encode i &&& i.row.mask = i.row.pattern

/-- A mask with the opcode byte all ones, field by field. -/
theorem masked {op a ma a' : BitVec 8} {b mb b' : BitVec 16} {w mw w' : Word32} {mask pattern : CmdWord}
    (hm : pack 0xFF ma mb mw = mask) (hp : pack op a' b' w' = pattern)
    (ha : a &&& ma = a') (hb : b &&& mb = b') (hw : w &&& mw = w') : pack op a b w &&& mask = pattern := by
  rw [← hm, ← hp, pack_and, ha, hb, hw]
  congr 1
  exact BitVec.and_allOnes

theorem prepare (blk : Nat) (fs : Word32) : Statement (.prepare blk fs) :=
  masked (ma := 0xFF) (mb := 0) (mw := 0) (a' := 0) (b' := 0) (w' := 0) (by rfl) (by rfl) (by rfl) BitVec.and_zero
    BitVec.and_zero

theorem reset : Statement .reset := by rfl

theorem seed (w : Word32) : Statement (.seed w) :=
  masked (ma := 0xFF) (mb := 0xFFFF) (mw := 0) (a' := 0) (b' := 0) (w' := 0) (by rfl) (by rfl) (by rfl) (by rfl)
    BitVec.and_zero

theorem setpDrive (w : Word32) : Statement (.setpDrive w) :=
  masked (ma := 0xFF) (mb := 0xFFFF) (mw := 0) (a' := 0) (b' := 0) (w' := 0) (by rfl) (by rfl) (by rfl) (by rfl)
    BitVec.and_zero

theorem setpSat (w : Word32) : Statement (.setpSat w) :=
  masked (ma := 0xFF) (mb := 0xFFFF) (mw := 0) (a' := 1) (b' := 0) (w' := 0) (by rfl) (by rfl) (by rfl) (by rfl)
    BitVec.and_zero

theorem setpWarmth (w : Word32) : Statement (.setpWarmth w) :=
  masked (ma := 0xFF) (mb := 0xFFFF) (mw := 0) (a' := 2) (b' := 0) (w' := 0) (by rfl) (by rfl) (by rfl) (by rfl)
    BitVec.and_zero

theorem setpHbamt (w : Word32) : Statement (.setpHbamt w) :=
  masked (ma := 0xFF) (mb := 0xFFFF) (mw := 0) (a' := 3) (b' := 0) (w' := 0) (by rfl) (by rfl) (by rfl) (by rfl)
    BitVec.and_zero

theorem setpHbfreq (w : Word32) : Statement (.setpHbfreq w) :=
  masked (ma := 0xFF) (mb := 0xFFFF) (mw := 0) (a' := 4) (b' := 0) (w' := 0) (by rfl) (by rfl) (by rfl) (by rfl)
    BitVec.and_zero

theorem setpWow (w : Word32) : Statement (.setpWow w) :=
  masked (ma := 0xFF) (mb := 0xFFFF) (mw := 0) (a' := 5) (b' := 0) (w' := 0) (by rfl) (by rfl) (by rfl) (by rfl)
    BitVec.and_zero

theorem setpFlutter (w : Word32) : Statement (.setpFlutter w) :=
  masked (ma := 0xFF) (mb := 0xFFFF) (mw := 0) (a' := 6) (b' := 0) (w' := 0) (by rfl) (by rfl) (by rfl) (by rfl)
    BitVec.and_zero

theorem setpHiss (w : Word32) : Statement (.setpHiss w) :=
  masked (ma := 0xFF) (mb := 0xFFFF) (mw := 0) (a' := 7) (b' := 0) (w' := 0) (by rfl) (by rfl) (by rfl) (by rfl)
    BitVec.and_zero

theorem setpOutgain (w : Word32) : Statement (.setpOutgain w) :=
  masked (ma := 0xFF) (mb := 0xFFFF) (mw := 0) (a' := 8) (b' := 0) (w' := 0) (by rfl) (by rfl) (by rfl) (by rfl)
    BitVec.and_zero

theorem setpMix (w : Word32) : Statement (.setpMix w) :=
  masked (ma := 0xFF) (mb := 0xFFFF) (mw := 0) (a' := 9) (b' := 0) (w' := 0) (by rfl) (by rfl) (by rfl) (by rfl)
    BitVec.and_zero

theorem setpAge (w : Word32) : Statement (.setpAge w) :=
  masked (ma := 0xFF) (mb := 0xFFFF) (mw := 0) (a' := 10) (b' := 0) (w' := 0) (by rfl) (by rfl) (by rfl) (by rfl)
    BitVec.and_zero

theorem setpBias (w : Word32) : Statement (.setpBias w) :=
  masked (ma := 0xFF) (mb := 0xFFFF) (mw := 0) (a' := 11) (b' := 0) (w' := 0) (by rfl) (by rfl) (by rfl) (by rfl)
    BitVec.and_zero

theorem setpSpeed (w : Word32) : Statement (.setpSpeed w) :=
  masked (ma := 0xFF) (mb := 0xFFFF) (mw := 0) (a' := 12) (b' := 0) (w' := 0) (by rfl) (by rfl) (by rfl) (by rfl)
    BitVec.and_zero

theorem setpForm (w : Word32) : Statement (.setpForm w) :=
  masked (ma := 0xFF) (mb := 0xFFFF) (mw := 0) (a' := 13) (b' := 0) (w' := 0) (by rfl) (by rfl) (by rfl) (by rfl)
    BitVec.and_zero

theorem gettIn : Statement .gettIn := by rfl

theorem gettOut : Statement .gettOut := by rfl

theorem gets : Statement .gets := by rfl

theorem process (nch nsamp : Nat) : Statement (.process nch nsamp) :=
  masked (ma := 0) (mb := 0) (mw := 0xFFFFFFFF) (a' := 0) (b' := 0) (w' := 0) (by rfl) (by rfl) BitVec.and_zero
    BitVec.and_zero (by rfl)

end EncodeMatchesRow

end Sys2Proof.Laws
end

