-- ==== Sys2Proof/Tests/Slice0.lean ====
section
/-! SUPPORT. The model's own tests, expected values from spec/ (95_test_vectors.md, or by hand from the rule named), and
for each obligation with hypotheses a witness that meets them together. -/

namespace Sys2Proof.Tests

-- One theorem at a time: each kernel evaluation would otherwise hold a thread of its own.
set_option Elab.async false

open Sys2Proof Sys2Proof.Machine

/-! ## Well-formedness -/

theorem test_wf_refuses_wide_block_size : (Instr.prepare 65536 0).wf = false := by decide
theorem test_wf_refuses_wide_channel_count : (Instr.process 256 1).wf = false := by decide
theorem test_wf_refuses_wide_frame_count : (Instr.process 1 65536).wf = false := by decide
theorem test_wf_accepts_widest_block_size : (Instr.prepare 65535 0xFFFFFFFF).wf = true := by decide

/-! ## Decoding: words from 30_encoding.md R93 and 95_test_vectors.md V-ENC, V-CMD -/

theorem test_decode_sequencer :
    decode 0x01000004472C4400 = .ok (.prepare 4 0x472C4400) ∧ decode 0x0200000000000000 = .ok .reset ∧
    decode 0x0300000012345678 = .ok (.seed 0x12345678) ∧ decode 0x0702020000000000 = .ok (.process 2 512) := by
  decide

theorem test_decode_setp_low :
    decode 0x0400000041A00000 = .ok (.setpDrive 0x41A00000) ∧ decode 0x0401000042480000 = .ok (.setpSat 0x42480000) ∧
    decode 0x0402000042480000 = .ok (.setpWarmth 0x42480000) ∧
    decode 0x0403000042480000 = .ok (.setpHbamt 0x42480000) ∧
    decode 0x0404000042A00000 = .ok (.setpHbfreq 0x42A00000) ∧ decode 0x0405000042C80000 = .ok (.setpWow 0x42C80000) ∧
    decode 0x0406000042480000 = .ok (.setpFlutter 0x42480000) := by
  decide

theorem test_decode_setp_high :
    decode 0x0407000042480000 = .ok (.setpHiss 0x42480000) ∧
    decode 0x04080000C0C00000 = .ok (.setpOutgain 0xC0C00000) ∧
    decode 0x0409000042C80000 = .ok (.setpMix 0x42C80000) ∧ decode 0x040A000042C80000 = .ok (.setpAge 0x42C80000) ∧
    decode 0x040B000042C80000 = .ok (.setpBias 0x42C80000) ∧ decode 0x040C000000000007 = .ok (.setpSpeed 7) ∧
    decode 0x040D000000000001 = .ok (.setpForm 1) := by
  decide

theorem test_decode_observer :
    decode 0x0500000000000000 = .ok .gettIn ∧ decode 0x0501000000000000 = .ok .gettOut ∧
    decode 0x0600000000000000 = .ok .gets := by
  decide

theorem test_decode_illegal :
    decode 0 = .error .opcode ∧ decode 0x0800000000000000 = .error .opcode ∧
    decode 0xFF00000000000000 = .error .opcode ∧ decode 0x040E000000000000 = .error .paramIndex ∧
    decode 0x0502000000000000 = .error .telemetryIndex ∧ decode 0x0200000000000001 = .error .reservedBits ∧
    decode 0x0701000400000001 = .error .reservedBits ∧ decode 0x0101000400000000 = .error .reservedBits ∧
    decode 0x0401000142480000 = .error .reservedBits := by
  decide

/-- Little-endian serialisation (20_memory.md R64). -/
theorem test_bytes_little_endian :
    bytesOfWord 0x0702020000000000 = [0, 0, 0, 0, 0, 2, 2, 7] ∧
    decodeBytes [0, 0, 0, 0, 0, 2, 2, 7, 9] = some (.ok (.process 2 512), [9]) := by decide

/-! ## Operands: 95_test_vectors.md, dec32 -/

theorem test_dec32_values :
    dec32 0x473B8000 = some 48000 ∧ dec32 0x3F400000 = some (3 / 4) ∧ dec32 0xC0C00000 = some (-6) ∧
    dec32 0x40E66666 = some 7.19999980926513671875 ∧ dec32 0x80000000 = some 0 := by decide +kernel

theorem test_dec32_extremes :
    dec32 0x00000001 = some (1 / 2 ^ 149) ∧ dec32 0x7F800000 = none ∧ dec32 0xFF800000 = none ∧
    dec32 0x7FC00000 = none := by decide +kernel

/-- Ties to even: 1 + 2^-24 is half way between 1 and its successor, 1 + 3 * 2^-24 between two others. -/
theorem test_binary32_ties :
    binary32 (1 + 1 / 2 ^ 24 : ℚ) = 0x3F800000 ∧ binary32 (1 + 3 / 2 ^ 24 : ℚ) = 0x3F800002 := by decide +kernel

/-! ## Small states -/

/-- Prepared by hand: 1000 Hz, blocks of 4 frames, 50 cells of delay (V-DLY-3), LPC 1/2, BUF as given. -/
def ready (left right : Mem ℚ) : State :=
  { State.reset with
    PREPARED := true
    dp := { State.reset.dp with
      FS := 1000
      BLKSZ := 4
      L := 50
      coef := { State.reset.dp.coef with LPC := ⟨1 / 2, 1 / 2⟩ }
      BUF := ⟨left, right⟩ } }

/-- The wet path only. -/
def wet (s : State) : State := { s with P := { s.P with mix := 100 } }

/-- `next` with a property of the state. -/
def lands (o : Host.Outcome State Fault Refusal) (p : State → Bool) : Bool :=
  match o with
  | .next t => p t
  | .fault _ => false
  | .refused _ => false

/-- One step on the word `w`. -/
def stepWord (w : Nat) (s : State) (p : State → Bool) : Bool := lands (step (s.withFetchWord 64 w)) p

/-- The last response. -/
def answered (code : BitVec 8) (value : Word32) (t : State) : Bool := decide (t.out.head? = some (answer code value))

/-- Within 10^-14 of a decimal of 95_test_vectors.md. -/
def near (x y : ℚ) : Bool := decide (|x - y| < 1 / 10 ^ 14)

/-! ## Commands -/

/-- P1 and V-MAP-3: PREPARE 48000, 4 from power-on. -/
theorem test_prepare :
    stepWord 0x01000004473B8000 State.reset (fun t =>
      t.PREPARED && decide (t.dp.FS = 48000) && decide (t.dp.BLKSZ = 4) && decide (t.dp.L = 2400) &&
      decide (t.dp.RNG = .prbs 0x7C8721E7) && decide (t.dp.coef.WINC = 0.80869293212890625 / 48000) &&
      near (t.dp.coef.LPC.get .right) 0.526660245870944 && answered 0 0 t) = true := by decide +kernel

/-- V-CMD-3: PREPARE 192001, 4 needs 9601 cells. -/
theorem test_prepare_too_fast :
    stepWord 0x01000004483B8040 State.reset (fun t =>
      decide (t.ERR = 4) && decide (t.dp = State.reset.dp) && answered 4 0 t) = true := by decide +kernel

/-- 46_commands.md R192. -/
theorem test_reset_clears :
    stepWord 0x0200000000000000
      { ready [(0, 1)] [] with
        PEAK_IN := 1
        dp := { (ready [(0, 1)] []).dp with
          ch := ⟨⟨1, 2, 3, 4, 5, 6, [(7, 8)]⟩, ⟨1, 2, 3, 4, 5, 6, [(7, 8)]⟩⟩
          osc := ⟨1 / 2, 1 / 3, 1 / 4, 1 / 5, 6, 7⟩ } }
      (fun t => decide (t.PEAK_IN = 0) && decide (t.dp = (ready [(0, 1)] []).dp) && answered 0 0 t) = true := by
  decide +kernel

/-- V-RNG-2. -/
theorem test_seed_zero :
    stepWord 0x0300000080000000 State.reset (fun t => decide (t.dp.RNG = .prbs 1)) = true := by decide +kernel

theorem test_seed_ones :
    stepWord 0x03000000FFFFFFFF State.reset (fun t => decide (t.dp.RNG = .prbs 0x7FFFFFFF)) = true := by
  decide +kernel

/-- V-CMD-1. -/
theorem test_setp_drive_clamps :
    stepWord 0x0400000041A00000 State.reset (fun t => decide (t.P.drive = 12) && !t.DIRTY) = true := by decide +kernel
theorem test_setp_drive_nan :
    stepWord 0x040000007FC00000 State.reset (fun t => decide (t.P = State.reset.P) && answered 4 0 t) = true := by
  decide +kernel
theorem test_setp_sat_clamps :
    stepWord 0x04010000C0400000 State.reset (fun t => decide (t.P.sat = 0) && decide (t.ERR = 0)) = true := by
  decide +kernel
theorem test_setp_warmth_sets_dirty :
    stepWord 0x0402000042480000 State.reset (fun t => decide (t.P.warmth = 50) && t.DIRTY) = true := by decide +kernel
theorem test_setp_hbamt :
    stepWord 0x0403000042480000 State.reset (fun t => decide (t.P.hbamt = 50) && t.DIRTY) = true := by decide +kernel
theorem test_setp_hbfreq_clamps :
    stepWord 0x0404000041200000 State.reset (fun t => decide (t.P.hbfreq = 40) && t.DIRTY) = true := by decide +kernel
theorem test_setp_wow :
    stepWord 0x0405000042C80000 State.reset (fun t => decide (t.P.wow = 100) && !t.DIRTY) = true := by decide +kernel
theorem test_setp_flutter :
    stepWord 0x0406000042480000 State.reset (fun t => decide (t.P.flutter = 50) && !t.DIRTY) = true := by
  decide +kernel
theorem test_setp_hiss :
    stepWord 0x0407000042480000 State.reset (fun t => decide (t.P.hiss = 50) && !t.DIRTY) = true := by decide +kernel
theorem test_setp_outgain :
    stepWord 0x04080000C0C00000 State.reset (fun t => decide (t.P.outgain = -6) && !t.DIRTY) = true := by
  decide +kernel
theorem test_setp_mix_negative_zero :
    stepWord 0x0409000080000000 (wet State.reset) (fun t => decide (t.P.mix = 0) && !t.DIRTY) = true := by
  decide +kernel
theorem test_setp_age :
    stepWord 0x040A000042C80000 State.reset (fun t => decide (t.P.age = 100) && t.DIRTY) = true := by decide +kernel
theorem test_setp_bias :
    stepWord 0x040B000042C80000 State.reset (fun t => decide (t.P.bias = 100) && !t.DIRTY) = true := by decide +kernel
theorem test_setp_speed_clamps :
    stepWord 0x040C000000000007 State.reset (fun t => decide (t.P.speed = .fast) && t.DIRTY) = true := by
  decide +kernel
theorem test_setp_form :
    stepWord 0x040D000000000001 State.reset (fun t => decide (t.P.form = .chrome) && t.DIRTY) = true := by
  decide +kernel

/-- R195: 0.75 is 0x3F400000. -/
theorem test_gett_in :
    stepWord 0x0500000000000000 { State.reset with PEAK_IN := 3 / 4 } (answered 0 0x3F400000) = true := by
  decide +kernel
theorem test_gett_out :
    stepWord 0x0501000000000000 { State.reset with PEAK_IN := 3 / 4, PEAK_OUT := 1, BUSY := true }
      (answered 0 0x3F800000) = true := by decide +kernel

/-- V-CMD-2. -/
theorem test_gets :
    stepWord 0x0600000000000000 { State.reset with PREPARED := true, DIRTY := true, ERR := 3 }
      (answered 0 0x00000303) = true := by decide +kernel

/-- Input 1, 1, 1, 0 through LP1 with LPC 1/2, by hand from 42_filters.md R133; peaks by 45_pipeline.md R183. -/
theorem test_process_lowpass :
    stepWord 0x0701000400000000 (wet (ready [(0, 1), (1, 1), (2, 1), (3, 0)] [])) (fun t =>
      decide (t.dp.BUF.left = [(0, 1 / 2), (1, 3 / 4), (2, 7 / 8), (3, 7 / 16)]) && decide (t.PEAK_IN = 1) &&
      decide (t.PEAK_OUT = 7 / 8) && decide (t.dp.osc.MODCNT = 4) && decide (t.dp.osc.WCUR = 4)) = true := by
  decide +kernel

/-- V-CMD-4: the cell (1, 2) holds no value. -/
theorem test_process_bad_sample :
    stepWord 0x0702000400000000 (ready [(0, 1), (1, 1), (2, 1), (3, 0)] [(0, 1), (1, 1)]) (fun t =>
      decide (t.out.head? = some (.response ⟨5, 0, some (1, 2)⟩)) && decide (t.ERR = 5)) = true := by decide +kernel

/-- P6: a SETP that lands in a block sets DIRTY and does not reach the block's snapshot. -/
theorem test_setp_during_process :
    lands (exec (.process 1 1) { ready [(0, 1)] [] with arrivals := [⟨16, 0x0402000042C80000⟩] }) (fun t =>
      t.DIRTY && decide (t.P.warmth = 100) && decide (t.dp.S.warmth = 0)) = true := by decide +kernel

/-- P5: an illegal word leaves an error recorded earlier. -/
theorem test_illegal_word :
    stepWord 0x0800000000000000 { State.reset with ERR := 3 } (fun t => decide (t.ERR = 3) && answered 1 0 t) = true := by
  decide +kernel

/-! ## Stages: 95_test_vectors.md -/

def halfSat (f : Form) : BlockLocals ℚ := { localsOf Cfg.running { State.reset.P with sat := 50 } with form := f }

/-- The output of the saturation stage for an input of 1/2 and a clear memory. -/
def satHalf (b : BlockLocals ℚ) : ℚ :=
  letI := numOf Cfg.running
  (satStage b 0 (1 / 2)).2

/-- V-SAT-1, V-SAT-4, V-SAT-5, first step each. -/
theorem test_saturation :
    (near (satHalf (halfSat .ferric)) 0.159981346794988 &&
      near (satHalf (halfSat .chrome)) 0.874053287886007 &&
      near (satHalf (halfSat .modern)) 0.946960193675765) = true := by decide +kernel

/-- V-MAP-1. -/
theorem test_head_bump :
    (let k := (mapped Cfg.running { State.reset.dp with
        FS := 48000
        S := { State.reset.P with hbfreq := 80, hbamt := 50, speed := .medium } }).coef
     near k.B0 1.00145298526179 && near k.A1 (-1.99423217975538) && near k.B2 0.992888545505107 &&
      near k.A2 0.994341530766901) = true := by decide +kernel

/-- V-LFO-2. -/
theorem test_offset_update :
    letI := numOf Cfg.running
    (lfoRnd { State.reset.dp with RNG := .prbs 0x7C8721E7, osc := ⟨0, 0, 0, 0, 999, 0⟩ }).osc =
      ⟨0, 0, -0.006134033203125, -0.00267669677734375, 0, 0⟩ := by decide +kernel

/-- V-DLY-1: the wrap 49 to 0, and a whole delay. -/
theorem test_delay_taps :
    letI := numOf Cfg.running
    (delayTaps 10 50 (10.5104935009267 : ℚ)).1 = 49 ∧ (delayTaps 10 50 (10.5104935009267 : ℚ)).2.1 = 0 ∧
    delayTaps 0 2400 (2398 : ℚ) = (2, 3, 0) := by decide +kernel

/-- V-RNG-1. -/
theorem test_prbs31 :
    Prng.draw16 0x12345678 = (0x5678072D, 1837) ∧ Prng.draw16 0x5678072D = (0x072DCB70, 52080) := by decide +kernel

/-- V-NZ-1. -/
theorem test_noise_pair :
    letI := numOf Cfg.running
    noisePair (0.7 : ℚ) 0.005 (-0.943939208984375) 0.58935546875 = ⟨-0.0033037872314453125, -0.00276713409423828125⟩ := by
  decide +kernel

/-! ## Witnesses: for each obligation with hypotheses, a case that meets them -/

theorem wit_CommandWordsRoundTrip : (Instr.process 255 65535).wf = true ∧ (Instr.prepare 65535 0xFFFFFFFF).wf = true := by
  decide

theorem wit_DecodedWordsEncodeBack : decode 0x07FFFFFF00000000 = .ok (.process 255 65535) := by decide

theorem wit_Dec32IsTheBinary32Value :
    ((0x7F800000 : Word32).extractLsb' 23 8).toNat = 255 ∧ ((0x807FFFFF : Word32).extractLsb' 23 8).toNat = 0 ∧
    ((0x00800000 : Word32).extractLsb' 23 8).toNat = 1 ∧ ((0x7F7FFFFF : Word32).extractLsb' 23 8).toNat = 254 := by
  decide

theorem wit_StepRunsDecodedCommand :
    ({ State.reset with inputs := [.cmd 0x0200000000000000] } : State).inputs = [.cmd 0x0200000000000000] ∧
    decode 0x0200000000000000 = .ok .reset := by decide

theorem wit_IllegalWordRecordsOnlyAnError :
    ({ State.reset with inputs := [.cmd 0] } : State).inputs = [.cmd 0] ∧ decode 0 = .error .opcode := by decide

/-- Power-on, an error kept, an error recorded. -/
theorem wit_ErrorRegisterKeepsTheFirstError :
    lands (step { State.reset with inputs := [.powerOn], ERR := 3 }) (fun t => decide (t.ERR = 0)) = true ∧
    lands (step { State.reset with inputs := [.cmd 0], ERR := 3 }) (fun t => decide (t.ERR = 3)) = true ∧
    lands (step { State.reset with inputs := [.cmd 0] }) (fun t => decide (t.ERR = 1)) = true := by decide +kernel

theorem wit_CommandsEndIdle : State.reset.BUSY = false := by decide

theorem wit_EveryCommandAnswersOnce :
    State.reset.arrivals = [] ∧ Instr.reset.cls ≠ .obs ∧ lands (exec .reset State.reset) (fun _ => true) = true := by
  decide +kernel

theorem wit_ClassesTouchOnlyTheirCells :
    State.reset.arrivals = [] ∧ (Instr.setpMix 0).cls = .ctl ∧ Instr.gets.cls = .obs ∧ Instr.reset.cls = .seq ∧
    lands (exec (.setpMix 0) State.reset) (fun _ => true) = true ∧
    lands (exec .gets State.reset) (fun _ => true) = true := by decide +kernel

theorem wit_BusyRefusesSequencerCommands :
    (Instr.process 1 1).cls = .seq ∧ ({ State.reset with BUSY := true } : State).BUSY = true := by decide

theorem wit_LandingWordsActAsCommands : ({ State.reset with BUSY := true } : State).BUSY = true := by decide

theorem wit_PowerOnSetsEveryRegister :
    State.reset.inputs = [] ∧ ({ State.reset with inputs := [.powerOn] } : State).inputs = [.powerOn] := by decide

theorem wit_HostDataAgentOwnsBufBetweenBlocks :
    Channel.ofIndex 1 = some .right ∧ 4095 < State.reset.cfg.nmax ∧ State.reset.BUSY = false ∧
    State.reset.cfg.nmax ≤ 4096 ∧ ({ State.reset with BUSY := true } : State).BUSY = true ∧
    ({ State.reset with inputs := [.bufWrite 1 4095 1] } : State).inputs = [.bufWrite 1 4095 1] ∧
    ({ State.reset with inputs := [.bufRead 2 0] } : State).inputs = [.bufRead 2 0] := by decide +kernel

/-- An infinity; below, at and above the domain of HBFREQ. -/
theorem wit_SetpStoresItsOperandClamped :
    dec32 0x7F800000 = none ∧ dec32 0x41200000 = some 10 ∧ dec32 0x42200000 = some 40 ∧
    dec32 0x43160000 = some 150 ∧ dec32 0x43480000 = some 200 := by decide +kernel

theorem wit_SetpEnumStoresTheLesserOfCodeAndTwo :
    min (0 : Word32).toNat 2 = 0 ∧ min (1 : Word32).toNat 2 = 1 ∧ min (2 : Word32).toNat 2 = 2 ∧
    min (0xFFFFFFFF : Word32).toNat 2 = 2 := by decide

theorem wit_Binary32GivesBackFiniteWords :
    dec32 0x7F7FFFFF = some 340282346638528859811704183484516925440 ∧
    (340282346638528859811704183484516925440 : ℚ) ≠ 0 := by decide +kernel

theorem wit_ResetClearsTheSignalState :
    State.reset.BUSY = false ∧ State.reset.arrivals = [] ∧ ({ State.reset with BUSY := true } : State).BUSY = true := by
  decide

theorem wit_SeedWritesOnlyTheGenerator :
    State.reset.BUSY = false ∧ State.reset.arrivals = [] ∧ State.reset.cfg.prng = .prbs31 ∧
    ({ State.reset with BUSY := true } : State).BUSY = true := by decide

/-- V-CMD-3: each refused argument, and the last accepted ones. -/
theorem wit_PrepareRefusesBadArguments :
    State.reset.BUSY = false ∧ State.reset.arrivals = [] ∧ State.reset.dp.SEQ = none ∧ dec32 0x7FC00000 = none ∧
    dec32 0xBF800000 = some (-1) ∧ (-1 : ℚ) ≤ 0 ∧ dec32 0x473B8000 = some 48000 ∧ State.reset.cfg.nmax < 4097 ∧
    dec32 0x483B8040 = some 192001 ∧ State.reset.cfg.lmax < max 4 ⌈(192001 : ℚ) / 20⌉.toNat := by decide +kernel

theorem wit_PrepareSetsUpTheBlock :
    State.reset.BUSY = false ∧ State.reset.arrivals = [] ∧ dec32 0x483B8000 = some 192000 ∧ (0 : ℚ) < 192000 ∧
    1 ≤ 4096 ∧ 4096 ≤ State.reset.cfg.nmax ∧ max 4 ⌈(192000 : ℚ) / 20⌉.toNat ≤ State.reset.cfg.lmax := by
  decide +kernel

theorem wit_PrepareCompletesWhateverLands :
    ({ State.reset with arrivals := [⟨3, 0x0409000042C80000⟩] } : State).BUSY = false ∧
    dec32 0x41200000 = some 10 ∧ (0 : ℚ) < 10 ∧ 1 ≤ 1 ∧ 1 ≤ State.reset.cfg.nmax ∧
    max 4 ⌈(10 : ℚ) / 20⌉.toNat ≤ State.reset.cfg.lmax := by decide +kernel

theorem wit_ProcessChecksInOrder :
    State.reset.BUSY = false ∧ State.reset.PREPARED = false ∧ (ready [] []).BUSY = false ∧
    (ready [] []).PREPARED = true ∧ (ready [] []).dp.BLKSZ < 5 := by decide +kernel

theorem ready_accepts (left right : Mem ℚ) (nch nsamp : Nat) (h : 1 ≤ nch ∧ nch ≤ 2 ∧ 1 ≤ nsamp ∧ nsamp ≤ 4) :
    Accepted nch nsamp (ready left right) := ⟨rfl, h.1, h.2.1, h.2.2.1, rfl, h.2.2.2⟩

/-- Two frames of two channels. -/
def two : State := ready [(0, 1 / 2), (1, -3 / 4)] [(0, 1 / 4), (1, 1 / 10)]

theorem two_filled : Filled 2 2 two := by
  rintro c n ⟨-, h⟩
  have : n = 0 ∨ n = 1 := by omega
  rcases this with rfl | rfl <;> cases c <;> decide +kernel

theorem two_filled_mono : Filled 1 2 two := fun c n h => two_filled c n ⟨by have := h.1; omega, h.2⟩

/-- The cell (1, 1) is the first without a value. -/
theorem wit_ProcessRefusesAnUnwrittenCell :
    let s := ready [(0, 1), (1, 1)] [(0, 1)]
    Accepted 2 2 s ∧ s.arrivals = [] ∧ inBlock 2 2 .right 1 ∧ bufRead s.dp .right 1 = none ∧
    (∀ e m, inBlock 2 2 e m → m < 1 ∨ (m = 1 ∧ e.index < Channel.right.index) → (bufRead s.dp e m).isSome = true) := by
  refine ⟨ready_accepts _ _ _ _ (by decide), rfl, ⟨by decide, by decide⟩, by decide +kernel, ?_⟩
  rintro e m - h
  have : m = 0 ∨ (m = 1 ∧ e = .left) := by
    rcases h with h | ⟨h, he⟩
    · exact Or.inl (by omega)
    · cases e
      · exact Or.inr ⟨h, rfl⟩
      · exact absurd he (by decide)
  rcases this with rfl | ⟨rfl, rfl⟩
  · cases e <;> decide +kernel
  · decide +kernel

theorem wit_ProcessCompletesAFilledBlock : Accepted 2 2 two ∧ Filled 2 2 two :=
  ⟨ready_accepts _ _ _ _ (by decide), two_filled⟩

theorem wit_BlockRunsOnLatchedParameters :
    Accepted 2 2 two ∧ Filled 2 2 two ∧ two.arrivals = [] ∧ two.dp.osc.MODCNT < 1000 ∧ two.dp.osc.WCUR < two.dp.L ∧
    (localsOf two.cfg two.P).enNoise = false ∧ two.dp.osc.MODCNT + 2 < 1000 ∧
    ∃ l : Locals ℚ, l.blk = localsOf two.cfg two.P :=
  ⟨ready_accepts _ _ _ _ (by decide), two_filled, rfl, by decide +kernel, by decide +kernel, by decide +kernel,
    by decide +kernel, ⟨false, localsOf two.cfg two.P, 0, ⟨0, 0⟩, 0, 0, 0, 0⟩, rfl⟩

/-- One frame of one channel over the reals. -/
noncomputable def oneReal : Over.State ℝ :=
  { realReset with
    PREPARED := true
    dp := { realReset.dp with
      FS := 80
      BLKSZ := 1
      L := 4
      BUF := ⟨[(0, 1)], []⟩ } }

theorem oneReal_runs : Accepted 1 1 oneReal ∧ Filled 1 1 oneReal ∧ oneReal.arrivals = [] ∧ oneReal.P.mix = 0 := by
  refine ⟨⟨rfl, by decide, by decide, by decide, rfl, le_refl 1⟩, ?_, rfl, Rat.cast_zero⟩
  rintro c n ⟨hc, hn⟩
  obtain rfl : n = 0 := by omega
  cases c
  · rfl
  · exact absurd hc (by decide)

theorem wit_DryPassthrough :
    (two.cfg.num ≠ .other ∧ Accepted 2 2 two ∧ Filled 2 2 two ∧ two.arrivals = [] ∧ two.P.mix = 0) ∧
    Accepted 1 1 oneReal ∧ Filled 1 1 oneReal ∧ oneReal.arrivals = [] ∧ oneReal.P.mix = 0 :=
  ⟨⟨by decide, ready_accepts _ _ _ _ (by decide), two_filled, rfl, rfl⟩, oneReal_runs⟩

theorem wit_ZerosInZerosOut :
    let s := ready [(0, 0)] []
    s.cfg.num ≠ .other ∧ Accepted 1 1 s ∧ s.arrivals = [] ∧ (∀ c n, inBlock 1 1 c n → bufRead s.dp c n = some 0) ∧
    (∀ c, s.dp.ch.get c = ⟨0, 0, 0, 0, 0, 0, []⟩) ∧ s.P.hiss = 0 ∧ (s.P.sat = 0 ∨ s.P.bias = 0) := by
  refine ⟨by decide, ready_accepts _ _ _ _ (by decide), rfl, ?_, by intro c; cases c <;> rfl, rfl, Or.inl rfl⟩
  rintro c n ⟨hc, hn⟩
  obtain rfl : n = 0 := by omega
  cases c
  · decide +kernel
  · exact absurd hc (by decide)

theorem wit_MonoLeavesTheRightChannel : Accepted 1 2 two ∧ Filled 2 2 two ∧ two.arrivals = [] :=
  ⟨ready_accepts _ _ _ _ (by decide), two_filled, rfl⟩

theorem wit_LateCommandsMissTheBlock :
    ∀ a ∈ ([⟨15, 0x0409000042C80000⟩, ⟨0, 0x0200000000000000⟩] : List Arrival).head?, 15 ≤ a.gap := by decide

/-- The clauses: a gap of 0, of 1, of 15, and one that outlasts the block; a numeric and an enum SETP, the latter with a
word that is no binary32 number. -/
theorem wit_DirtyIsNeverLost :
    let s (gap : Nat) (w : CmdWord) : State := { two with arrivals := [⟨gap, w⟩] }
    (∀ gap w, Accepted 2 2 (s gap w) ∧ Filled 2 2 (s gap w) ∧ (s gap w).arrivals = [⟨gap, w⟩]) ∧
    decode 0x0402000042480000 = .ok (.setpWarmth 0x42480000) ∧ (dec32 0x42480000).isSome = true ∧
    decode 0x040C00007FC00000 = .ok (.setpSpeed 0x7FC00000) ∧ dec32 0x7FC00000 = none ∧ 1 ≤ 1 ∧ 15 ≤ 15 ∧ 1 ≤ 1000 ∧
    ∃ l : Locals ℚ, l.blk = localsOf two.cfg two.P :=
  ⟨fun _ _ => ⟨⟨rfl, by decide, by decide, by decide, rfl, by show 2 ≤ 4; decide⟩, two_filled, rfl⟩, by decide,
    by decide +kernel, by decide, by decide +kernel, by decide, by decide, by decide,
    ⟨false, localsOf two.cfg two.P, 0, ⟨0, 0⟩, 0, 0, 0, 0⟩, rfl⟩

theorem wit_LatchMayTearAcrossParameters :
    let s : State := { two with arrivals := [⟨2, encode (.setpDrive 0x40C00000)⟩, ⟨0, encode (.setpMix 0x42C80000)⟩] }
    Accepted 2 2 s ∧ Filled 2 2 s ∧
    (letI := numOf s.cfg
     numOperand .drive 0x40C00000 = some (6 : ℚ) ∧ numOperand .mix 0x42C80000 = some (100 : ℚ)) ∧
    s.arrivals = [⟨2, encode (.setpDrive 0x40C00000)⟩, ⟨0, encode (.setpMix 0x42C80000)⟩] :=
  ⟨⟨rfl, by decide, by decide, by decide, rfl, by decide⟩, two_filled, by decide +kernel, rfl⟩

/-- The second frame alone, moved to frame 0. -/
theorem wit_SplittingABlockChangesOnlyTheTelemetry :
    Accepted 2 (1 + 1) two ∧ Filled 2 (1 + 1) two ∧ two.arrivals = [] ∧
    (∀ c k, inBlock 2 1 c k →
      Memory.read none ((⟨[(0, -3 / 4)], [(0, 1 / 10)]⟩ : Pair (Mem ℚ)).get c) k = bufRead two.dp c (1 + k)) := by
  refine ⟨ready_accepts _ _ _ _ (by decide), two_filled, rfl, ?_⟩
  rintro c k ⟨-, hk⟩
  obtain rfl : k = 0 := by omega
  cases c <;> decide +kernel

theorem wit_BlockLocalsComeFromTheSnapshot :
    State.reset.cfg.noiseLevel = .linear (1 / 100) ∧ State.reset.dp.S.hiss = 0 := by decide +kernel

/-- At the knee 0.7, above it and below -0.7: `boff` is 0 and `drive0` 3, so `y` is 2.1 times the sample. -/
theorem wit_SaturationFollowsTheFormulation :
    (halfSat .ferric).form = .ferric ∧ (halfSat .chrome).form = .chrome ∧ (halfSat .modern).form = .modern ∧
    |((1 / 3 : ℚ) + (halfSat .modern).boff) * ((halfSat .modern).drive0 * 0.7)| ≤ 0.7 ∧
    0.7 < ((1 / 2 : ℚ) + (halfSat .modern).boff) * ((halfSat .modern).drive0 * 0.7) ∧
    ((-1 / 2 : ℚ) + (halfSat .modern).boff) * ((halfSat .modern).drive0 * 0.7) < -0.7 := by decide +kernel

/-- Each clause: a bounded form; a clear memory and a zero input, without and with a bias offset. -/
theorem wit_SaturationBoundsAndBiasOffset :
    let biased := localsOf Cfg.running { State.reset.P with sat := 100, bias := 1 / 2 ^ 100 }
    (Fns.rational Cfg.running).Lawful ∧ (halfSat .modern).form ≠ .ferric ∧ (two.dp.ch.get .left).HYS = 0 ∧
    (halfSat .ferric).boff = 0 ∧ biased.boff ≠ 0 ∧ 0 ≤ biased.sat ∧ 0 < biased.drive0 :=
  ⟨Laws.rational_lawful _, by decide +kernel⟩

/-- R126 (d), the smallest biases included: an argument that the series would round to 0. -/
theorem test_tanh_of_tiny_argument :
    (0 < Num.tanh (.series 96) (1 / 2 ^ 100) && Num.tanh (.series 96) (-1 / 2 ^ 100) < 0) = true := by decide +kernel

theorem wit_FerricMemoryHasASlewLimit :
    (Fns.rational Cfg.running).Lawful ∧ (halfSat .ferric).form = .ferric ∧ 0 ≤ (halfSat .ferric).sat ∧
    (halfSat .ferric).sat ≤ 1 := ⟨Laws.rational_lawful _, by decide +kernel⟩

/-- The identity coefficients of power-on with matching history (42_filters.md R132). -/
theorem wit_FlatBiquadPassesThrough :
    let d : Datapath ℚ := { State.reset.dp with ch := ⟨⟨1, 2, 1, 2, 0, 0, []⟩, State.reset.dp.ch.right⟩ }
    d.coef.B0 = 1 ∧ d.coef.B1 = d.coef.A1 ∧ d.coef.B2 = d.coef.A2 ∧ (d.ch.get .left).X1 = (d.ch.get .left).Y1 ∧
    (d.ch.get .left).X2 = (d.ch.get .left).Y2 := by decide +kernel

theorem wit_LowpassIsAConvexStep :
    0 < two.dp.coef.LPC.get .left ∧ two.dp.coef.LPC.get .left ≤ 1 ∧ State.reset.dp.coef.LPC.get .left = 1 := by
  decide +kernel

/-- V-LFO-1: a wrap and no wrap. -/
theorem wit_PhasesWrapAtOne :
    let d : Datapath ℚ := { State.reset.dp with
      coef := { State.reset.dp.coef with WINC := 1 / 4, FINC := 0 }
      osc := ⟨3 / 4, 1 / 2, 0, 0, 0, 0⟩ }
    0 ≤ d.osc.WPH ∧ d.osc.WPH < 1 ∧ 0 ≤ d.coef.WINC ∧ d.coef.WINC < 1 ∧ 1 ≤ d.osc.WPH + d.coef.WINC ∧
    0 ≤ d.osc.FPH ∧ d.osc.FPH < 1 ∧ 0 ≤ d.coef.FINC ∧ d.coef.FINC < 1 := by decide +kernel

theorem wit_OffsetsUpdateEveryThousandthFrame :
    let d (n : Nat) : Datapath ℚ := { State.reset.dp with osc := ⟨0, 0, 1, -1, n, 0⟩ }
    (d 998).osc.MODCNT < 999 ∧ (d 999).osc.MODCNT = 999 ∧ |(d 999).osc.WRO| ≤ 1 ∧ |(d 999).osc.FRO| ≤ 1 := by
  decide +kernel

theorem wit_DelayFollowsTheModulationSum : (Fns.rational Cfg.running).Lawful ∧
    let b : BlockLocals ℚ := localsOf Cfg.running { State.reset.P with wow := 100, flutter := 50, age := 100 }
    |two.dp.osc.WRO| ≤ 1 ∧ |two.dp.osc.FRO| ≤ 1 ∧ 0 ≤ b.wowD ∧ b.wowD ≤ 1 ∧ 0 ≤ b.flutD ∧ b.flutD ≤ 1 ∧
    0 ≤ b.age ∧ b.age ≤ 1 ∧ two.dp.osc.WPH = 0 ∧ two.dp.osc.FPH = 0 := ⟨Laws.rational_lawful _, by decide +kernel⟩

theorem wit_DelayTapsStayBehindTheCursor : 0 < 4 ∧ 4 ≤ 4 ∧ 3 < 4 := by decide

theorem wit_DelayLineWritesReadsAndAdvances :
    0 < two.dp.L ∧ two.dp.osc.WCUR < two.dp.L ∧ Memory.wf (some 0) (two.dp.ch.get .left).D = true ∧ 50 ≤ two.dp.L := by
  decide +kernel

theorem wit_NoiseIsTwoScaledDraws :
    0 ≤ Cfg.running.kTilt ∧ 0 ≤ (localsOf Cfg.running { State.reset.P with hiss := 50 }).nl := by
  decide +kernel

theorem wit_HeadBumpAtZeroIsFlat :
    (Fns.rational Cfg.running).Lawful ∧ 0 < two.dp.FS ∧ 0 ≤ two.dp.S.hbamt ∧ two.dp.S.hbamt = 0 :=
  ⟨Laws.rational_lawful _, by decide +kernel⟩

theorem powerOn_inDomain : State.reset.P.InDomain := by
  intro k
  cases k <;> decide +kernel

theorem wit_LowpassCoefficientFollowsTheCutoff :
    two.dp.S.InDomain ∧ (Fns.rational Cfg.running).Lawful ∧ 0 < two.dp.FS :=
  ⟨powerOn_inDomain, Laws.rational_lawful _, by decide +kernel⟩

theorem wit_GainsAndMixAreTheFormulas :
    bufRead two.dp .left 0 = some (1 / 2) ∧ (localsOf two.cfg two.P).mix = 0 ∧
    (localsOf (wet two).cfg (wet two).P).mix = 1 := by decide +kernel

theorem realDomain : realReset.P.InDomain := by
  intro k
  have h : k.lo ≤ State.reset.P.get k ∧ State.reset.P.get k ≤ k.hi := powerOn_inDomain k
  have e : realReset.P.get k = ((State.reset.P.get k : ℚ) : ℝ) := by cases k <;> rfl
  rw [e]
  exact_mod_cast h

/-- A prepared state with a full block on its way meets the invariant, and its step is a next state; so does one over the
reals, with nothing on its port. -/
theorem wit_EveryStepKeepsTheInvariant :
    (let s : State := { two with inputs := [.cmd 0x0702000200000000] }
     s.Inv ∧ lands (step s) (fun _ => true) = true) ∧
    oneReal.Shaped ∧ oneReal.InRange ∧ realStep oneReal = .next oneReal := by
  refine ⟨⟨⟨⟨by decide, by decide, rfl, by decide, fun _ => by decide +kernel,
      ⟨Or.inr (by decide +kernel), ?_, by decide, Or.inl (by decide), by decide +kernel, ?_, rfl⟩⟩, fun _ => ?_⟩,
    by decide +kernel⟩, ?_, ?_, rfl⟩
  · intro c; cases c <;> exact ⟨rfl, rfl⟩
  · intro c; cases c <;> decide +kernel
  · exact ⟨fun g h => by cases h; decide +kernel, powerOn_inDomain, powerOn_inDomain, by decide +kernel,
      by decide +kernel, Or.inr (by decide +kernel),
      ⟨fun c => by cases c <;> decide +kernel, by decide +kernel, by decide +kernel⟩,
      ⟨by decide +kernel, by decide +kernel, by decide +kernel, by decide +kernel⟩⟩
  · refine ⟨by decide, by decide, rfl, by decide, fun _ => le_refl 1,
      ⟨Or.inr ⟨le_refl 1, by decide, le_refl 4, by decide⟩, ?_, by decide, Or.inl (show 0 < 4 by decide),
        by simp [oneReal, realReset, Over.State.powerOn, Datapath.powerOn, Cfg.reference, Prng.seedOf], ?_, rfl⟩⟩
    · intro c; cases c <;> exact ⟨rfl, rfl⟩
    · intro c; cases c <;> simp [oneReal, Pair.get, Memory.wf, Memory.below, Memory.rising, realReset,
        Over.State.powerOn, Cfg.reference]
  · have zero : ((0 : ℚ) : ℝ) = 0 := Rat.cast_zero
    have one : ((1 : ℚ) : ℝ) = 1 := Rat.cast_one
    have z (x : ℝ) (h : x = ((0 : ℚ) : ℝ)) : x = 0 := h.trans zero
    refine ⟨fun g h => ?_, realDomain, realDomain, (z _ rfl).ge, (z _ rfl).ge, Or.inr ⟨?_, ?_⟩,
      ⟨fun c => ?_, (z _ rfl).ge, (z _ rfl).ge⟩, ?_⟩
    · have : g = (((1 / 100 : ℚ)) : ℝ) := by cases h; rfl
      rw [this]; norm_num
    · show (0 : ℝ) < 80; norm_num
    · show 4 = max 4 ⌈(80 : ℝ) / 20⌉.toNat
      norm_num
    · have : oneReal.dp.coef.LPC.get c = 1 := by cases c <;> exact one
      rw [this]; norm_num
    · have osc : oneReal.dp.osc = ⟨0, 0, 0, 0, 0, 0⟩ := by
        show (⟨((0 : ℚ) : ℝ), ((0 : ℚ) : ℝ), ((0 : ℚ) : ℝ), ((0 : ℚ) : ℝ), 0, 0⟩ : Osc ℝ) = _
        rw [zero]
      constructor <;> rw [osc] <;> norm_num

end Sys2Proof.Tests
end

section
/-! PROOFS. The status word of GETS (10_state.md R42). -/

namespace Sys2Proof.Machine

section
variable {V : Type} (s : Over.State V)

/-- The status word bit by bit: the three flags from bit 0 up, then ERR from bit 8 up. -/
theorem statusWord_getLsbD (i : Nat) :
    (statusWord s).getLsbD i =
      if i = 0 then s.PREPARED else if i = 1 then s.DIRTY else if i = 2 then s.BUSY
      else decide (8 ≤ i) && s.ERR.getLsbD (i - 8) := by
  change BitVec.getLsbD (w := 16 + 8 + 5 + 1 + 1 + 1) (_ ++ _ ++ _ ++ _ ++ _ ++ _) i = _
  simp only [BitVec.getLsbD_append]
  match i with
  | 0 | 1 | 2 => simp
  | i + 3 =>
    by_cases h : i < 5
    · simp [h]
    · have inErr : s.ERR.getLsbD (i - 5) = true → i - 5 < 8 := BitVec.lt_of_getLsbD
      simpa [h, Nat.not_lt.mp h] using inErr

/-- Above the flags the status word holds ERR, from bit 8 up, and nothing else. -/
theorem statusWord_getLsbD_of_ge {i : Nat} (h : 3 ≤ i) :
    (statusWord s).getLsbD i = (decide (8 ≤ i) && s.ERR.getLsbD (i - 8)) := by
  rw [statusWord_getLsbD, if_neg (by omega), if_neg (by omega), if_neg (by omega)]

theorem statusWord_bits_7_3 : (statusWord s).extractLsb' 3 5 = 0 := by
  ext i hi
  have below : ¬8 ≤ 3 + i := by omega
  simp [statusWord_getLsbD_of_ge, below]

theorem statusWord_bits_15_8 : (statusWord s).extractLsb' 8 8 = s.ERR := by
  ext i hi
  have aboveFlags : 3 ≤ 8 + i := by omega
  simp [statusWord_getLsbD_of_ge, aboveFlags, hi]

theorem statusWord_bits_31_16 : (statusWord s).extractLsb' 16 16 = 0 := by
  ext i hi
  have aboveFlags : 3 ≤ 16 + i := by omega
  have aboveErr : s.ERR.getLsbD (16 + i - 8) = false := BitVec.getLsbD_of_ge _ _ (by omega)
  simp [statusWord_getLsbD_of_ge, aboveFlags, aboveErr]

end

/-- Settles O20: GETS answers the status word, whose fields are read off one by one. -/
theorem getsAnswersTheStatusBits : Obligations.GetsAnswersTheStatusBits := fun s =>
  ⟨statusWord s, rfl, statusWord_getLsbD s 0, statusWord_getLsbD s 1, statusWord_getLsbD s 2, statusWord_bits_7_3 s,
    statusWord_bits_15_8 s, statusWord_bits_31_16 s⟩

end Sys2Proof.Machine
end

section
/-! PROOFS. What can become of ERR (10_state.md R37, 60_exceptions.md R211): in every operation of the machine but
power-on, the first error stays. -/

namespace Sys2Proof.Machine

/-- The codes of 60_exceptions.md R210 are 1 to 5. -/
theorem errCode_mem (e : ErrCode) : 1 ≤ (errCode e).toNat ∧ (errCode e).toNat ≤ 5 := by
  cases e <;> decide

/-- What any operation but power-on makes of ERR: it stays, or it was 0 and takes the code of an error. -/
def FirstErrorKept (old new : BitVec 8) : Prop := new = old ∨ old = 0 ∧ ∃ e : ErrCode, new = errCode e

namespace FirstErrorKept

theorem of_eq {old new : BitVec 8} (h : new = old) : FirstErrorKept old new := .inl h

theorem trans {a b c : BitVec 8} (hab : FirstErrorKept a b) (hbc : FirstErrorKept b c) : FirstErrorKept a c := by
  obtain rfl | ⟨hb, e, rfl⟩ := hbc
  · exact hab
  · obtain rfl | ⟨ha, _⟩ := hab
    · exact .inr ⟨hb, e, rfl⟩
    · exact .inr ⟨ha, e, rfl⟩

theorem of_stickyErr (old : BitVec 8) (e : ErrCode) : FirstErrorKept old (stickyErr old e) := by
  unfold stickyErr
  split
  · exact .inr ⟨‹_›, e, rfl⟩
  · exact .inl rfl

theorem eq_of_ne_zero {old new : BitVec 8} (h : FirstErrorKept old new) (hold : old ≠ 0) : new = old :=
  h.resolve_right fun recorded => hold recorded.1

theorem of_changed {old new : BitVec 8} (h : FirstErrorKept old new) (hne : new ≠ old) :
    old = 0 ∧ 1 ≤ new.toNat ∧ new.toNat ≤ 5 := by
  obtain same | ⟨hold, e, rfl⟩ := h
  · exact absurd same hne
  · exact ⟨hold, errCode_mem e⟩

end FirstErrorKept

/-! ## The operations -/

section
variable {V : Type}

theorem raise_firstErrorKept (e : ErrCode) (i : Option (Nat × Nat)) (s : Over.State V) :
    FirstErrorKept s.ERR (raise e i s).ERR := .of_stickyErr _ e

theorem unlessBusy_firstErrorKept {f : Over.State V → Over.State V} {s : Over.State V}
    (hf : FirstErrorKept s.ERR (f s).ERR) : FirstErrorKept s.ERR (unlessBusy f s).ERR := by
  unfold unlessBusy
  split
  · exact raise_firstErrorKept _ _ _
  · exact hf

section
variable [NUM V]

theorem setNum_firstErrorKept (k : NumParam) (w : Word32) (s : Over.State V) :
    FirstErrorKept s.ERR (setNum k w s).ERR := by
  unfold setNum
  split
  · exact raise_firstErrorKept _ _ _
  · exact .of_eq rfl

theorem whileBusy_firstErrorKept (i : Instr) (s : Over.State V) : FirstErrorKept s.ERR (whileBusy i s).ERR := by
  cases i with
  | prepare | reset | seed | process => exact raise_firstErrorKept _ _ _
  | setpSpeed | setpForm | gettIn | gettOut | gets => exact .of_eq rfl
  | _ w => exact setNum_firstErrorKept _ w s

theorem land_firstErrorKept (w : CmdWord) (s : Over.State V) : FirstErrorKept s.ERR (land w s).ERR := by
  unfold land
  split
  · exact whileBusy_firstErrorKept _ _
  · exact raise_firstErrorKept _ _ _

theorem landDue_firstErrorKept (as : List Arrival) (s : Over.State V) : FirstErrorKept s.ERR (landDue as s).ERR := by
  induction as generalizing s with
  | nil => exact .of_eq rfl
  | cons a rest ih =>
    unfold landDue
    split
    · exact (land_firstErrorKept _ _).trans (ih _)
    · exact .of_eq rfl

theorem tick_firstErrorKept (s : Over.State V) : FirstErrorKept s.ERR (tick s).ERR := landDue_firstErrorKept _ _

theorem acquire_firstErrorKept (s : Over.State V) : FirstErrorKept s.ERR (acquire s).ERR :=
  tick_firstErrorKept { s with BUSY := true }

end

/-! ## The commands -/

variable [NUM V] [DecidableEq V]

/-- Micro-operations leave ERR alone (`run_keeps`); the words that land between them keep the first error. -/
theorem runOps_firstErrorKept (ops : List (MicroOp V)) (sl : Over.State V × Locals V) :
    FirstErrorKept sl.1.ERR (runOps ops sl).1.ERR := by
  induction ops generalizing sl with
  | nil => exact .of_eq rfl
  | cons op rest ih =>
    obtain ⟨-, -, -, hERR, -⟩ := run_keeps op sl.1 sl.2
    have landed := tick_firstErrorKept (op.run sl.1 sl.2).1
    rw [hERR] at landed
    exact landed.trans (ih _)

theorem runCommand_firstErrorKept (ops : List (MicroOp V)) (s : Over.State V) :
    FirstErrorKept s.ERR (runCommand ops s).ERR := runOps_firstErrorKept _ _

theorem runLatch_firstErrorKept (s : Over.State V) : FirstErrorKept s.ERR (runLatch s).1.ERR :=
  (runOps_firstErrorKept latchOps _).trans (runOps_firstErrorKept _ _)

theorem runBlock_firstErrorKept (nch nsamp : Nat) (p : V) (r : Over.State V × Locals V) :
    FirstErrorKept r.1.ERR (runBlock nch nsamp p r).ERR :=
  (tick_firstErrorKept r.1).trans (runOps_firstErrorKept _ _)

theorem processBody_firstErrorKept (nch nsamp : Nat) (s : Over.State V) :
    FirstErrorKept s.ERR (processBody nch nsamp s).ERR := by
  have latched := (acquire_firstErrorKept s).trans (runLatch_firstErrorKept (acquire s))
  unfold processBody
  dsimp only
  split
  · exact latched.trans (raise_firstErrorKept _ _ (release _))
  · exact latched.trans (runBlock_firstErrorKept _ _ _ _)

theorem prepare_firstErrorKept (blk : Nat) (fs : Word32) (s : Over.State V) :
    FirstErrorKept s.ERR (prepare blk fs s).ERR := by
  refine unlessBusy_firstErrorKept ?_
  split
  · exact (acquire_firstErrorKept s).trans (raise_firstErrorKept _ _ (release _))
  · exact (acquire_firstErrorKept s).trans (runCommand_firstErrorKept _ _)

theorem process_firstErrorKept (nch nsamp : Nat) (s : Over.State V) :
    FirstErrorKept s.ERR (process nch nsamp s).ERR := by
  refine unlessBusy_firstErrorKept ?_
  split_ifs
  · exact raise_firstErrorKept _ _ _
  · exact .of_eq rfl
  · exact raise_firstErrorKept _ _ _
  · exact raise_firstErrorKept _ _ _
  · exact processBody_firstErrorKept _ _ _

theorem command_firstErrorKept (i : Instr) (s : Over.State V) : FirstErrorKept s.ERR (command i s).ERR := by
  cases i with
  | prepare blk fs => exact prepare_firstErrorKept blk fs s
  | reset | seed =>
    exact unlessBusy_firstErrorKept ((acquire_firstErrorKept s).trans (runCommand_firstErrorKept _ _))
  | process nch nsamp => exact process_firstErrorKept nch nsamp s
  | setpSpeed | setpForm | gettIn | gettOut | gets => exact .of_eq rfl
  | _ w => exact setNum_firstErrorKept _ w s

/-! ## The step -/

omit [NUM V] in
theorem hostWrite_ERR {c n : Nat} {v : V} {s t : Over.State V} (h : hostWrite c n v s = .next t) : t.ERR = s.ERR := by
  unfold hostWrite at h
  split at h
  · cases h
  · split at h
    · cases h
    · cases h; rfl

omit [NUM V] [DecidableEq V] in
theorem hostRead_ERR {c n : Nat} {s t : Over.State V} (h : hostRead c n s = .next t) : t.ERR = s.ERR := by
  unfold hostRead at h
  split at h
  · cases h
  · split at h
    · cases h
    · cases h; rfl

variable {run : Instr → Over.State V → Host.Outcome (Over.State V) Fault Refusal}
  (hrun : ∀ i s t, run i s = .next t → FirstErrorKept s.ERR t.ERR)
include hrun

/-- An input other than power-on keeps the first error if the commands do. -/
theorem runInput_firstErrorKept {i : Input V} {s t : Over.State V} (hi : i ≠ .powerOn)
    (h : runInput run i s = .next t) : FirstErrorKept s.ERR t.ERR := by
  cases i with
  | cmd w =>
    simp only [runInput, runWord] at h
    split at h
    · exact hrun _ _ _ h
    · cases h; exact raise_firstErrorKept _ _ _
  | bufWrite c n v => exact .of_eq (hostWrite_ERR h)
  | bufRead c n => exact .of_eq (hostRead_ERR h)
  | powerOn => exact absurd rfl hi

theorem nextInput_firstErrorKept {s t : Over.State V} (hin : s.inputs.head? ≠ some .powerOn)
    (h : nextInput run s = .next t) : FirstErrorKept s.ERR t.ERR := by
  unfold nextInput at h
  split at h
  · cases h; exact .of_eq rfl
  · next i rest hs =>
    rw [hs, List.head?_cons, ne_eq, Option.some.injEq] at hin
    exact runInput_firstErrorKept hrun (s := { s with inputs := rest }) hin h

end

theorem exec_firstErrorKept (i : Instr) (s t : State) (h : exec i s = .next t) : FirstErrorKept s.ERR t.ERR := by
  rw [exec_eq_command] at h
  cases h
  let := numOf s.cfg
  exact command_firstErrorKept i s

/-- Every step but power-on keeps the first error, whatever lands in it. -/
theorem step_firstErrorKept {s t : State} (hin : s.inputs.head? ≠ some .powerOn) (h : step s = .next t) :
    FirstErrorKept s.ERR t.ERR :=
  letI := numOf s.cfg
  nextInput_firstErrorKept exec_firstErrorKept hin h

theorem step_powerOn_ERR {s t : State} (hin : s.inputs.head? = some .powerOn) (h : step s = .next t) : t.ERR = 0 := by
  obtain ⟨rest, hs⟩ := List.head?_eq_some_iff.mp hin
  simp only [step, nextInput, hs, runInput] at h
  cases h
  rfl

/-- Settles O9: `step_firstErrorKept` for every step but power-on, which clears ERR. -/
theorem errorRegisterKeepsTheFirstError : Obligations.ErrorRegisterKeepsTheFirstError :=
  ⟨rfl, fun _ _ h => ⟨fun hin => step_powerOn_ERR hin h, fun hin => (step_firstErrorKept hin h).eq_of_ne_zero,
    fun hin => (step_firstErrorKept hin h).of_changed⟩⟩

end Sys2Proof.Machine
end

section
/-! PROOFS. The binary32 value of a word (30_encoding.md R82): `dec32` field by field. Its two branches of normal words,
a quotient by a power of two below exponent 150 and a product from there up, are one formula in integer powers of two. -/

namespace Sys2Proof

theorem mkRat_two_pow (z : ℤ) (n : ℕ) : mkRat z (2 ^ n) = z * (2 : ℚ) ^ (-(n : ℤ)) := by
  rw [Rat.mkRat_eq_div, zpow_neg, zpow_natCast, Nat.cast_pow, Nat.cast_ofNat, div_eq_mul_inv]

/-- A biased exponent from 150 up scales by a natural power of two. -/
theorem two_pow_sub_eq_zpow {e k : ℕ} (h : k ≤ e) : ((2 ^ (e - k) : ℕ) : ℚ) = 2 ^ ((e : ℤ) - k) := by
  rw [← Nat.cast_sub h, zpow_natCast, Nat.cast_pow, Nat.cast_ofNat]

section
variable {w : Word32}

theorem dec32_of_nonfinite (h : (w.extractLsb' 23 8).toNat = 255) : dec32 w = none := if_pos h

theorem dec32_of_subnormal (h : (w.extractLsb' 23 8).toNat = 0) :
    dec32 w = some ((if w.getLsbD 31 then -1 else 1) * (w.extractLsb' 0 23).toNat * (2 : ℚ) ^ (-149 : ℤ)) := by
  have finite : (w.extractLsb' 23 8).toNat ≠ 255 := by omega
  simp only [dec32, if_neg finite, if_pos h, mkRat_two_pow]
  push_cast
  rfl

theorem dec32_of_normal (h₀ : 0 < (w.extractLsb' 23 8).toNat) (h₁ : (w.extractLsb' 23 8).toNat < 255) :
    dec32 w = some ((if w.getLsbD 31 then -1 else 1) * (2 ^ 23 + (w.extractLsb' 0 23).toNat) *
      (2 : ℚ) ^ (((w.extractLsb' 23 8).toNat : ℤ) - 150)) := by
  simp only [dec32, if_neg h₁.ne, if_neg h₀.ne']
  split
  next below =>
    have exponent : (-((150 - (w.extractLsb' 23 8).toNat : ℕ) : ℤ)) = (w.extractLsb' 23 8).toNat - 150 := by omega
    rw [mkRat_two_pow, exponent]
    push_cast
    rfl
  next above =>
    rw [Int.cast_mul, Int.cast_natCast, two_pow_sub_eq_zpow (Nat.not_lt.mp above)]
    push_cast
    rfl

end

/-- Settles O5: the three ranges of the exponent field, one lemma each. -/
theorem dec32IsTheBinary32Value : Obligations.Dec32IsTheBinary32Value :=
  fun _ => ⟨dec32_of_nonfinite, dec32_of_subnormal, dec32_of_normal⟩

end Sys2Proof
end

section
/-! PROOFS. SETP (30_encoding.md R84, R85, 46_commands.md R194): the twelve numeric parameters as one operation on the
parameter's index, and the two enum parameters. -/

namespace Sys2Proof.Machine

/-- The twelve numeric SETPs are one operation. -/
theorem exec_setpOf (k : NumParam) (w : Word32) (s : State) :
    exec (setpOf k w) s = .next (letI := numOf s.cfg; setNum k w s) := by
  cases k <;> rfl

/-! ## The parameter table (10_state.md R30) -/

theorem NumParam.lo_eq (k : NumParam) :
    k.lo = if k = .drive ∨ k = .outgain then -12 else if k = .hbfreq then 40 else 0 := by
  cases k <;> rfl

theorem NumParam.hi_eq (k : NumParam) :
    k.hi = if k = .drive ∨ k = .outgain then 12 else if k = .hbfreq then 150 else 100 := by
  cases k <;> rfl

theorem NumParam.lo_le_hi (k : NumParam) : k.lo ≤ k.hi := by
  cases k <;> decide +kernel

theorem setsDirty_num (k : NumParam) : setsDirty (.num k) = [2, 3, 4, 10].contains k.index := by
  cases k <;> rfl

/-! ## The operand -/

section
variable {V : Type} [NUM V] {w : Word32} (k : NumParam) (s : Over.State V)

theorem setNum_of_nonfinite (h : dec32 w = none) : setNum k w s = refusedWith 4 s := by
  rw [setNum, numOperand, h]
  rfl

theorem setNum_of_finite {v : ℚ} (h : dec32 w = some v) :
    setNum k w s = respond 0 { s with
      P := s.P.set k (clamp (NUM.lit v) (NUM.lit k.lo) (NUM.lit k.hi))
      DIRTY := s.DIRTY || setsDirty (.num k) } := by
  rw [setNum, numOperand, h]
  rfl

end

/-- In the domain of a configuration the clamp compares its arguments as they stand: constants are themselves. -/
theorem clamp_lit_numOf (c : Cfg ℚ) (v lo hi : ℚ) :
    (letI := numOf c; clamp (NUM.lit v) (NUM.lit lo) (NUM.lit hi) : ℚ) =
      if (numOf c).lt v lo then lo else if (numOf c).lt hi v then hi else v := by
  simp only [clamp, Laws.lit_numOf]

/-- In exact arithmetic the clamp is the order's. -/
theorem clamp_eq_max_min {c : Cfg ℚ} (hc : c.num ≠ .other) (v : ℚ) {lo hi : ℚ} (h : lo ≤ hi) :
    (if (numOf c).lt v lo then lo else if (numOf c).lt hi v then hi else v) = max lo (min v hi) := by
  rw [Laws.numOf_eq_exact hc]
  simp only [Laws.lt_exact, decide_eq_true_eq]
  split_ifs with below above
  · rw [min_eq_left (below.le.trans h), max_eq_left below.le]
  · rw [min_eq_right above.le, max_eq_right h]
  · rw [min_eq_left (not_lt.mp above), max_eq_right (not_lt.mp below)]

/-- Settles O17: `setNum_of_finite` read off register by register, with the table's values for the domain and for the
parameters that set DIRTY. -/
theorem setpStoresItsOperandClamped : Obligations.SetpStoresItsOperandClamped := by
  intro k w s lt lo hi
  let := numOf s.cfg
  rw [exec_setpOf]
  refine ⟨fun h => by rw [setNum_of_nonfinite k s h], fun v h => ?_⟩
  have loEq : k.lo = lo := k.lo_eq
  have hiEq : k.hi = hi := k.hi_eq
  have stored : (setNum k w s).P.get k = if lt v lo then lo else if lt hi v then hi else v := by
    rw [setNum_of_finite k s h, respond_P, get_set_same, clamp_lit_numOf, loEq, hiEq]
  have ordered : lo ≤ hi := loEq ▸ hiEq ▸ k.lo_le_hi
  refine ⟨setNum k w s, rfl, stored, fun hc => stored.trans (clamp_eq_max_min hc v ordered), ?_⟩
  rw [setNum_of_finite k s h, ← setsDirty_num]
  exact ⟨fun j hj => by rw [respond_P, get_set, if_neg hj], set_speed _ _ _, set_form _ _ _, rfl, rfl⟩

/-! ## The enum parameters -/

section
variable {V : Type} (w : Word32) (s : Over.State V)

theorem setSpeed_eq : setSpeed w s = { s with
    P := { s.P with speed := Speed.ofCode (min w.toNat 2) }, DIRTY := true, out := answer 0 0 :: s.out } := by
  rw [setSpeed, setsDirty, Bool.or_true]
  rfl

theorem setForm_eq : setForm w s = { s with
    P := { s.P with form := Form.ofCode (min w.toNat 2) }, DIRTY := true, out := answer 0 0 :: s.out } := by
  rw [setForm, setsDirty, Bool.or_true]
  rfl

end

/-- Settles O18: the stored code is `min(w, 2)`, and each code names its variant. -/
theorem setpEnumStoresTheLesserOfCodeAndTwo : Obligations.SetpEnumStoresTheLesserOfCodeAndTwo := fun w s =>
  ⟨⟨Speed.ofCode (min w.toNat 2), congrArg _ (setSpeed_eq w s), congrArg Speed.ofCode, congrArg Speed.ofCode,
      congrArg Speed.ofCode⟩,
    ⟨Form.ofCode (min w.toNat 2), congrArg _ (setForm_eq w s), congrArg Form.ofCode, congrArg Form.ofCode,
      congrArg Form.ofCode⟩⟩

end Sys2Proof.Machine
end

section
/-! PROOFS. The coefficient mapper in exact arithmetic (40_coefficient_mapper.md): the rates MAP.LFO draws and MAP.HB's
peaking formula. -/

namespace Sys2Proof.Machine

/-! ## MAP.LFO (R107) -/

section
variable {V : Type} [NUM V]

open NUM (lit le)

/-- The wow rate in Hz that MAP.LFO forms from two draws, the first from `r` (40_coefficient_mapper.md R107). -/
def wowRate (r : RngState) : V :=
  (lit (1 / 2) + lit (1 / 2) * Prng.value01 r) + (lit (-1 / 2) + lit 1 * Prng.value01 (Prng.advance r))

/-- The flutter rate in Hz that MAP.LFO forms from two draws, the first from `r` (40_coefficient_mapper.md R107). -/
def flutterRate (r : RngState) : V :=
  (lit 10 + lit 5 * Prng.value01 r) + (lit (-5) + lit 10 * Prng.value01 (Prng.advance r))

/-- The guard decides the two increments only: the draws are made on both sides of it. -/
theorem mapLFO_eq (d : Datapath V) : mapLFO d = { d with
    RNG := afterFourDraws d.RNG
    coef := { d.coef with
      WINC := if le d.FS (lit 0) then lit 0 else wowRate d.RNG / d.FS
      FINC := if le d.FS (lit 0) then lit 0 else flutterRate (Prng.advance (Prng.advance d.RNG)) / d.FS } } := by
  by_cases guard : le d.FS (lit 0) = true
  · simp only [mapLFO, draw01, guard, if_true]
    rfl
  · simp only [mapLFO, draw01, guard]
    rfl

end

section
variable {V : Type} [Field V] [LinearOrder V] [FloorRing V] (F : Fns V)

theorem value01_exact (r : RngState) : letI := NUM.exact F; (Prng.value01 r : V) = (F.draw r + 1) / 2 := by
  simp only [Prng.value01, Laws.lit_exact, Rat.cast_one, Rat.cast_ofNat]
  rfl

theorem wowRate_exact (r : RngState) : letI := NUM.exact F;
    (wowRate r : V) = (0.5 + 0.5 * ((F.draw r + 1) / 2)) + (-0.5 + 1.0 * ((F.draw (Prng.advance r) + 1) / 2)) := by
  simp only [wowRate, value01_exact, Laws.lit_exact]
  norm_num

theorem flutterRate_exact (r : RngState) : letI := NUM.exact F;
    (flutterRate r : V) = (10 + 5 * ((F.draw r + 1) / 2)) + (-5 + 10 * ((F.draw (Prng.advance r) + 1) / 2)) := by
  simp only [flutterRate, value01_exact, Laws.lit_exact]
  norm_num

variable [IsStrictOrderedRing V]

theorem draw01_mem (r : RngState) : 0 ≤ (F.draw r + 1) / 2 ∧ (F.draw r + 1) / 2 < 1 :=
  value01_exact F r ▸ Laws.value01_mem F r

/-- The wow rate is in [0, 1.5) Hz (R107). -/
theorem wowRate_mem (r : RngState) : letI := NUM.exact F; (0 : V) ≤ wowRate r ∧ (wowRate r : V) < 1.5 := by
  obtain ⟨base, base'⟩ := draw01_mem F r
  obtain ⟨jitter, jitter'⟩ := draw01_mem F (Prng.advance r)
  rw [wowRate_exact]
  constructor <;> linarith

/-- The flutter rate is in [5, 20) Hz (R107). -/
theorem flutterRate_mem (r : RngState) : letI := NUM.exact F; (5 : V) ≤ flutterRate r ∧ (flutterRate r : V) < 20 := by
  obtain ⟨base, base'⟩ := draw01_mem F r
  obtain ⟨jitter, jitter'⟩ := draw01_mem F (Prng.advance r)
  rw [flutterRate_exact]
  constructor <;> linarith

end

/-- Settles O57: the equation of MAP.LFO, and the rates' ranges from those of their draws. -/
theorem oscillatorRatesAreDrawnInRange : Obligations.OscillatorRatesAreDrawnInRange := by
  intro V _ _ _ _ F s l r1 r2 r3 u1 u2 u3 u4 wow flutter
  let := NUM.exact F
  have wowEq : wowRate s.dp.RNG = wow := wowRate_exact F _
  have flutterEq : flutterRate r2 = flutter := flutterRate_exact F _
  have written : F.run .mapLFO s l = ({ s with dp := mapLFO s.dp }, l) := rfl
  refine ⟨?_, ?_⟩
  · rw [written, mapLFO_eq, wowEq, flutterEq]
    simp only [Laws.lit_exact, Laws.le_exact, decide_eq_true_eq, Rat.cast_zero]
    rfl
  · rw [← wowEq, ← flutterEq, ← and_assoc]
    exact ⟨wowRate_mem F _, flutterRate_mem F _⟩

/-! ## MAP.HB (R104) -/

section
variable {V : Type} [Field V] [LinearOrder V] [FloorRing V] (F : Fns V)

/-- MAP.HB in exact arithmetic, at the centre frequency and the gain that the snapshot gives. -/
theorem mapHB_exact (d : Datapath V) : letI := NUM.exact F;
    mapHB d = { d with coef :=
      if d.FS ≤ 0 then { d.coef with B0 := 1, B1 := 0, B2 := 0, A1 := 0, A2 := 0 }
      else
        let A := F.pow10 (bumpGain d.S / 40)
        let w0 := 2 * F.pi * bumpFreq d.S / d.FS
        let alpha := F.sin w0 / (2 * 1.5)
        let a0 := 1 + alpha / A
        { d.coef with
          B0 := (1 + alpha * A) / a0
          B1 := -2 * F.cos w0 / a0
          B2 := (1 - alpha * A) / a0
          A1 := -2 * F.cos w0 / a0
          A2 := (1 - alpha / A) / a0 } } := by
  by_cases guard : d.FS ≤ 0
  · simp [mapHB, guard]
  · have width : ((3 / 2 : ℚ) : V) = 1.5 := by norm_num
    simp [mapHB, guard, width]

end

/-- Settles O54: the variant tables entry by entry, then the formula. -/
theorem headBumpFollowsThePeakingFormula : Obligations.HeadBumpFollowsThePeakingFormula := by
  intro V _ _ _ _ F s l p speedTable formTable f f0 gdb A w0 alpha cosw a0
  let := NUM.exact F
  have speedEq : speedMult p.speed = speedTable := by
    simp only [speedTable]
    cases p.speed <;> norm_num [speedMult]
  have formEq : formGain p.form = formTable := by
    simp only [formTable]
    cases p.form <;> norm_num [formGain]
  have freqEq : bumpFreq p = f0 := by
    rw [bumpFreq, Laws.clamp_exact, speedEq]
    simp only [Laws.lit_exact, Rat.cast_ofNat]
    rfl
  have gainEq : bumpGain p = gdb := by
    rw [bumpGain, formEq]
    simp only [Laws.lit_exact, Rat.cast_ofNat]
    rfl
  have written : F.run .mapHB s l = ({ s with dp := mapHB s.dp }, l) := rfl
  rw [written, mapHB_exact, freqEq, gainEq]

end Sys2Proof.Machine
end

section
/-! PROOFS. The saturation stage in exact arithmetic (41_saturation.md): the stage's effect on the state, its
equations per formulation, and softclip range by range. -/

namespace Sys2Proof.Machine

/-! ## The selection (R120) -/

section
variable {V : Type} [NUM V] {b : BlockLocals V}

theorem satStage_of_ferric (h : b.form = .ferric) : satStage b = satA b := by rw [satStage, h]

theorem satStage_of_chrome (h : b.form = .chrome) : satStage b = satB b := by rw [satStage, h]

theorem satStage_of_modern (h : b.form = .modern) : satStage b = satM b := by rw [satStage, h]

end

section
variable {V : Type} [Field V] [LinearOrder V] [FloorRing V] (F : Fns V)

/-- The stage writes HYS[c] and the sample with the two parts of `satStage`, and nothing else. -/
theorem run_saturate (c : Channel) (s : Over.State V) (l : Locals V) : letI := NUM.exact F;
    let r := satStage l.blk (s.dp.ch.get c).HYS l.x
    F.run (.saturate c) s l =
      ({ s with dp := { s.dp with ch := s.dp.ch.set c { s.dp.ch.get c with HYS := r.1 } } }, { l with x := r.2 }) :=
  rfl

/-! ## The formulations (R122 to R124) -/

section
variable (b : BlockLocals V) (hys xIn : V)

theorem satA_exact_memory : letI := NUM.exact F;
    (satA b hys xIn).1 = hys + F.tanh (((xIn + b.boff) * (b.drive0 * 1.3) - hys) * (1 + 3 * b.sat)) / (1 + 3 * b.sat) *
      (0.3 + 0.4 * b.sat) := by
  simp only [satA, Laws.lit_exact, Laws.tanh_exact]
  norm_num

theorem satA_exact_output : letI := NUM.exact F; (satA b hys xIn).2 = (satA b hys xIn).1 * 0.8 := by
  have scale : ((4 / 5 : ℚ) : V) = 0.8 := by norm_num
  simp only [satA, Laws.lit_exact, scale]

theorem satB_exact_output : letI := NUM.exact F;
    (satB b hys xIn).2 = F.tanh ((xIn + b.boff) * (b.drive0 * 0.9)) := by
  have gain : ((9 / 10 : ℚ) : V) = 0.9 := by norm_num
  simp only [satB, Laws.lit_exact, Laws.tanh_exact, gain]

theorem satB_exact_memory : letI := NUM.exact F;
    (satB b hys xIn).1 = 0.9 * hys + 0.1 * (satB b hys xIn).2 := by
  have retain : ((9 / 10 : ℚ) : V) = 0.9 := by norm_num
  have new : ((1 / 10 : ℚ) : V) = 0.1 := by norm_num
  simp only [satB, Laws.lit_exact, retain, new]

theorem satM_exact_output : letI := NUM.exact F;
    (satM b hys xIn).2 = softclip ((xIn + b.boff) * (b.drive0 * 0.7)) := by
  have gain : ((7 / 10 : ℚ) : V) = 0.7 := by norm_num
  simp only [satM, Laws.lit_exact, gain]

theorem satM_exact_memory : letI := NUM.exact F;
    (satM b hys xIn).1 = 0.95 * hys + 0.05 * (satM b hys xIn).2 := by
  have retain : ((19 / 20 : ℚ) : V) = 0.95 := by norm_num
  have new : ((1 / 20 : ℚ) : V) = 0.05 := by norm_num
  simp only [satM, Laws.lit_exact, retain, new]

end

/-! ## softclip (R125) -/

theorem sgn_exact_of_pos {x : V} (h : 0 < x) : letI := NUM.exact F; sgn x = 1 := by simp [sgn, h]

theorem sgn_exact_of_neg {x : V} (h : x < 0) : letI := NUM.exact F; sgn x = -1 := by simp [sgn, h.not_gt]

/-- The definition of softclip with its threshold written out. -/
theorem softclip_exact (x : V) : letI := NUM.exact F;
    softclip x = if |x| ≤ 0.7 then x else sgn x * (0.7 + 0.3 * F.tanh ((|x| - 0.7) / 0.3)) := by
  have threshold : ((7 / 10 : ℚ) : V) = 0.7 := by norm_num
  have rest : (1 : V) - 0.7 = 0.3 := by norm_num
  simp only [softclip, Laws.lit_exact, Laws.le_exact, Laws.abs_exact, Laws.tanh_exact, decide_eq_true_eq, threshold,
    Rat.cast_one, rest]

variable {x : V}

theorem softclip_exact_of_abs_le (h : |x| ≤ 0.7) : letI := NUM.exact F; softclip x = x := by
  rw [softclip_exact, if_pos h]

variable [IsStrictOrderedRing V]

theorem softclip_exact_of_gt (h : 0.7 < x) : letI := NUM.exact F;
    softclip x = 0.7 + 0.3 * F.tanh ((x - 0.7) / 0.3) := by
  have pos : 0 < x := by linarith
  rw [softclip_exact, abs_of_pos pos, if_neg h.not_ge, sgn_exact_of_pos F pos, one_mul]

theorem softclip_exact_of_lt (h : x < -0.7) : letI := NUM.exact F;
    softclip x = -(0.7 + 0.3 * F.tanh ((-x - 0.7) / 0.3)) := by
  have neg : x < 0 := by linarith
  have outside : ¬-x ≤ 0.7 := by linarith
  rw [softclip_exact, abs_of_neg neg, if_neg outside, sgn_exact_of_neg F neg, neg_one_mul]

end

/-- Settles O41: the stage's frame, then each formulation by its equations, softclip in the three ranges of its
argument. -/
theorem saturationFollowsTheFormulation : Obligations.SaturationFollowsTheFormulation := by
  intro V _ _ _ _ F c s l
  let := NUM.exact F
  refine ⟨_, _, run_saturate F c s l, fun ferric => ?_, fun chrome => ?_, fun modern => ?_⟩
  · rw [satStage_of_ferric ferric]
    exact ⟨satA_exact_memory F _ _ _, satA_exact_output F _ _ _⟩
  · rw [satStage_of_chrome chrome]
    exact ⟨satB_exact_output F _ _ _, satB_exact_memory F _ _ _⟩
  · rw [satStage_of_modern modern, satM_exact_memory, satM_exact_output]
    exact ⟨softclip_exact_of_abs_le F, softclip_exact_of_gt F, softclip_exact_of_lt F, rfl⟩

end Sys2Proof.Machine
end

section
/-! PROOFS. The coloration filters in exact arithmetic (42_filters.md): BQ's effect on the state and the sample. -/

namespace Sys2Proof.Machine

section
variable {V : Type} [Field V] [LinearOrder V] [FloorRing V] (F : Fns V)

/-- The value BQ returns (R131), in the left-to-right order of the model's sum. -/
theorem biquad_exact_output (c : Channel) (x : V) (d : Datapath V) : letI := NUM.exact F;
    (biquad c x d).2 = d.coef.B0 * x + d.coef.B1 * (d.ch.get c).X1 + d.coef.B2 * (d.ch.get c).X2 -
      d.coef.A1 * (d.ch.get c).Y1 - d.coef.A2 * (d.ch.get c).Y2 :=
  rfl

/-- BQ shifts the four histories of its channel (R131) and keeps the rest of the datapath. -/
theorem biquad_exact_datapath (c : Channel) (x : V) (d : Datapath V) : letI := NUM.exact F;
    (biquad c x d).1 = { d with ch := d.ch.set c { d.ch.get c with
      X1 := x, X2 := (d.ch.get c).X1, Y1 := (biquad c x d).2, Y2 := (d.ch.get c).Y1 } } :=
  rfl

/-- The micro-operation writes the two parts of `biquad` to the datapath and the sample, and nothing else. -/
theorem run_biquad (c : Channel) (s : Over.State V) (l : Locals V) : letI := NUM.exact F;
    F.run (.biquad c) s l = ({ s with dp := (biquad c l.x s.dp).1 }, { l with x := (biquad c l.x s.dp).2 }) :=
  rfl

end

/-- Settles O44: the micro-operation's frame, then the shift of the histories, then the sum. -/
theorem biquadIsTheDifferenceEquation : Obligations.BiquadIsTheDifferenceEquation := by
  intro V _ _ _ _ F c s l h k y
  rw [run_biquad, biquad_exact_datapath, biquad_exact_output]

end Sys2Proof.Machine
end

section
/-! PROOFS. The pitch-modulation engine in exact arithmetic (43_pitch_modulation.md): the phases, the random offsets, the
modulation sum and the delay, and the delay line. -/

namespace Sys2Proof.Machine

/-! ## The phases (R141) -/

/-- For two summands in [0, 1) the wrap is one subtraction. -/
theorem fract_add_eq_ite {V : Type} [Field V] [LinearOrder V] [IsStrictOrderedRing V] [FloorRing V] {p i : V}
    (hp : 0 ≤ p) (hp' : p < 1) (hi : 0 ≤ i) (hi' : i < 1) :
    Int.fract (p + i) = if 1 ≤ p + i then p + i - 1 else p + i := by
  split_ifs with wraps
  · have whole : ⌊p + i⌋ = 1 := Int.floor_eq_iff.mpr ⟨by simpa using wraps, by push_cast; linarith⟩
    rw [Int.fract, whole, Int.cast_one]
  · exact Int.fract_eq_self.mpr ⟨add_nonneg hp hi, not_le.mp wraps⟩

section
variable {V : Type} [Field V] [LinearOrder V] [FloorRing V] (F : Fns V)

theorem run_lfoAdv (s : Over.State V) (l : Locals V) :
    F.run .lfoAdv s l = ({ s with dp := { s.dp with osc := { s.dp.osc with
      WPH := Int.fract (s.dp.osc.WPH + s.dp.coef.WINC)
      FPH := Int.fract (s.dp.osc.FPH + s.dp.coef.FINC) } } }, l) := by
  let := NUM.exact F
  rw [← Laws.frac_exact F, ← Laws.frac_exact F]
  rfl

end

/-- Settles O47: both phases are fractional parts of a sum. -/
theorem phasesWrapAtOne : Obligations.PhasesWrapAtOne := fun _ _ _ _ _ F s l =>
  ⟨run_lfoAdv F s l, Int.fract_nonneg _, Int.fract_lt_one _, Int.fract_nonneg _, Int.fract_lt_one _, fract_add_eq_ite,
    fract_add_eq_ite⟩

/-! ## The random offsets (R142) -/

section
variable {V : Type} [NUM V] {d : Datapath V}

theorem lfoRnd_of_lt (h : d.osc.MODCNT < 999) :
    lfoRnd d = { d with osc := { d.osc with MODCNT := d.osc.MODCNT + 1 } } :=
  if_neg (by rw [Config.rndPeriod]; omega)

/-- In the frame that brings the counter to its period, two draws blend into the offsets, the wow's first. -/
theorem lfoRnd_of_ge (h : 999 ≤ d.osc.MODCNT) : lfoRnd d = { d with
    RNG := Prng.advance (Prng.advance d.RNG)
    osc := { d.osc with
      MODCNT := 0
      WRO := NUM.lit (99 / 100) * d.osc.WRO + NUM.lit (1 / 100) * Prng.value d.RNG
      FRO := NUM.lit (99 / 100) * d.osc.FRO + NUM.lit (1 / 100) * Prng.value (Prng.advance d.RNG) } } :=
  if_pos (by rw [Config.rndPeriod]; omega)

end

section
variable {V : Type} [Field V] [LinearOrder V] [FloorRing V] (F : Fns V)

theorem run_lfoRnd_of_lt {s : Over.State V} (l : Locals V) (h : s.dp.osc.MODCNT < 999) :
    F.run .lfoRnd s l = ({ s with dp := { s.dp with osc := { s.dp.osc with MODCNT := s.dp.osc.MODCNT + 1 } } }, l) :=
  letI := NUM.exact F
  congrArg (fun d => ({ s with dp := d }, l)) (lfoRnd_of_lt h)

theorem run_lfoRnd_of_ge {s : Over.State V} (l : Locals V) (h : 999 ≤ s.dp.osc.MODCNT) :
    F.run .lfoRnd s l = ({ s with dp := { s.dp with
      RNG := Prng.advance (Prng.advance s.dp.RNG)
      osc := { s.dp.osc with
        MODCNT := 0
        WRO := 0.99 * s.dp.osc.WRO + 0.01 * F.draw s.dp.RNG
        FRO := 0.99 * s.dp.osc.FRO + 0.01 * F.draw (Prng.advance s.dp.RNG) } } }, l) := by
  let := NUM.exact F
  have retain : (NUM.lit (99 / 100) : V) = 0.99 := by rw [Laws.lit_exact]; norm_num
  have new : (NUM.lit (1 / 100) : V) = 0.01 := by rw [Laws.lit_exact]; norm_num
  have written : F.run .lfoRnd s l = ({ s with dp := lfoRnd s.dp }, l) := rfl
  rw [written, lfoRnd_of_ge h, retain, new]
  rfl

variable [IsStrictOrderedRing V]

/-- An offset in [-1, 1] blended with a draw is in [-1, 1]. -/
theorem abs_blend_draw_le {x : V} (h : |x| ≤ 1) (r : RngState) : |0.99 * x + 0.01 * F.draw r| ≤ 1 := by
  obtain ⟨lo, hi⟩ := abs_le.mp h
  obtain ⟨drawLo, drawHi⟩ : -1 ≤ F.draw r ∧ F.draw r < 1 := Laws.value_mem F r
  exact abs_le.mpr ⟨by linarith, by linarith⟩

end

/-- Settles O48: the two sides of the counter's comparison. -/
theorem offsetsUpdateEveryThousandthFrame : Obligations.OffsetsUpdateEveryThousandthFrame := by
  intro V _ _ _ _ F s l o r t
  refine ⟨run_lfoRnd_of_lt F l, fun h => run_lfoRnd_of_ge F l h.ge, fun wow flutter => ?_⟩
  obtain below | reached := Nat.lt_or_ge o.MODCNT 999
  · simp only [t, run_lfoRnd_of_lt F l below]
    exact ⟨wow, flutter⟩
  · simp only [t, run_lfoRnd_of_ge F l reached]
    exact ⟨abs_blend_draw_le F wow _, abs_blend_draw_le F flutter _⟩

/-! ## The modulation sum and the delay (R143, R144) -/

section
variable {V : Type} [Field V] [LinearOrder V] [FloorRing V] (F : Fns V)

theorem delaySamples_exact (c : Cfg V) (FS : V) (L : Nat) (tot : V) : letI := NUM.exact F;
    delaySamples c FS L tot =
      let ds := (10 + c.kModMs * tot) * FS / 1000
      if ds < 1 then 1 else if (L : V) - 2 < ds then (L : V) - 2 else ds := by
  simp only [delaySamples, Laws.clamp_exact, Laws.ofInt_exact, Laws.lit_exact, Config.delayBaseMs, Rat.cast_ofNat,
    Rat.cast_one, Int.cast_natCast]

theorem run_lfoMod (s : Over.State V) (l : Locals V) : letI := NUM.exact F;
    F.run .lfoMod s l = (s, { l with ds := delaySamples s.cfg s.dp.FS s.dp.L (modSum l.blk s.dp.osc) }) :=
  rfl

theorem modSum_exact (b : BlockLocals V) (o : Osc V) : letI := NUM.exact F;
    modSum b o =
      (b.wowD * (F.sin (2 * F.pi * o.WPH) + o.WRO * F.sin (1.7 * (2 * F.pi) * o.WPH)) +
        b.flutD * (F.sin (2 * F.pi * o.FPH) + o.FRO * F.sin (2.3 * (2 * F.pi) * o.FPH))) * (1 + 0.5 * b.age) := by
  have wowRatio : ((17 / 10 : ℚ) : V) = 1.7 := by norm_num
  have flutterRatio : ((23 / 10 : ℚ) : V) = 2.3 := by norm_num
  have half : ((1 / 2 : ℚ) : V) = 0.5 := by norm_num
  simp only [modSum, Laws.lit_exact, Laws.pi_exact, Laws.sin_exact, wowRatio, flutterRatio, half, Rat.cast_one,
    Rat.cast_ofNat]

end

section
variable {V : Type} [Field V] [LinearOrder V] [IsStrictOrderedRing V]

/-- An oscillator's two sines, the second scaled by an offset in [-1, 1], add to at most 2 in magnitude. -/
theorem abs_sin_add_mul_sin_le {F : Fns V} (hF : F.Lawful) {r : V} (hr : |r| ≤ 1) (x y : V) :
    |F.sin x + r * F.sin y| ≤ 2 := by
  have scaled : |r * F.sin y| ≤ 1 := abs_mul r _ ▸ mul_le_one₀ hr (abs_nonneg _) (hF.sin_le y)
  linarith [abs_add_le (F.sin x) (r * F.sin y), hF.sin_le x]

/-- Two oscillators of magnitude at most 2, weighted by depths from 0 up and the age factor (R143). -/
theorem abs_weighted_sum_le {wowD flutD age p q : V} (hw : 0 ≤ wowD) (hf : 0 ≤ flutD) (ha : 0 ≤ age)
    (hp : |p| ≤ 2) (hq : |q| ≤ 2) :
    |(wowD * p + flutD * q) * (1 + 0.5 * age)| ≤ (2 * wowD + 2 * flutD) * (1 + age / 2) := by
  have factor : 0 ≤ 1 + 0.5 * age := by positivity
  have sum : |wowD * p + flutD * q| ≤ 2 * wowD + 2 * flutD :=
    calc |wowD * p + flutD * q| ≤ |wowD * p| + |flutD * q| := abs_add_le _ _
      _ = wowD * |p| + flutD * |q| := by rw [abs_mul, abs_mul, abs_of_nonneg hw, abs_of_nonneg hf]
      _ ≤ wowD * 2 + flutD * 2 := by gcongr
      _ = 2 * wowD + 2 * flutD := by ring
  calc |(wowD * p + flutD * q) * (1 + 0.5 * age)| = |wowD * p + flutD * q| * (1 + 0.5 * age) := by
        rw [abs_mul, abs_of_nonneg factor]
    _ ≤ (2 * wowD + 2 * flutD) * (1 + 0.5 * age) := by gcongr
    _ = (2 * wowD + 2 * flutD) * (1 + age / 2) := by ring

end

/-- Settles O49: the model's formulas written out, then the bound from the two oscillators and the zero from sin(0). -/
theorem delayFollowsTheModulationSum : Obligations.DelayFollowsTheModulationSum := by
  intro V _ _ _ _ F s l b o wowMod flutMod tot ds len
  refine ⟨?_, fun hF hwro hfro hw hw' hf hf' ha ha' => ?_, fun hF hwph hfph => ?_⟩
  · rw [run_lfoMod, delaySamples_exact, modSum_exact]
  · have bound : |tot| ≤ (2 * b.wowD + 2 * b.flutD) * (1 + b.age / 2) :=
      abs_weighted_sum_le hw hf ha (abs_sin_add_mul_sin_le hF hwro _ _) (abs_sin_add_mul_sin_le hF hfro _ _)
    refine ⟨bound, bound.trans ?_⟩
    calc (2 * b.wowD + 2 * b.flutD) * (1 + b.age / 2) ≤ (2 * 1 + 2 * 1) * (1 + 1 / 2) := by gcongr
      _ = 6 := by norm_num
  · simp [tot, wowMod, flutMod, hwph, hfph, hF.sin_zero]

/-! ## The delay line (R145 to R147) -/

theorem modNat_natCast (a m : Nat) : modNat a m = a % m := by
  rw [modNat, ← Int.natCast_emod, Int.toNat_natCast]

/-- The cell `m` slots behind the cursor, round a buffer of `L` cells. -/
theorem modNat_sub {m L : Nat} (h : m ≤ L) (W : Nat) : modNat ((W : Int) - m) L = (W + L - m) % L := by
  have ahead : ((W + L - m : Nat) : Int) = (W : Int) - m + L := by omega
  rw [← modNat_natCast, ahead, modNat, modNat, Int.add_emod_right]

section
variable {V : Type} [Field V] [LinearOrder V] [FloorRing V] (F : Fns V)

theorem delayRead_exact (d : Datapath V) (c : Channel) (i : Nat) : letI := NUM.exact F;
    delayRead d c i = delayCell d c i := by
  simp only [delayRead, delayCell, Laws.lit_exact, Rat.cast_zero]

theorem run_dlyWr (c : Channel) (s : Over.State V) (l : Locals V) : letI := NUM.exact F;
    F.run (.dlyWr c) s l = ({ s with dp := delayWrite c s.dp.osc.WCUR l.x s.dp }, l) :=
  rfl

section
variable {d : Datapath V} {c : Channel} (h : Memory.wf (some 0) (d.ch.get c).D = true) (i : Nat) (v : V)
include h

/-- A cell of D reads as what was last written to it. -/
theorem delayCell_delayWrite_same : letI := NUM.exact F; delayCell (delayWrite c i v d) c i = v := by
  simp only [delayCell, delayWrite_ch, Laws.lit_exact, Rat.cast_zero, pair_get_set_same, Laws.read_write_same h,
    Option.getD_some]

/-- A write leaves every other cell of either channel alone. -/
theorem delayCell_delayWrite_other {e : Channel} {j : Nat} (hne : (e, j) ≠ (c, i)) : letI := NUM.exact F;
    delayCell (delayWrite c i v d) e j = delayCell d e j := by
  by_cases sameChannel : e = c
  · subst sameChannel
    have otherCell : j ≠ i := fun hj => hne (hj ▸ rfl)
    simp only [delayCell, delayWrite_ch, Laws.lit_exact, Rat.cast_zero, pair_get_set_same,
      Laws.read_write_other h otherCell]
  · simp only [delayCell, delayWrite_ch, pair_get_set_other _ sameChannel]

end

/-- DLY.RD interpolates between the cell below the read position and the next one round the buffer. -/
theorem run_dlyRd (c : Channel) (s : Over.State V) (l : Locals V) :
    F.run (.dlyRd c) s l =
      let rp := (s.dp.osc.WCUR : V) - l.ds
      let fr := Int.fract rp
      let i0 := modNat ⌊rp⌋ s.dp.L
      let i1 := (i0 + 1) % s.dp.L
      (s, { l with x := delayCell s.dp c i0 * (1 - fr) + delayCell s.dp c i1 * fr }) := by
  let := NUM.exact F
  have interpolated : F.run (.dlyRd c) s l = (s, { l with x := dlyRd c l.ds s.dp }) := rfl
  simp only [interpolated, dlyRd, delayTaps, delayRead_exact, Laws.ofInt_exact, Laws.floor_exact, Laws.lit_exact,
    Rat.cast_one, Int.cast_natCast, ← Nat.cast_succ, modNat_natCast, Int.self_sub_floor]

theorem run_dlyAdv (s : Over.State V) (l : Locals V) : F.run .dlyAdv s l =
    ({ s with dp := { s.dp with osc := { s.dp.osc with WCUR := (s.dp.osc.WCUR + 1) % s.dp.L } } }, l) := by
  rw [← modNat_natCast, Nat.cast_succ]
  rfl

/-- A whole delay reads one cell. -/
theorem run_dlyRd_of_whole [IsStrictOrderedRing V] (c : Channel) (s : Over.State V) {l : Locals V} {m : Nat}
    (hm : m ≤ s.dp.L) (h : l.ds = m) :
    F.run (.dlyRd c) s l = (s, { l with x := delayCell s.dp c ((s.dp.osc.WCUR + s.dp.L - m) % s.dp.L) }) := by
  have position : (s.dp.osc.WCUR : V) - l.ds = ((s.dp.osc.WCUR - m : Int) : V) := by
    rw [h, Int.cast_sub, Int.cast_natCast, Int.cast_natCast]
  simp only [run_dlyRd, position, Int.floor_intCast, Int.fract_intCast, modNat_sub hm, sub_zero, mul_one, mul_zero,
    add_zero]

end

/-- Settles O51: the one write of DLY.WR, the interpolation of DLY.RD and the cursor's step. -/
theorem delayLineWritesReadsAndAdvances : Obligations.DelayLineWritesReadsAndAdvances := by
  intro V _ _ _ _ F c s l _ _ canonical
  refine ⟨?_, run_dlyRd F c s l, fun _ hm hds => run_dlyRd_of_whole F c s hm hds, run_dlyAdv F s l⟩
  rw [run_dlyWr]
  refine ⟨rfl, delayCell_delayWrite_same F canonical _ _,
    fun _ _ hne => delayCell_delayWrite_other F canonical _ _ hne, ?_⟩
  rw [delayWrite_ch, pair_get_set_same]
  rfl

end Sys2Proof.Machine
end

section
/-! PROOFS. The order of a frame and of the stages of a channel (43_pitch_modulation.md R140, 45_pipeline.md R170). -/

namespace Sys2Proof.Machine

/-- A run of stages under one enable, ahead of the rest. -/
theorem ite_nil_append {α : Type} (enable : Bool) (run rest : List α) :
    (if enable then run else []) ++ rest = if enable then run ++ rest else rest := by
  cases enable <;> rfl

theorem enPM_iff {V : Type} [Field V] [LinearOrder V] [FloorRing V] (F : Fns V) (c : Cfg V) (s : ParamFile V) :
    (F.blockLocals c s).enPM = true ↔ 0 < s.wow ∨ 0 < s.flutter := by
  simp [Fns.blockLocals, blockLocals]

/-- Settles O39: a filter and the model's conditional runs are the same nested choices, stage by stage. The two stages of
the delay line share an enable, so its two values are taken apart. -/
theorem stageOrderIsTheContract : Obligations.StageOrderIsTheContract := by
  refine ⟨fun V _ b nch n => ?_, fun V b n c => ?_, fun V _ _ _ _ F c s => enPM_iff F c s⟩
  · have enabled : ([MicroOp.noise, .lfoMod].filter fun op => if op = .noise then b.enNoise else b.enPM) =
        (if b.enNoise then [.noise] else []) ++ if b.enPM then [.lfoMod (V := V)] else [] := by
      simp [List.filter_cons, ite_nil_append]
    rw [enabled, frameOps, ← List.append_assoc]
  · simp only [channelOps, List.append_assoc]
    cases b.enPM <;> simp [List.filter_cons, ite_nil_append]

end Sys2Proof.Machine
end

section
/-! PROOFS. The noise floor and the gains in exact arithmetic: NOISE and NOISE.ADD (44_noise.md R164, R165), GAIN.IN,
GAIN.OUT and MIX (45_pipeline.md R180 to R182). -/

namespace Sys2Proof.Machine

/-! ## NOISE (R164) -/

section
variable {V : Type} [Field V] [LinearOrder V] [FloorRing V] (F : Fns V)

theorem noisePair_exact (k nl n1 n2 : V) : letI := NUM.exact F;
    noisePair k nl n1 n2 = ⟨n1 * k * nl, 0.9 * (n1 * k * nl) + 0.1 * (n2 * k * nl)⟩ := by
  have shared : ((9 / 10 : ℚ) : V) = 0.9 := by norm_num
  have own : ((1 / 10 : ℚ) : V) = 0.1 := by norm_num
  simp only [noisePair, Laws.lit_exact, shared, own]

/-- NOISE forms the frame's pair from two draws in order, and moves the generator past them. -/
theorem run_noise (s : Over.State V) (l : Locals V) : letI := NUM.exact F;
    F.run .noise s l =
      ({ s with dp := { s.dp with RNG := Prng.advance (Prng.advance s.dp.RNG) } },
        { l with nz := noisePair s.cfg.kTilt l.blk.nl (F.draw s.dp.RNG) (F.draw (Prng.advance s.dp.RNG)) }) :=
  rfl

variable [IsStrictOrderedRing V]

/-- A draw is at most 1 in magnitude, so scaled by the tilt and the level it is at most their product. -/
theorem abs_scaled_draw_le (r : RngState) {k nl : V} (hk : 0 ≤ k) (hnl : 0 ≤ nl) :
    |F.draw r * k * nl| ≤ k * nl := by
  obtain ⟨drawLo, drawHi⟩ : -1 ≤ F.draw r ∧ F.draw r < 1 := Laws.value_mem F r
  calc |F.draw r * k * nl| = |F.draw r| * (k * nl) := by
        rw [mul_assoc, abs_mul, abs_of_nonneg (mul_nonneg hk hnl)]
    _ ≤ k * nl := mul_le_of_le_one_left (mul_nonneg hk hnl) (abs_le.mpr ⟨drawLo, drawHi.le⟩)

end

/-- A blend of nine parts and one part stays within the common bound of the two. -/
theorem abs_nine_to_one_blend_le {V : Type} [Field V] [LinearOrder V] [IsStrictOrderedRing V] {a b m : V}
    (ha : |a| ≤ m) (hb : |b| ≤ m) : |0.9 * a + 0.1 * b| ≤ m := by
  obtain ⟨aLo, aHi⟩ := abs_le.mp ha
  obtain ⟨bLo, bHi⟩ := abs_le.mp hb
  exact abs_le.mpr ⟨by linarith, by linarith⟩

/-- Settles O52: the pair of two draws, then the bound of a scaled draw on the left and of the blend on the right. -/
theorem noiseIsTwoScaledDraws : Obligations.NoiseIsTwoScaledDraws := by
  intro V _ _ _ _ F s l r n1 n2 k nl left right
  refine ⟨?_, fun hk hnl => ?_⟩
  · rw [run_noise, noisePair_exact]
  · have leftBound : |left| ≤ k * nl := abs_scaled_draw_le F _ hk hnl
    exact ⟨leftBound, abs_nine_to_one_blend_le leftBound (abs_scaled_draw_le F _ hk hnl)⟩

/-! ## NOISE.ADD, the gains and MIX (R165, R180 to R182) -/

section
variable {V : Type} [Field V] [LinearOrder V] [FloorRing V] (F : Fns V)

theorem run_gainIn {n : Nat} {c : Channel} {s : Over.State V} {v : V} (l : Locals V) (h : bufRead s.dp c n = some v) :
    F.run (.gainIn n c) s l = (s, { l with dry := v, x := v * l.blk.gIn }) := by
  simp only [Fns.run, MicroOp.run, h, Option.getD_some]

theorem run_noiseAdd (c : Channel) (s : Over.State V) (l : Locals V) :
    F.run (.noiseAdd c) s l = (s, { l with x := l.x + l.nz.get c }) :=
  rfl

theorem run_gainOut (s : Over.State V) (l : Locals V) : F.run .gainOut s l = (s, { l with x := l.x * l.blk.gOut }) :=
  rfl

theorem run_mix (n : Nat) (c : Channel) (s : Over.State V) (l : Locals V) : letI := NUM.exact F;
    F.run (.mix n c) s l = ({ s with dp := bufWrite c n (mixOf l.blk.mix l.dry l.x) s.dp }, l) :=
  rfl

theorem mixOf_exact (mix dry x : V) : letI := NUM.exact F; mixOf mix dry x = dry * (1 - mix) + x * mix := by
  simp only [mixOf, Laws.lit_exact, Rat.cast_one]

theorem mixOf_zero (dry x : V) : letI := NUM.exact F; mixOf 0 dry x = dry := by
  rw [mixOf_exact, sub_zero, mul_one, mul_zero, add_zero]

theorem mixOf_one (dry x : V) : letI := NUM.exact F; mixOf 1 dry x = x := by
  rw [mixOf_exact, sub_self, mul_zero, zero_add, mul_one]

end

/-- Settles O58: each micro-operation by its equation; MIX by the cell it writes, whose value at the two ends of the mix
is one of the two samples. -/
theorem gainsAndMixAreTheFormulas : Obligations.GainsAndMixAreTheFormulas := by
  intro V _ _ _ _ F n c s l v held
  refine ⟨run_gainIn F l held, run_noiseAdd F c s l, run_gainOut F s l, ?_⟩
  rw [run_mix]
  refine ⟨rfl, rfl, ?_, fun dryOnly => ?_, fun wetOnly => ?_, fun e m other => bufRead_bufWrite_other ?_ _ _⟩
  · rw [bufRead_bufWrite_same, mixOf_exact]
  · rw [bufRead_bufWrite_same, dryOnly, mixOf_zero]
  · rw [bufRead_bufWrite_same, wetOnly, mixOf_one]
  · rintro ⟨rfl, rfl⟩
    exact other rfl

end Sys2Proof.Machine
end

section
/-! PROOFS. GETT, RESET and SEED (46_commands.md R192, R193, R195). RESET and SEED read none of the cells that the other
agents write, so whatever lands in one, it ends where it ends with nothing landing, those cells apart
(20_memory.md R71). -/

namespace Sys2Proof.Machine

/-! ## GETT (R195) -/

/-- The reference encoding is the one the configuration's functions hold. -/
theorem rational_enc32_of_binary32 {c : Cfg ℚ} (h : c.enc32 = .binary32) : (Fns.rational c).enc32 = binary32 := by
  simp only [Fns.rational, h]

/-- Settles O19: GETT is `respond` alone; exact arithmetic takes its encoding from the configuration. -/
theorem gettAnswersThePeak : Obligations.GettAnswersThePeak := by
  intro s enc32
  refine ⟨rfl, rfl, fun hnum henc => ?_⟩
  have exact_enc32 : enc32 = (Fns.rational s.cfg).enc32 :=
    congrArg (fun N : NUM ℚ => N.enc32) (Laws.numOf_eq_exact hnum)
  rw [exact_enc32, rational_enc32_of_binary32 henc]

/-! ## A sequencer command under landing words (20_memory.md R71) -/

section
variable {V : Type}

/-- The same state with nothing on its way into the running command. -/
def Over.State.quiet (s : Over.State V) : Over.State V := { s with arrivals := [] }

/-- The micro-operations that read no cell of the other agents: all but the two of the block-start latch (45_pipeline.md
R171). -/
def MicroOp.ignoresAgents : MicroOp V → Prop
  | .takeDirty | .latch _ => False
  | _ => True

theorem clearOps_ignoreAgents : ∀ op ∈ clearOps (V := V), op.ignoresAgents := by
  simp [clearOps, MicroOp.ignoresAgents]

theorem seedRng_ignoresAgents (w : Word32) : ∀ op ∈ [MicroOp.seedRng (V := V) w], op.ignoresAgents := by
  simp [MicroOp.ignoresAgents]

theorem quiet_change (s : Over.State V) : AgentChange s.quiet s := ⟨rfl, fun _ => rfl, fun h => h⟩

theorem complete_change {s t : Over.State V} (a : AgentChange s t) : AgentChange (complete s) (complete t) := by
  refine ⟨?_, a.err, a.dirty⟩
  rw [complete, a.rest]
  rfl

variable [NUM V] [DecidableEq V]

/-- A micro-operation that reads none of the agents' cells does the same at two states that differ in those alone. -/
theorem run_change {op : MicroOp V} (h : op.ignoresAgents) {s t : Over.State V} (a : AgentChange s t) (l : Locals V) :
    AgentChange (op.run s l).1 (op.run t l).1 ∧ (op.run t l).2 = (op.run s l).2 := by
  obtain ⟨rest, err, dirty⟩ := a
  rw [rest]
  cases op with
  | takeDirty | latch => exact h.elim
  | _ => exact ⟨⟨rfl, err, dirty⟩, rfl⟩

/-- Whatever lands in such micro-operations, they end where they end with nothing landing, the agents' cells apart. -/
theorem runOps_quiet_change {ops : List (MicroOp V)} (h : ∀ op ∈ ops, op.ignoresAgents) {s t : Over.State V}
    (hs : s.arrivals = []) (a : AgentChange s t) (l : Locals V) :
    AgentChange (runOps ops (s, l)).1 (runOps ops (t, l)).1 := by
  induction ops generalizing s t l with
  | nil => exact a
  | cons op rest ih =>
    obtain ⟨opIgnores, restIgnore⟩ := List.forall_mem_cons.mp h
    obtain ⟨changed, sameLocals⟩ := run_change opIgnores a l
    obtain ⟨-, -, -, -, -, sameArrivals, -⟩ := run_keeps op s l
    have noArrivals : (op.run s l).1.arrivals = [] := sameArrivals.trans hs
    rw [runOps_cons, runOps_cons, sameLocals, tick_of_quiet noArrivals]
    exact ih restIgnore noArrivals (changed.trans (tick_change _)) _

/-- A sequencer command of such micro-operations ends as if nothing had landed, the agents' cells apart. -/
theorem runCommand_quiet_change {ops : List (MicroOp V)} (h : ∀ op ∈ ops, op.ignoresAgents) (s : Over.State V) :
    AgentChange (runCommand ops (acquire s.quiet)) (runCommand ops (acquire s)) := by
  have acquired : AgentChange { s.quiet with BUSY := true } (acquire s) :=
    (quiet_change { s with BUSY := true }).trans (tick_change _)
  rw [acquire_of_quiet (s := s.quiet) rfl, runCommand, runCommand, acquired.cfg, acquired.dp]
  exact complete_change (runOps_quiet_change h rfl acquired _)

/-- Every sequencer command answers (0, 0) last (30_encoding.md R81). -/
theorem runCommand_out_head (ops : List (MicroOp V)) (s : Over.State V) :
    (runCommand ops s).out.head? = some (answer 0 0) :=
  rfl

/-! ## RESET and SEED with nothing landing -/

/-- RESET's state with nothing landing (46_commands.md R192). -/
theorem runCommand_clearOps {s : Over.State V} (h : s.arrivals = []) :
    runCommand clearOps (acquire s) = { s with
      BUSY := false
      PEAK_IN := NUM.lit 0
      PEAK_OUT := NUM.lit 0
      dp := { s.dp with ch := ⟨Chan.zero, Chan.zero⟩, osc := Osc.zero, SEQ := none }
      out := answer 0 0 :: s.out } := by
  rw [acquire_of_quiet h, runCommand, runOps_clear _ (by exact h)]
  rfl

/-- SEED's state with nothing landing (46_commands.md R193). -/
theorem runCommand_seedRng (w : Word32) {s : Over.State V} (h : s.arrivals = []) :
    runCommand [.seedRng w] (acquire s) = { s with
      BUSY := false
      dp := { s.dp with RNG := Prng.seedOf s.cfg.prng w, SEQ := none }
      out := answer 0 0 :: s.out } := by
  rw [acquire_of_quiet h, runCommand, (runOps_of_quiet h).1]
  rfl

end

/-! ## RESET (R192) -/

theorem exec_reset_of_busy {s : State} (h : s.BUSY = true) : exec .reset s = .next (refusedWith 2 s) :=
  congrArg _ (unlessBusy_of_busy h _)

theorem exec_reset_of_idle {s : State} (h : s.BUSY = false) :
    exec .reset s = .next (letI := numOf s.cfg; runCommand clearOps (acquire s)) :=
  congrArg _ (unlessBusy_of_idle h _)

theorem chanZero_numOf (c : Cfg ℚ) : (letI := numOf c; Chan.zero : Chan ℚ) = ⟨0, 0, 0, 0, 0, 0, []⟩ := by
  simp only [Chan.zero, Laws.lit_numOf]

theorem oscZero_numOf (c : Cfg ℚ) : (letI := numOf c; Osc.zero : Osc ℚ) = ⟨0, 0, 0, 0, 0, 0⟩ := by
  simp only [Osc.zero, Laws.lit_numOf]

/-- Settles O22: RESET's registers are those of the run with nothing landing. -/
theorem resetClearsTheSignalState : Obligations.ResetClearsTheSignalState := by
  intro s
  let := numOf s.cfg
  refine ⟨exec_reset_of_busy, fun idle => ⟨_, exec_reset_of_idle idle, ?_⟩⟩
  have landed := runCommand_quiet_change clearOps_ignoreAgents s
  rw [runCommand_clearOps (s := s.quiet) rfl, chanZero_numOf, oscZero_numOf, Laws.lit_numOf] at landed
  refine ⟨landed.dp, fun c i => ?_, landed.cfg, landed.PEAK_IN, landed.PEAK_OUT, landed.BUSY, landed.PREPARED,
    landed.inputs, runCommand_out_head _ _, fun noArrivals => ?_⟩
  · rw [landed.dp]
    cases c <;> rfl
  · rw [runCommand_clearOps noArrivals]
    exact ⟨rfl, rfl, rfl, noArrivals, rfl⟩

/-! ## SEED (R193) -/

theorem exec_seed_of_busy (w : Word32) {s : State} (h : s.BUSY = true) : exec (.seed w) s = .next (refusedWith 2 s) :=
  congrArg _ (unlessBusy_of_busy h _)

theorem exec_seed_of_idle (w : Word32) {s : State} (h : s.BUSY = false) :
    exec (.seed w) s = .next (letI := numOf s.cfg; runCommand [.seedRng w] (acquire s)) :=
  congrArg _ (unlessBusy_of_idle h _)

/-- Settles O23: SEED's registers are those of the run with nothing landing. -/
theorem seedWritesOnlyTheGenerator : Obligations.SeedWritesOnlyTheGenerator := by
  intro w s
  let := numOf s.cfg
  refine ⟨exec_seed_of_busy w, fun idle => ⟨_, exec_seed_of_idle w idle, ?_⟩⟩
  have landed := runCommand_quiet_change (seedRng_ignoresAgents w) s
  rw [runCommand_seedRng w (s := s.quiet) rfl] at landed
  have seeded := congrArg Datapath.RNG landed.dp
  refine ⟨?_, seeded, fun prbs31 => ?_, landed.BUSY, landed.PREPARED, landed.PEAK_IN, landed.PEAK_OUT, landed.cfg,
    landed.inputs, runCommand_out_head _ _, fun noArrivals => ?_⟩
  · rw [landed.dp]
    rfl
  · rw [seeded]
    exact congrArg (Prng.seedOf · w) prbs31
  · rw [runCommand_seedRng w noArrivals]
    exact ⟨rfl, rfl, rfl, noArrivals, rfl⟩

end Sys2Proof.Machine
end

section
/-! PROOFS. An illegal command word (60_exceptions.md R211, R212): the port hands it to `runWord`, which raises. -/

namespace Sys2Proof.Machine

section
variable {V : Type}

/-- Raising without a cell (60_exceptions.md R211) is the refusal that the statements name. -/
theorem raise_none (e : ErrCode) (s : Over.State V) : raise e none s = refusedWith (errCode e) s := rfl

variable {run : Instr → Over.State V → Host.Outcome (Over.State V) Fault Refusal}

theorem runWord_of_illegal {w : CmdWord} {e : Illegal} (illegal : decode w = .error e) (s : Over.State V) :
    runWord run w s = .next (refusedWith 1 s) := by
  rw [runWord, illegal]
  exact congrArg _ (raise_none .illegal s)

theorem nextInput_of_cmd [NUM V] [DecidableEq V] {s : Over.State V} {w : CmdWord} {rest : List (Input V)}
    (port : s.inputs = .cmd w :: rest) : nextInput run s = runWord run w { s with inputs := rest } := by
  rw [nextInput, port]
  rfl

end

/-- A step with a command word at the head of the port runs that word, legal or not. -/
theorem step_of_cmd {s : State} {w : CmdWord} {rest : List (Input ℚ)} (port : s.inputs = .cmd w :: rest) :
    step s = runWord exec w { s with inputs := rest } :=
  letI := numOf s.cfg
  nextInput_of_cmd port

/-- Settles O8: the step runs the word, and an illegal word is refused with code 1. -/
theorem illegalWordRecordsOnlyAnError : Obligations.IllegalWordRecordsOnlyAnError := by
  intro s w e rest port illegal
  rw [step_of_cmd port, runWord_of_illegal illegal]
  rfl

end Sys2Proof.Machine
end

section
/-! PROOFS. Power-on reset (70_reset_and_hazards.md R230): the PO column of 10_state.md R59 written with rational
constants, and what a step does with nothing on its port and with the power-on input. -/

namespace Sys2Proof.Machine

/-! ## The PO values -/

theorem paramFile_powerOn_numOf (c : Cfg ℚ) :
    (letI := numOf c; ParamFile.powerOn : ParamFile ℚ) = ⟨0, 0, 0, 0, 40, 0, 0, 0, 0, 0, 0, 0, .slow, .ferric⟩ := by
  simp only [ParamFile.powerOn, Laws.lit_numOf]

theorem coef_identity_numOf (c : Cfg ℚ) :
    (letI := numOf c; Coef.identity : Coef ℚ) = ⟨1, 0, 0, 0, 0, ⟨1, 1⟩, 0, 0⟩ := by
  simp only [Coef.identity, Laws.lit_numOf]

theorem pair_get_of_equal_halves {α : Type} (a : α) (c : Channel) : (⟨a, a⟩ : Pair α).get c = a := by
  cases c <;> rfl

/-! ## The step -/

section
variable {V : Type} [NUM V] [DecidableEq V] {run : Instr → Over.State V → Host.Outcome (Over.State V) Fault Refusal}
  {s : Over.State V}

theorem nextInput_of_empty_port (port : s.inputs = []) : nextInput run s = .next s := by
  rw [nextInput, port]

theorem nextInput_of_powerOn {rest : List (Input V)} (port : s.inputs = .powerOn :: rest) :
    nextInput run s = .next (powerOnReset { s with inputs := rest }) := by
  rw [nextInput, port]
  rfl

end

/-- With nothing on its port the block waits. -/
theorem step_of_empty_port {s : State} (port : s.inputs = []) : step s = .next s :=
  letI := numOf s.cfg
  nextInput_of_empty_port port

theorem step_of_powerOn {s : State} {rest : List (Input ℚ)} (port : s.inputs = .powerOn :: rest) :
    step s = .next (letI := numOf s.cfg; powerOnReset { s with inputs := rest }) :=
  letI := numOf s.cfg
  nextInput_of_powerOn port

/-- Settles O15: the step is `powerOnReset`, whose PO values are the same rationals in every numeric domain. -/
theorem powerOnSetsEveryRegister : Obligations.PowerOnSetsEveryRegister := by
  refine ⟨fun u port => step_of_empty_port port, fun s rest port => ⟨_, step_of_powerOn port, ?_⟩⟩
  have zero := Laws.lit_numOf s.cfg 0
  have params := paramFile_powerOn_numOf s.cfg
  have coefs := coef_identity_numOf s.cfg
  have chans (c : Channel) := (pair_get_of_equal_halves _ c).trans (chanZero_numOf s.cfg)
  have oscs := oscZero_numOf s.cfg
  have cells (c : Channel) (n : Nat) : Memory.read none ((⟨[], []⟩ : Pair (Mem ℚ)).get c) n = none := by
    rw [pair_get_of_equal_halves, Laws.read_nil]
  exact ⟨rfl, rfl, params, rfl, rfl, rfl, rfl, rfl, zero, zero, zero, rfl, rfl, coefs, chans, oscs, cells, rfl⟩

end Sys2Proof.Machine
end

section
/-! PROOFS. Command words and their fields (30_encoding.md R80, R87 to R89): a word is its four fields, so decoding and
encoding are read off field by field, and a row of the opcode table matches exactly the words that decode to it. -/

namespace Sys2Proof

/-! ## The fields of a word (R80) -/

section
variable (op a : BitVec 8) (b : BitVec 16) (v : Word32)

@[simp] theorem opField_pack : opField (pack op a b v) = op := by
  change BitVec.extractLsb' (32 + 16 + 8) 8 ((op ++ a ++ b) ++ v) = op
  rw [BitVec.extractLsb'_append_eq_of_le (by omega), BitVec.extractLsb'_append_eq_of_le (by omega)]
  exact BitVec.extractLsb'_append_eq_left

@[simp] theorem aField_pack : aField (pack op a b v) = a := by
  change BitVec.extractLsb' (32 + 16) 8 ((op ++ a ++ b) ++ v) = a
  rw [BitVec.extractLsb'_append_eq_of_le (by omega), BitVec.extractLsb'_append_eq_of_le (by omega)]
  exact BitVec.extractLsb'_append_eq_right

@[simp] theorem bField_pack : bField (pack op a b v) = b := by
  change BitVec.extractLsb' 32 16 ((op ++ a ++ b) ++ v) = b
  rw [BitVec.extractLsb'_append_eq_of_le (by omega)]
  exact BitVec.extractLsb'_append_eq_right

@[simp] theorem wField_pack : wField (pack op a b v) = v :=
  BitVec.extractLsb'_append_eq_right

end

/-- A word is the packing of its fields: no bit lies outside them. -/
theorem pack_fields (w : CmdWord) : pack (opField w) (aField w) (bField w) (wField w) = w := by
  simp only [pack, opField, aField, bField, wField]
  rw [BitVec.extractLsb'_append_extractLsb'_eq_extractLsb' (by rfl),
    BitVec.extractLsb'_append_extractLsb'_eq_extractLsb' (by rfl),
    BitVec.extractLsb'_append_extractLsb'_eq_extractLsb' (by rfl)]
  exact BitVec.extractLsb'_eq_self

theorem pack_inj {op a op' a' : BitVec 8} {b b' : BitVec 16} {v v' : Word32}
    (h : pack op a b v = pack op' a' b' v') : op = op' ∧ a = a' ∧ b = b' ∧ v = v' :=
  ⟨by simpa using congrArg opField h, by simpa using congrArg aField h, by simpa using congrArg bField h,
    by simpa using congrArg wField h⟩

/-! ## Decode after encode -/

/-- Settles O1: the decoder reads back the fields that the encoder packed; a count operand fits its field. -/
theorem commandWordsRoundTrip : Obligations.CommandWordsRoundTrip := by
  intro i wf
  cases i with
  | prepare blk fs =>
    have fits : blk < 65536 := of_decide_eq_true wf
    simp [encode, decode, zeroFields, Nat.mod_eq_of_lt fits]
  | process nch nsamp =>
    obtain ⟨nchFits, nsampFits⟩ : nch < 256 ∧ nsamp < 65536 := by simpa [Instr.wf] using wf
    simp [encode, decode, zeroFields, Nat.mod_eq_of_lt nchFits, Nat.mod_eq_of_lt nsampFits]
  | _ => simp [encode, decode, zeroFields, decodeSetp]

/-! ## Encode after decode -/

theorem zeroFields_eq_ok {ok : Bool} {i j : Instr} (h : zeroFields ok i = .ok j) : ok = true ∧ i = j := by
  unfold zeroFields at h
  split at h
  · exact ⟨‹_›, Except.ok.inj h⟩
  · cases h

/-- A parameter index that SETP takes is the one its command's word carries. -/
theorem encode_of_decodeSetp {a : Nat} {v : Word32} {i : Instr} (h : decodeSetp a v = .ok i) :
    encode i = pack 4 (.ofNat 8 a) 0 v ∧ i.wf = true := by
  unfold decodeSetp at h
  split at h <;> cases h <;> exact ⟨rfl, rfl⟩

theorem bitVec_eq_of_toNat {n k : Nat} {x : BitVec n} (h : x.toNat = k) : x = BitVec.ofNat n k := by
  rw [← h, BitVec.ofNat_toNat, BitVec.setWidth_eq]

/-- Settles O2: opcode by opcode, the fields that a row fixes have its values and the others are operands. -/
theorem decodedWordsEncodeBack : Obligations.DecodedWordsEncodeBack := by
  intro w i h
  rw [← pack_fields w]
  generalize ha : aField w = a at *
  generalize hb : bField w = b at *
  generalize hv : wField w = v at *
  simp only [decode, ha, hb, hv] at h
  split at h
  next op =>
    obtain ⟨zero, rfl⟩ := zeroFields_eq_ok h
    simp [encode, Instr.wf, bitVec_eq_of_toNat op, eq_of_beq zero, b.isLt]
  next op =>
    obtain ⟨zero, rfl⟩ := zeroFields_eq_ok h
    simp only [Bool.and_eq_true, beq_iff_eq] at zero
    simp [encode, Instr.wf, bitVec_eq_of_toNat op, zero]
  next op =>
    obtain ⟨zero, rfl⟩ := zeroFields_eq_ok h
    simp only [Bool.and_eq_true, beq_iff_eq] at zero
    simp [encode, Instr.wf, bitVec_eq_of_toNat op, zero]
  next op =>
    split at h
    next zero =>
      obtain ⟨encoded, wf⟩ := encode_of_decodeSetp h
      simp [encoded, wf, bitVec_eq_of_toNat op, eq_of_beq zero]
    next => cases h
  next op =>
    split at h
    case h_3 => cases h
    all_goals
      next index =>
      obtain ⟨zero, rfl⟩ := zeroFields_eq_ok h
      simp only [Bool.and_eq_true, beq_iff_eq] at zero
      simp [encode, Instr.wf, bitVec_eq_of_toNat op, bitVec_eq_of_toNat index, zero]
  next op =>
    obtain ⟨zero, rfl⟩ := zeroFields_eq_ok h
    simp only [Bool.and_eq_true, beq_iff_eq] at zero
    simp [encode, Instr.wf, bitVec_eq_of_toNat op, zero]
  next op =>
    obtain ⟨zero, rfl⟩ := zeroFields_eq_ok h
    simp [encode, Instr.wf, bitVec_eq_of_toNat op, eq_of_beq zero, a.isLt, b.isLt]
  next => cases h

/-! ## The rows of the table (R87, R89) -/

section
variable (x y : CmdWord)

theorem opField_and : opField (x &&& y) = opField x &&& opField y := BitVec.extractLsb'_and
theorem aField_and : aField (x &&& y) = aField x &&& aField y := BitVec.extractLsb'_and
theorem bField_and : bField (x &&& y) = bField x &&& bField y := BitVec.extractLsb'_and
theorem wField_and : wField (x &&& y) = wField x &&& wField y := BitVec.extractLsb'_and

end

/-! A field that a mask covers with ones has the pattern's value. -/

section
variable {w mask pattern : CmdWord} (h : w &&& mask = pattern)
include h

theorem opField_of_masked {x : BitVec 8} (hm : opField mask = .allOnes 8) (hp : opField pattern = x) :
    opField w = x := by
  rw [← hp, ← h, opField_and, hm, BitVec.and_allOnes]

theorem aField_of_masked {x : BitVec 8} (hm : aField mask = .allOnes 8) (hp : aField pattern = x) :
    aField w = x := by
  rw [← hp, ← h, aField_and, hm, BitVec.and_allOnes]

theorem bField_of_masked {x : BitVec 16} (hm : bField mask = .allOnes 16) (hp : bField pattern = x) :
    bField w = x := by
  rw [← hp, ← h, bField_and, hm, BitVec.and_allOnes]

theorem wField_of_masked {x : Word32} (hm : wField mask = .allOnes 32) (hp : wField pattern = x) :
    wField w = x := by
  rw [← hp, ← h, wField_and, hm, BitVec.and_allOnes]

end

/-- A row with no operand matches one word. -/
theorem eq_of_masked_allOnes {w pattern : CmdWord} (h : w &&& 0xFFFFFFFFFFFFFFFF = pattern) : w = pattern :=
  BitVec.and_allOnes.symm.trans h

theorem decode_of_setp {w : CmdWord} (hop : opField w = 4) (hb : bField w = 0) :
    decode w = decodeSetp (aField w).toNat (wField w) := by
  simp only [decode, hop, hb]
  rfl

/-- A word that a row matches decodes to a command of that row: what the row fixes, the decoder asks for. -/
theorem decode_of_row_matches {j : Instr} {w : CmdWord} (h : j.row.matches w = true) :
    ∃ i, decode w = .ok i ∧ i.row = j.row := by
  replace h : w &&& j.row.mask = j.row.pattern := eq_of_beq h
  cases j <;> simp only [Instr.row] at h
  case prepare =>
    have hop : opField w = 1 := opField_of_masked h (by decide) (by decide)
    have ha : aField w = 0 := aField_of_masked h (by decide) (by decide)
    exact ⟨.prepare (bField w).toNat (wField w), by simp only [decode, hop, ha]; rfl, rfl⟩
  case process =>
    have hop : opField w = 7 := opField_of_masked h (by decide) (by decide)
    have hv : wField w = 0 := wField_of_masked h (by decide) (by decide)
    exact ⟨.process (aField w).toNat (bField w).toNat, by simp only [decode, hop, hv]; rfl, rfl⟩
  case seed =>
    have hop : opField w = 3 := opField_of_masked h (by decide) (by decide)
    have ha : aField w = 0 := aField_of_masked h (by decide) (by decide)
    have hb : bField w = 0 := bField_of_masked h (by decide) (by decide)
    exact ⟨.seed (wField w), by simp only [decode, hop, ha, hb]; rfl, rfl⟩
  case reset | gettIn | gettOut | gets =>
    rw [eq_of_masked_allOnes h]
    exact ⟨_, rfl, rfl⟩
  all_goals
    have hop : opField w = 4 := opField_of_masked h (by decide) (by decide)
    have ha := aField_of_masked h (by decide) rfl
    have hb : bField w = 0 := bField_of_masked h (by decide) (by decide)
    rw [decode_of_setp hop hb, ha]
    exact ⟨_, rfl, rfl⟩

theorem row_mem_opcodeTable (i : Instr) : i.row ∈ opcodeTable := by
  cases i <;> simp [opcodeTable, Instr.samples, Instr.row]

theorem exists_row_of_mem_opcodeTable {r : Row} (h : r ∈ opcodeTable) : ∃ j : Instr, j.row = r := by
  obtain ⟨j, -, rfl⟩ := List.mem_map.mp h
  exact ⟨j, rfl⟩

/-- A command's own row matches its word (`Laws.EncodeMatchesRow`, one lemma for each constructor). -/
theorem row_matches_encode (i : Instr) : i.row.matches (encode i) = true := by
  have holds : Laws.EncodeMatchesRow.Statement i := by
    cases i with
    | prepare blk fs => exact Laws.EncodeMatchesRow.prepare blk fs
    | reset => exact Laws.EncodeMatchesRow.reset
    | seed w => exact Laws.EncodeMatchesRow.seed w
    | setpDrive w => exact Laws.EncodeMatchesRow.setpDrive w
    | setpSat w => exact Laws.EncodeMatchesRow.setpSat w
    | setpWarmth w => exact Laws.EncodeMatchesRow.setpWarmth w
    | setpHbamt w => exact Laws.EncodeMatchesRow.setpHbamt w
    | setpHbfreq w => exact Laws.EncodeMatchesRow.setpHbfreq w
    | setpWow w => exact Laws.EncodeMatchesRow.setpWow w
    | setpFlutter w => exact Laws.EncodeMatchesRow.setpFlutter w
    | setpHiss w => exact Laws.EncodeMatchesRow.setpHiss w
    | setpOutgain w => exact Laws.EncodeMatchesRow.setpOutgain w
    | setpMix w => exact Laws.EncodeMatchesRow.setpMix w
    | setpAge w => exact Laws.EncodeMatchesRow.setpAge w
    | setpBias w => exact Laws.EncodeMatchesRow.setpBias w
    | setpSpeed w => exact Laws.EncodeMatchesRow.setpSpeed w
    | setpForm w => exact Laws.EncodeMatchesRow.setpForm w
    | gettIn => exact Laws.EncodeMatchesRow.gettIn
    | gettOut => exact Laws.EncodeMatchesRow.gettOut
    | gets => exact Laws.EncodeMatchesRow.gets
    | process nch nsamp => exact Laws.EncodeMatchesRow.process nch nsamp
  exact beq_iff_eq.mpr holds

/-- Settles O3: a word that decodes is its command's, so the command's row matches it; any row that matches a word gives
the row of the command it decodes to, so there is no second one, and none for an illegal word. -/
theorem everyWordMatchesOneRowOrIsIllegal : Obligations.EveryWordMatchesOneRowOrIsIllegal := by
  intro w
  cases decoded : decode w with
  | ok i =>
    refine .inl ⟨i, rfl, row_mem_opcodeTable i, ?_, fun r hr hm => ?_⟩
    · rw [← (decodedWordsEncodeBack w i decoded).1]
      exact row_matches_encode i
    · obtain ⟨j, rfl⟩ := exists_row_of_mem_opcodeTable hr
      obtain ⟨k, decoded', sameRow⟩ := decode_of_row_matches hm
      obtain rfl : i = k := Except.ok.inj (decoded.symm.trans decoded')
      exact sameRow.symm
  | error e =>
    refine .inr ⟨e, rfl, fun r hr => Bool.eq_false_iff.mpr fun hm => ?_⟩
    obtain ⟨j, rfl⟩ := exists_row_of_mem_opcodeTable hr
    obtain ⟨k, decoded', -⟩ := decode_of_row_matches hm
    cases decoded.symm.trans decoded'

/-! ## The worked encodings and the pseudo-instructions (R92, R93) -/

/-- Settles O4: nine words of the spec's table, each decoded by evaluation. -/
theorem workedEncodingsDecode : Obligations.WorkedEncodingsDecode := by
  unfold Obligations.WorkedEncodingsDecode
  decide

namespace Machine

/-- A numeric setter with a real operand is SETP of its own index with the nearest binary32 word. -/
theorem assemble_setNum_real (k : NumParam) (v : ℚ) :
    assemble (.setNum k (.real v)) = some (setpOf k (binary32 v)) := by
  cases k <;> rfl

theorem aField_encode_setpOf (k : NumParam) (w : Word32) : aField (encode (setpOf k w)) = BitVec.ofNat 8 k.index := by
  cases k <;> exact aField_pack _ _ _ _

/-- Settles O6: the setters by their indices, the enum setters by their codes, and two words of R93 by evaluation. -/
theorem pseudoInstructionsExpandToSetp : Obligations.PseudoInstructionsExpandToSetp :=
  ⟨assemble_setNum_real, fun k => aField_encode_setpOf k 0, rfl, rfl, rfl, rfl, rfl, rfl, by decide +kernel,
    by decide +kernel⟩

end Machine

end Sys2Proof
end

section
/-! PROOFS. What the run of a sequencer command comes to, whatever lands in it (20_memory.md R71). The words that land
change the other agents' cells only (`AgentChange`), and of those a sequencer command reads P and DIRTY, in the latch
(45_pipeline.md R171). So the mapper, the frame loop and the publication are functions of the private state. -/

namespace Sys2Proof.Machine

variable {V : Type}

/-! ## Changes of the other agents beside a change of the sequencer -/

namespace AgentChange

/-- The sequencer's own cells can be written on both sides of a change of the other agents. -/
theorem write {s t : Over.State V} (a : AgentChange s t) (prepared busy : Bool) (pIn pOut : V) (d : Datapath V) :
    AgentChange { s with PREPARED := prepared, BUSY := busy, PEAK_IN := pIn, PEAK_OUT := pOut, dp := d }
      { t with PREPARED := prepared, BUSY := busy, PEAK_IN := pIn, PEAK_OUT := pOut, dp := d } := by
  refine ⟨?_, a.err, a.dirty⟩
  rw [a.rest]

/-- The private state can be written on both sides of a change of the other agents. -/
theorem writeDp {s t : Over.State V} (a : AgentChange s t) (d : Datapath V) :
    AgentChange { s with dp := d } { t with dp := d } := by
  refine ⟨?_, a.err, a.dirty⟩
  rw [a.rest]

/-- DIRTY can be cleared on both sides of a change of the other agents. -/
theorem clearDirty {s t : Over.State V} (a : AgentChange s t) :
    AgentChange { s with DIRTY := false } { t with DIRTY := false } := by
  refine ⟨?_, a.err, fun h => h⟩
  rw [a.rest]

/-- What is on its way into a command is one of the cells that the other agents change. -/
theorem of_quiet {s t : Over.State V} (a : AgentChange s.quiet t) : AgentChange s t := ⟨a.rest, a.err, a.dirty⟩

end AgentChange

theorem mapperOps_ignoreAgents : ∀ op ∈ mapperOps (V := V), op.ignoresAgents := by
  simp [mapperOps, MicroOp.ignoresAgents]

theorem publishOps_ignoreAgents (nch nsamp : Nat) : ∀ op ∈ publishOps (V := V) nch nsamp, op.ignoresAgents := by
  simp [publishOps, MicroOp.ignoresAgents]

section
variable [NUM V]

theorem acquire_change (s : Over.State V) : AgentChange { s with BUSY := true } (acquire s) := tick_change _

@[simp] theorem acquire_cfg (s : Over.State V) : (acquire s).cfg = s.cfg := (acquire_change s).cfg
@[simp] theorem acquire_dp (s : Over.State V) : (acquire s).dp = s.dp := (acquire_change s).dp
@[simp] theorem acquire_BUSY (s : Over.State V) : (acquire s).BUSY = true := (acquire_change s).BUSY

theorem mapHB_eq (d : Datapath V) : mapHB d = { d with coef := (mapHB d).coef } := by
  unfold mapHB
  dsimp only
  split <;> rfl

theorem mapLP_eq (d : Datapath V) : mapLP d = { d with coef := (mapLP d).coef } := by
  unfold mapLP
  dsimp only
  split <;> rfl

/-- The mapper writes the coefficients and moves the generator by its four draws (40_coefficient_mapper.md R101). -/
theorem mapper_eq (d : Datapath V) : mapLFO (mapLP (mapHB d)) = { d with
    coef := (mapLFO (mapLP (mapHB d))).coef
    RNG := afterFourDraws d.RNG } := by
  have bump := mapHB_eq d
  have lowpass := mapLP_eq (mapHB d)
  have rates : mapLFO (mapLP (mapHB d)) = { mapLP (mapHB d) with
      coef := (mapLFO (mapLP (mapHB d))).coef
      RNG := afterFourDraws (mapLP (mapHB d)).RNG } := by rw [mapLFO_eq]
  generalize mapLFO (mapLP (mapHB d)) = e at *
  generalize mapLP (mapHB d) = e' at *
  generalize mapHB d = e'' at *
  rw [rates, lowpass, bump]

/-! ## The private state after the latch (45_pipeline.md R171) -/

/-- The private state after a latch that took the parameters `p`, and the mapper if DIRTY was 1 (45_pipeline.md R171). -/
def latchInto (dirty : Bool) (d : Datapath V) (p : ParamFile V) : Datapath V :=
  if dirty then mapLFO (mapLP (mapHB { d with S := p })) else { d with S := p }

theorem latchInto_eq (dirty : Bool) (d : Datapath V) (p : ParamFile V) : latchInto dirty d p = { d with
    S := p
    coef := if dirty then (mapLFO (mapLP (mapHB { d with S := p }))).coef else d.coef
    RNG := if dirty then afterFourDraws d.RNG else d.RNG } := by
  cases dirty with
  | false => rfl
  | true => exact mapper_eq _

theorem latchInto_true (d : Datapath V) (p : ParamFile V) : latchInto true d p = { d with
    S := p
    coef := (mapLFO (mapLP (mapHB { d with S := p }))).coef
    RNG := afterFourDraws d.RNG } :=
  mapper_eq _

/-- The mapper reads neither the block size nor the delay length. -/
theorem mapper_coef_of_sizes (d : Datapath V) (blk len : Nat) :
    (mapLFO (mapLP (mapHB { d with BLKSZ := blk, L := len }))).coef = (mapLFO (mapLP (mapHB d))).coef := by
  have bump : mapHB { d with BLKSZ := blk, L := len } = { mapHB d with BLKSZ := blk, L := len } := by
    unfold mapHB
    dsimp only
    split <;> rfl
  have lowpass (e : Datapath V) : mapLP { e with BLKSZ := blk, L := len } = { mapLP e with BLKSZ := blk, L := len } := by
    unfold mapLP
    dsimp only
    split <;> rfl
  rw [bump, lowpass, mapLFO_eq, mapLFO_eq]

end

variable [NUM V] [DecidableEq V]

/-- A property that every listed micro-operation and every landing word keeps holds after the list: as `runOps_induct`,
with the landing words themselves and not only what they leave alone. -/
theorem runOps_induct_tick {I : Over.State V × Locals V → Prop} {ops : List (MicroOp V)}
    (hop : ∀ op ∈ ops, ∀ s l, I (s, l) → I (op.run s l)) (htick : ∀ s l, I (s, l) → I (tick s, l))
    (sl : Over.State V × Locals V) (h : I sl) : I (runOps ops sl) := by
  induction ops generalizing sl with
  | nil => exact h
  | cons op rest ih =>
    rw [runOps_cons]
    exact ih (fun o ho => hop o (List.mem_cons_of_mem _ ho)) _ (htick _ _ (hop op List.mem_cons_self _ _ h))

/-! ## The latch under landing words (45_pipeline.md R171) -/

/-- Reading parameters one by one writes S only, whatever is written to P meanwhile. -/
theorem runOps_latches (ks : List ParamId) (s : Over.State V) (l : Locals V) :
    ∃ p, AgentChange { s with dp := { s.dp with S := p } } (runOps (ks.map .latch) (s, l)).1 ∧
      (runOps (ks.map .latch) (s, l)).2 = l := by
  induction ks generalizing s with
  | nil => exact ⟨s.dp.S, .refl s, rfl⟩
  | cons k rest ih =>
    let t : Over.State V := onDatapath (fun d => { d with S := ParamFile.copy k s.P d.S }) s
    obtain ⟨p, change, locals⟩ := ih (tick t)
    refine ⟨p, ?_, locals⟩
    have landed := (tick_change t).writeDp { s.dp with S := p }
    rw [tick_dp] at change
    exact landed.trans change

/-- LATCH up to the mapper takes some values of the parameters, the old DIRTY, and clears DIRTY. -/
theorem runOps_latchOps (s : Over.State V) (l : Locals V) :
    ∃ p, AgentChange { s with DIRTY := false, dp := { s.dp with S := p } } (runOps latchOps (s, l)).1 ∧
      (runOps latchOps (s, l)).2 = { l with dirty := s.DIRTY } := by
  let t : Over.State V := { s with DIRTY := false }
  obtain ⟨p, change, locals⟩ := runOps_latches ParamId.all (tick t) { l with dirty := s.DIRTY }
  refine ⟨p, ?_, locals⟩
  have landed := (tick_change t).writeDp { s.dp with S := p }
  rw [tick_dp] at change
  exact landed.trans change

/-- One run of the mapper, whatever lands in it (40_coefficient_mapper.md R101). -/
theorem runOps_mapperOps (s : Over.State V) (l : Locals V) :
    AgentChange { s with dp := mapLFO (mapLP (mapHB s.dp)) } (runOps mapperOps (s, l)).1 := by
  have change := runOps_quiet_change mapperOps_ignoreAgents (s := s.quiet) rfl (quiet_change s) l
  rw [runOps_mapper l rfl] at change
  exact change.of_quiet

/-- LATCH up to the mapper, run at `s`, takes the parameters `p` (45_pipeline.md R171). -/
def LatchTakes (s : Over.State V) (p : ParamFile V) : Prop :=
  AgentChange { s with DIRTY := false, dp := { s.dp with S := p } }
      (runOps latchOps (s, Locals.start s.cfg s.dp.S)).1 ∧
    (runOps latchOps (s, Locals.start s.cfg s.dp.S)).2 = { Locals.start s.cfg s.dp.S with dirty := s.DIRTY }

theorem exists_latchTakes (s : Over.State V) : ∃ p, LatchTakes s p := runOps_latchOps s _

/-- The latch of an accepted block: DIRTY is cleared, the mapper has run if it was 1, and the block-local values are
those of the parameters it took (45_pipeline.md R171, R174). -/
theorem runLatch_spec {s : Over.State V} {p : ParamFile V} (takes : LatchTakes s p) :
    AgentChange { s with DIRTY := false, dp := latchInto s.DIRTY s.dp p } (runLatch s).1 ∧
      (runLatch s).2 = { Locals.start s.cfg s.dp.S with dirty := s.DIRTY, blk := blockLocals s.cfg p } := by
  obtain ⟨latched, dirtyRead⟩ := takes
  unfold runLatch
  generalize runOps latchOps (s, Locals.start s.cfg s.dp.S) = r at latched dirtyRead
  obtain ⟨u, l⟩ := r
  dsimp only at latched dirtyRead ⊢
  subst dirtyRead
  have setLocals (v : Over.State V) (k : Locals V) (cfg : v.cfg = s.cfg) (snapshot : v.dp.S = p) :
      AgentChange v (runOps [.setLocals] (v, k)).1 ∧
        (runOps [.setLocals] (v, k)).2 = { k with blk := blockLocals s.cfg p } := by
    subst snapshot
    rw [← cfg]
    exact ⟨tick_change v, rfl⟩
  rw [runOps_append]
  dsimp only
  cases s.DIRTY with
  | false =>
    obtain ⟨landed, locals⟩ := setLocals u _ latched.cfg (congrArg Datapath.S latched.dp)
    exact ⟨latched.trans landed, locals⟩
  | true =>
    have mapped := runOps_mapperOps u { Locals.start s.cfg s.dp.S with dirty := true }
    have mappedLocals : (runOps mapperOps (u, { Locals.start s.cfg s.dp.S with dirty := true })).2 =
        { Locals.start s.cfg s.dp.S with dirty := true } := rfl
    rw [if_pos rfl]
    generalize runOps mapperOps (u, { Locals.start s.cfg s.dp.S with dirty := true }) = r at mapped mappedLocals
    obtain ⟨v, l⟩ := r
    dsimp only at mapped mappedLocals ⊢
    subst mappedLocals
    have whole := (latched.writeDp (mapLFO (mapLP (mapHB u.dp)))).trans mapped
    rw [latched.dp] at whole
    obtain ⟨landed, locals⟩ := setLocals v _ whole.cfg (by rw [whole.dp]; simp)
    exact ⟨whole.trans landed, locals⟩

/-! ## The frame loop (45_pipeline.md R172) -/

/-- A micro-operation of the frame loop on the private state and what the sequencer holds: it reads and writes nothing
else (`run_frame`). -/
def MicroOp.onFrame (c : Cfg V) (op : MicroOp V) (q : Datapath V × Locals V) : Datapath V × Locals V :=
  let r := op.run { Over.State.powerOn c with dp := q.1 } q.2
  (r.1.dp, r.2)

/-- Micro-operations of the frame loop in order. -/
def onFrames (c : Cfg V) (ops : List (MicroOp V)) (q : Datapath V × Locals V) : Datapath V × Locals V :=
  ops.foldl (fun q op => op.onFrame c q) q

@[simp] theorem onFrames_nil (c : Cfg V) (q : Datapath V × Locals V) : onFrames c [] q = q := rfl

theorem onFrames_cons (c : Cfg V) (op : MicroOp V) (ops : List (MicroOp V)) (q : Datapath V × Locals V) :
    onFrames c (op :: ops) q = onFrames c ops (op.onFrame c q) := rfl

theorem onFrames_append (c : Cfg V) (xs ys : List (MicroOp V)) (q : Datapath V × Locals V) :
    onFrames c (xs ++ ys) q = onFrames c ys (onFrames c xs q) := List.foldl_append

/-- A property of the private state and the locals that every listed micro-operation keeps holds after the list. -/
theorem onFrames_induct {I : Datapath V × Locals V → Prop} {c : Cfg V} {ops : List (MicroOp V)}
    (hop : ∀ op ∈ ops, ∀ q, I q → I (op.onFrame c q)) {q : Datapath V × Locals V} (h : I q) : I (onFrames c ops q) := by
  induction ops generalizing q with
  | nil => exact h
  | cons op rest ih =>
    exact ih (fun o ho => hop o (List.mem_cons_of_mem _ ho)) (hop op List.mem_cons_self q h)

section
variable {nch nsamp : Nat}

theorem run_frame {op : MicroOp V} (h : op.inFrames nch nsamp) (s : Over.State V) (l : Locals V) :
    op.run s l = ({ s with dp := (op.onFrame s.cfg (s.dp, l)).1 }, (op.onFrame s.cfg (s.dp, l)).2) := by
  cases op with
  | configure | takeDirty | latch | mapHB | mapLP | mapLFO | setLocals | clearChan | clearOsc | clearPeakIn
  | clearPeakOut | setPrepared | seedRng | peakCapOut | publishIn | publishOut => exact h.elim
  | _ => rfl

/-- The frame loop, whatever lands in it. -/
theorem runOps_frames {ops : List (MicroOp V)} (h : ∀ op ∈ ops, op.inFrames nch nsamp) (s : Over.State V) (l : Locals V) :
    AgentChange { s with dp := (onFrames s.cfg ops (s.dp, l)).1 } (runOps ops (s, l)).1 ∧
      (runOps ops (s, l)).2 = (onFrames s.cfg ops (s.dp, l)).2 := by
  induction ops generalizing s l with
  | nil => exact ⟨.refl s, rfl⟩
  | cons op rest ih =>
    obtain ⟨inFrames, restInFrames⟩ := List.forall_mem_cons.mp h
    rw [runOps_cons, run_frame inFrames, onFrames_cons]
    generalize op.onFrame s.cfg (s.dp, l) = q
    have landed := tick_change { s with dp := q.1 }
    generalize tick { s with dp := q.1 } = u at landed
    have start : onFrames u.cfg rest (u.dp, q.2) = onFrames s.cfg rest q := by rw [landed.cfg, landed.dp]
    obtain ⟨change, locals⟩ := ih restInFrames u q.2
    rw [start] at change locals
    exact ⟨(landed.writeDp _).trans change, locals⟩

/-- The frame loop with nothing landing. -/
theorem runOps_frames_of_quiet {ops : List (MicroOp V)} (h : ∀ op ∈ ops, op.inFrames nch nsamp) {s : Over.State V}
    (l : Locals V) (quiet : s.arrivals = []) :
    runOps ops (s, l) = ({ s with dp := (onFrames s.cfg ops (s.dp, l)).1 }, (onFrames s.cfg ops (s.dp, l)).2) := by
  induction ops generalizing s l with
  | nil => rfl
  | cons op rest ih =>
    obtain ⟨inFrames, restInFrames⟩ := List.forall_mem_cons.mp h
    rw [runOps_cons, run_frame inFrames, onFrames_cons, tick_of_quiet (by exact quiet)]
    exact ih (s := { s with dp := (op.onFrame s.cfg (s.dp, l)).1 }) restInFrames _ quiet

theorem onFrame_keeps {op : MicroOp V} (h : op.inFrames nch nsamp) (c : Cfg V) (q : Datapath V × Locals V) :
    sameSetup q.1 (op.onFrame c q).1 ∧ (op.onFrame c q).2.blk = q.2.blk ∧ (op.onFrame c q).2.pIn = q.2.pIn := by
  obtain ⟨setup, -, -, -, -, blk, pIn⟩ := run_frame_keeps h { Over.State.powerOn c with dp := q.1 } q.2
  exact ⟨setup, blk, pIn⟩

/-- The frame loop keeps the block's setup, its block-local values and the peak of its input. -/
theorem onFrames_keeps {ops : List (MicroOp V)} (h : ∀ op ∈ ops, op.inFrames nch nsamp) (c : Cfg V)
    (q : Datapath V × Locals V) :
    sameSetup q.1 (onFrames c ops q).1 ∧ (onFrames c ops q).2.blk = q.2.blk ∧ (onFrames c ops q).2.pIn = q.2.pIn := by
  refine onFrames_induct (I := fun r => sameSetup q.1 r.1 ∧ r.2.blk = q.2.blk ∧ r.2.pIn = q.2.pIn) ?_
    ⟨⟨rfl, rfl, rfl, rfl, rfl⟩, rfl, rfl⟩
  rintro op hop r ⟨⟨s1, s2, s3, s4, s5⟩, blk, pIn⟩
  obtain ⟨⟨t1, t2, t3, t4, t5⟩, blk', pIn'⟩ := onFrame_keeps (h op hop) c r
  exact ⟨⟨t1.trans s1, t2.trans s2, t3.trans s3, t4.trans s4, t5.trans s5⟩, blk'.trans blk, pIn'.trans pIn⟩

end

/-! ## The frames and the publication of a block (45_pipeline.md R172, R183) -/

/-- The private state and the locals after the frame loop of a block. -/
def afterLoop (c : Cfg V) (nch nsamp : Nat) (q : Datapath V × Locals V) : Datapath V × Locals V :=
  onFrames c (framesOps q.2.blk nch nsamp) q

/-- The cells a completed block writes, from its start `s` and the private state `d` after its frame loop. -/
def published (nch nsamp : Nat) (s : Over.State V) (peak : V) (d : Datapath V) : Over.State V :=
  { s with
    BUSY := false
    PEAK_IN := peak
    PEAK_OUT := peakOf d (blockCells nch nsamp)
    dp := { d with SEQ := none } }

omit [DecidableEq V] in
theorem AgentChange.published {s t : Over.State V} (a : AgentChange s t) (nch nsamp : Nat) (peak : V) (d : Datapath V) :
    AgentChange (published nch nsamp s peak d) (published nch nsamp t peak d) := by
  refine ⟨?_, a.err, a.dirty⟩
  rw [a.rest]
  rfl

/-- The publication with nothing landing. -/
theorem runOps_publishOps_of_quiet (nch nsamp : Nat) {s : Over.State V} (l : Locals V) (quiet : s.arrivals = []) :
    (runOps (publishOps nch nsamp) (s, l)).1 =
      { s with PEAK_IN := l.pIn, PEAK_OUT := peakOf s.dp (blockCells nch nsamp) } := by
  rw [(runOps_of_quiet (sl := (s, l)) quiet).1]
  rfl

/-- The publication, whatever lands in it. -/
theorem runOps_publishOps (nch nsamp : Nat) (s : Over.State V) (l : Locals V) :
    AgentChange { s with PEAK_IN := l.pIn, PEAK_OUT := peakOf s.dp (blockCells nch nsamp) }
      (runOps (publishOps nch nsamp) (s, l)).1 := by
  have change := runOps_quiet_change (publishOps_ignoreAgents nch nsamp) (s := s.quiet) rfl (quiet_change s) l
  rw [runOps_publishOps_of_quiet nch nsamp l rfl] at change
  exact change.of_quiet

/-- A block whose scan found the peak `p` completes, whatever lands in it. -/
theorem runBlock_change (nch nsamp : Nat) (p : V) (r : Over.State V × Locals V) :
    AgentChange (published nch nsamp r.1 p (afterLoop r.1.cfg nch nsamp (r.1.dp, { r.2 with pIn := p })).1)
      (runBlock nch nsamp p r) := by
  obtain ⟨s, l⟩ := r
  unfold runBlock afterLoop
  dsimp only
  have inFrames := framesOps_inFrames l.blk nch nsamp
  have landed := tick_change s
  generalize tick s = v at landed
  obtain ⟨looped, locals⟩ := runOps_frames inFrames v { l with pIn := p }
  have start : onFrames v.cfg (framesOps l.blk nch nsamp) (v.dp, { l with pIn := p }) =
      onFrames s.cfg (framesOps l.blk nch nsamp) (s.dp, { l with pIn := p }) := by rw [landed.cfg, landed.dp]
  rw [start] at looped locals
  obtain ⟨-, -, pIn⟩ := onFrames_keeps inFrames s.cfg (s.dp, { l with pIn := p })
  rw [runOps_append]
  generalize onFrames s.cfg (framesOps l.blk nch nsamp) (s.dp, { l with pIn := p }) = q at *
  generalize runOps (framesOps l.blk nch nsamp) (v, { l with pIn := p }) = r at *
  obtain ⟨u, k⟩ := r
  dsimp only at looped locals pIn ⊢
  subst locals
  have ticked := (landed.writeDp q.1).trans looped
  have publishing := runOps_publishOps nch nsamp u q.2
  rw [pIn] at publishing
  have whole := (ticked.write u.PREPARED u.BUSY p (peakOf u.dp (blockCells nch nsamp)) u.dp).trans publishing
  have completed := complete_change whole
  rw [ticked.dp, ticked.PREPARED, ticked.BUSY] at completed
  exact ⟨completed.rest, completed.err, completed.dirty⟩

/-- A block whose scan found the peak `p`, with nothing landing. -/
theorem runBlock_of_quiet (nch nsamp : Nat) (p : V) {s : Over.State V} (l : Locals V) (quiet : s.arrivals = []) :
    runBlock nch nsamp p (s, l) =
      { published nch nsamp s p (afterLoop s.cfg nch nsamp (s.dp, { l with pIn := p })).1 with
        out := answer 0 0 :: s.out } := by
  unfold runBlock afterLoop
  dsimp only
  have inFrames := framesOps_inFrames l.blk nch nsamp
  obtain ⟨-, -, pIn⟩ := onFrames_keeps inFrames s.cfg (s.dp, { l with pIn := p })
  rw [tick_of_quiet quiet, runOps_append, runOps_frames_of_quiet inFrames _ quiet,
    runOps_publishOps_of_quiet _ _ _ (by exact quiet), pIn]
  rfl

theorem runBlock_out_head (nch nsamp : Nat) (p : V) (r : Over.State V × Locals V) :
    (runBlock nch nsamp p r).out.head? = some (answer 0 0) :=
  rfl

/-! ## PROCESS past its checks -/

theorem processBody_of_scan_ok {nch nsamp : Nat} {s : Over.State V} {p : V}
    (h : scanPeak (runLatch (acquire s)).1.dp (blockCells nch nsamp) (NUM.lit 0) = .ok p) :
    processBody nch nsamp s = runBlock nch nsamp p (runLatch (acquire s)) := by
  unfold processBody
  dsimp only
  rw [h]

theorem processBody_of_scan_error {nch nsamp : Nat} {s : Over.State V} {e : Channel × Nat}
    (h : scanPeak (runLatch (acquire s)).1.dp (blockCells nch nsamp) (NUM.lit 0) = .error e) :
    processBody nch nsamp s = failWith .badsample (some (e.1.index, e.2)) (runLatch (acquire s)).1 := by
  unfold processBody
  dsimp only
  rw [h]

omit [DecidableEq V] in
/-- The scan reads BUF only (45_pipeline.md R173). -/
theorem scanPeak_of_BUF {d e : Datapath V} (h : e.BUF = d.BUF) (cells : List (Channel × Nat)) (p : V) :
    scanPeak e cells p = scanPeak d cells p := by
  induction cells generalizing p with
  | nil => rfl
  | cons x rest ih => simp only [scanPeak, bufRead, h, ih]

omit [DecidableEq V] in
theorem latchInto_BUF (dirty : Bool) (d : Datapath V) (p : ParamFile V) : (latchInto dirty d p).BUF = d.BUF := by
  rw [latchInto_eq]

omit [NUM V] [DecidableEq V] in
theorem failWith_change (e : ErrCode) (i : Option (Nat × Nat)) {s t : Over.State V} (a : AgentChange s t) :
    AgentChange (release s) (failWith e i t) := by
  have released : AgentChange (release s) (release t) := by
    refine ⟨?_, a.err, a.dirty⟩
    rw [a.rest]
    rfl
  exact released.trans (raise_change e i _)

/-- What the sequencer holds when the frame loop of a block begins: the block-local values of the parameters `p` and the
peak of the input (45_pipeline.md R174). -/
def blockStart (s : Over.State V) (dirty : Bool) (p : ParamFile V) (peak : V) : Locals V :=
  { Locals.start s.cfg s.dp.S with dirty := dirty, blk := blockLocals s.cfg p, pIn := peak }

/-- PROCESS past its checks, whatever lands in it, with `p` the parameters its latch takes: the private state of the
latch if the scan finds a cell without a value, else that of the frame loop. -/
theorem processBody_spec {s : Over.State V} {p : ParamFile V} (takes : LatchTakes (acquire s) p) (nch nsamp : Nat) :
    (∀ e, scanPeak s.dp (blockCells nch nsamp) (NUM.lit 0) = .error e →
      AgentChange { s with
        DIRTY := false, BUSY := false, dp := { latchInto (acquire s).DIRTY s.dp p with SEQ := none } }
        (processBody nch nsamp s)) ∧
    (∀ peak, scanPeak s.dp (blockCells nch nsamp) (NUM.lit 0) = .ok peak →
      AgentChange (published nch nsamp { s with DIRTY := false } peak
        (afterLoop s.cfg nch nsamp
          (latchInto (acquire s).DIRTY s.dp p, blockStart s (acquire s).DIRTY p peak)).1)
        (processBody nch nsamp s)) := by
  obtain ⟨latched, locals⟩ := runLatch_spec takes
  have acquired := (acquire_change s).clearDirty.writeDp (latchInto (acquire s).DIRTY s.dp p)
  rw [acquire_dp] at latched
  have start := acquired.trans latched
  have scan : scanPeak (runLatch (acquire s)).1.dp (blockCells nch nsamp) (NUM.lit 0) =
      scanPeak s.dp (blockCells nch nsamp) (NUM.lit 0) :=
    scanPeak_of_BUF (by rw [start.dp]; exact latchInto_BUF _ _ _) _ _
  refine ⟨fun e scanned => ?_, fun peak scanned => ?_⟩
  · rw [processBody_of_scan_error (scan.trans scanned)]
    exact failWith_change _ _ start
  · rw [processBody_of_scan_ok (scan.trans scanned)]
    generalize runLatch (acquire s) = r at start locals
    obtain ⟨u, l⟩ := r
    dsimp only at start locals
    subst locals
    let l : Locals V := { Locals.start (acquire s).cfg (acquire s).dp.S with
      dirty := (acquire s).DIRTY, blk := blockLocals (acquire s).cfg p }
    have ran := runBlock_change nch nsamp peak (u, l)
    have sameStart : afterLoop u.cfg nch nsamp (u.dp, { l with pIn := peak }) = afterLoop s.cfg nch nsamp
        (latchInto (acquire s).DIRTY s.dp p, blockStart s (acquire s).DIRTY p peak) := by
      simp only [l, start.cfg, start.dp, acquire_cfg, acquire_dp, blockStart]
    dsimp only at ran
    rw [sameStart] at ran
    generalize afterLoop s.cfg nch nsamp _ = q at ran ⊢
    exact (start.published nch nsamp peak q.1).trans ran

end Sys2Proof.Machine
end

section
/-! PROOFS. The commands as a whole (46_commands.md): what each can come to, which is said once for PREPARE and PROCESS,
their refusals and their answers. -/

namespace Sys2Proof.Machine

/-! ## The port (46_commands.md R190) -/

/-- Settles O7: the step runs the word at the head of the port, and a legal word is its command. -/
theorem stepRunsDecodedCommand : Obligations.StepRunsDecodedCommand := by
  intro s w i rest port legal
  rw [step_of_cmd port, runWord, legal]

section
variable {V : Type} [NUM V] [DecidableEq V]

/-- While the sequencer runs, a command of another agent is the same atomic step as when it does not, and a sequencer
command is refused (46_commands.md R190). -/
theorem command_of_busy (i : Instr) {s : Over.State V} (h : s.BUSY = true) : command i s = whileBusy i s := by
  cases i with
  | prepare | reset | seed | process =>
    simp only [command, whileBusy, prepare, reset, seed, process, unlessBusy_of_busy h]
  | _ => rfl

omit [DecidableEq V] in
theorem whileBusy_seq {i : Instr} (h : i.cls = .seq) (s : Over.State V) : whileBusy i s = refusedWith 2 s := by
  cases i with
  | prepare | reset | seed | process => rfl
  | _ => cases h

end

/-- Settles O13. -/
theorem busyRefusesSequencerCommands : Obligations.BusyRefusesSequencerCommands := by
  intro i s sequencer busy
  let := numOf s.cfg
  rw [exec_eq_command, command_of_busy i busy, whileBusy_seq sequencer]

/-- Settles O14: a legal word by `command_of_busy`, an illegal one by the same `raise`. -/
theorem landingWordsActAsCommands : Obligations.LandingWordsActAsCommands := by
  intro w s busy
  let := numOf s.cfg
  simp only [runWord, land]
  cases decode w with
  | error => rfl
  | ok i =>
    simp only [exec_eq_command, command_of_busy i busy]

/-! ## What PREPARE and PROCESS can come to (R191, R197) -/

section
variable {V : Type} [NUM V] [DecidableEq V]

theorem prepare_cases (blk : Nat) (fs : Word32) (s : Over.State V) :
    prepare blk fs s = raise .busy none s ∨
    (s.BUSY = false ∧ prepareArgs s.cfg blk fs = none ∧ prepare blk fs s = failWith .arg none (acquire s)) ∨
    ∃ f len, s.BUSY = false ∧ prepareArgs s.cfg blk fs = some (f, len) ∧
      prepare blk fs s = runCommand (prepareOps f blk len) (acquire s) := by
  cases busy : s.BUSY with
  | true => exact .inl (unlessBusy_of_busy busy _)
  | false =>
    refine .inr ?_
    rw [prepare, unlessBusy_of_idle busy]
    cases prepareArgs s.cfg blk fs with
    | none => exact .inl ⟨rfl, rfl, rfl⟩
    | some args => exact .inr ⟨args.1, args.2, rfl, rfl, rfl⟩

theorem process_cases (nch nsamp : Nat) (s : Over.State V) :
    (∃ e, process nch nsamp s = raise e none s) ∨ process nch nsamp s = respond 0 s ∨
    Accepted nch nsamp s ∧ process nch nsamp s = processBody nch nsamp s := by
  cases busy : s.BUSY with
  | true => exact .inl ⟨_, unlessBusy_of_busy busy _⟩
  | false =>
    rw [process, unlessBusy_of_idle busy]
    split_ifs with wide empty unprepared long
    · exact .inl ⟨_, rfl⟩
    · exact .inr (.inl rfl)
    · exact .inl ⟨_, rfl⟩
    · exact .inl ⟨_, rfl⟩
    · simp only [Config.nchMax] at wide
      exact .inr (.inr ⟨⟨busy, by omega, by omega, by omega, by simpa using unprepared, by omega⟩, rfl⟩)

/-! ## BUSY at the end of a command (R190) -/

theorem processBody_BUSY (nch nsamp : Nat) (s : Over.State V) : (processBody nch nsamp s).BUSY = false := by
  unfold processBody
  dsimp only
  split <;> rfl

theorem command_BUSY (i : Instr) {s : Over.State V} (idle : s.BUSY = false) : (command i s).BUSY = false := by
  have run (ops : List (MicroOp V)) : (unlessBusy (fun s => runCommand ops (acquire s)) s).BUSY = false := by
    rw [unlessBusy_of_idle idle]
    rfl
  cases i with
  | prepare blk fs =>
    obtain refused | ⟨-, -, failed⟩ | ⟨f, len, -, -, ran⟩ := prepare_cases blk fs s
    · rw [command, refused, raise_BUSY, idle]
    · rw [command, failed]; rfl
    · rw [command, ran]; rfl
  | process nch nsamp =>
    obtain ⟨e, refused⟩ | skipped | ⟨-, ran⟩ := process_cases nch nsamp s
    · rw [command, refused, raise_BUSY, idle]
    · rw [command, skipped, respond_BUSY, idle]
    · rw [command, ran, processBody_BUSY]
  | reset => exact run _
  | seed => exact run _
  | setpSpeed | setpForm | gettIn | gettOut | gets => exact idle
  | _ w => exact (setNum_change _ w s).BUSY.trans idle

end

/-- Settles O10. -/
theorem commandsEndIdle : Obligations.CommandsEndIdle := fun i s idle =>
  ⟨_, exec_eq_command i s, letI := numOf s.cfg; command_BUSY i idle⟩

/-! ## Answers and parameters with nothing landing (30_encoding.md R81, 60_exceptions.md R217) -/

/-- One response more than before, without a value, and the parameters as before. -/
def AnsweredOnly {V : Type} (s t : Over.State V) : Prop :=
  t.P = s.P ∧ ∃ r : Response, t.out = .response r :: s.out ∧ r.code.toNat ≤ 5 ∧ r.value = 0

section
variable {V : Type}

theorem raise_answeredOnly (e : ErrCode) (i : Option (Nat × Nat)) (s : Over.State V) : AnsweredOnly s (raise e i s) :=
  ⟨rfl, ⟨errCode e, 0, i⟩, rfl, (errCode_mem e).2, rfl⟩

theorem respond_answeredOnly (s : Over.State V) : AnsweredOnly s (respond 0 s) :=
  ⟨rfl, ⟨0, 0, none⟩, rfl, by decide, rfl⟩

/-- The response comes after steps that write neither P nor the record. -/
theorem AnsweredOnly.of_eq {s u t : Over.State V} (h : AnsweredOnly u t) (hP : u.P = s.P) (hout : u.out = s.out) :
    AnsweredOnly s t := by
  obtain ⟨params, r, out, code, value⟩ := h
  exact ⟨params.trans hP, r, by rw [out, hout], code, value⟩

variable [NUM V] [DecidableEq V]

/-- With nothing landing, micro-operations write neither P nor the record. -/
theorem runOps_P_out_of_quiet {ops : List (MicroOp V)} {sl : Over.State V × Locals V} (quiet : sl.1.arrivals = []) :
    (runOps ops sl).1.P = sl.1.P ∧ (runOps ops sl).1.out = sl.1.out := by
  induction ops generalizing sl with
  | nil => exact ⟨rfl, rfl⟩
  | cons op rest ih =>
    obtain ⟨-, hP, -, -, -, harrivals, hout⟩ := run_keeps op sl.1 sl.2
    rw [runOps_cons, tick_of_quiet (harrivals.trans quiet)]
    obtain ⟨ihP, ihout⟩ := ih (sl := op.run sl.1 sl.2) (harrivals.trans quiet)
    exact ⟨ihP.trans hP, ihout.trans hout⟩

theorem runCommand_answeredOnly (ops : List (MicroOp V)) {s : Over.State V} (quiet : s.arrivals = []) :
    AnsweredOnly s (runCommand ops (acquire s)) := by
  rw [acquire_of_quiet quiet, runCommand]
  obtain ⟨hP, hout⟩ := runOps_P_out_of_quiet (ops := ops)
    (sl := ({ s with BUSY := true }, Locals.start s.cfg s.dp.S)) quiet
  exact (respond_answeredOnly _).of_eq hP hout

theorem processBody_answeredOnly (nch nsamp : Nat) {s : Over.State V} (quiet : s.arrivals = []) :
    AnsweredOnly s (processBody nch nsamp s) := by
  have latched := runLatch_of_quiet (s := { s with BUSY := true }) quiet
  rw [← acquire_of_quiet quiet] at latched
  cases scanned : scanPeak (runLatch (acquire s)).1.dp (blockCells nch nsamp) (NUM.lit 0) with
  | error e =>
    rw [processBody_of_scan_error scanned, latched, acquire_of_quiet quiet]
    exact (raise_answeredOnly _ _ _).of_eq rfl rfl
  | ok p =>
    rw [processBody_of_scan_ok scanned, latched, acquire_of_quiet quiet, runBlock_of_quiet _ _ _ _ (by exact quiet)]
    exact (respond_answeredOnly { s with out := s.out }).of_eq rfl rfl

/-- A sequencer command with nothing landing answers once, without a value, and leaves P alone. -/
theorem command_answeredOnly {i : Instr} (sequencer : i.cls = .seq) {s : Over.State V} (quiet : s.arrivals = []) :
    AnsweredOnly s (command i s) := by
  have run (ops : List (MicroOp V)) : AnsweredOnly s (unlessBusy (fun s => runCommand ops (acquire s)) s) := by
    unfold unlessBusy
    split
    · exact raise_answeredOnly _ _ _
    · exact runCommand_answeredOnly ops quiet
  cases i with
  | prepare blk fs =>
    obtain refused | ⟨-, -, failed⟩ | ⟨f, len, -, -, ran⟩ := prepare_cases blk fs s
    · rw [command, refused]; exact raise_answeredOnly _ _ _
    · rw [command, failed, acquire_of_quiet quiet]
      exact (raise_answeredOnly _ _ _).of_eq rfl rfl
    · rw [command, ran]; exact runCommand_answeredOnly _ quiet
  | process nch nsamp =>
    obtain ⟨e, refused⟩ | skipped | ⟨-, ran⟩ := process_cases nch nsamp s
    · rw [command, refused]; exact raise_answeredOnly _ _ _
    · rw [command, skipped]; exact respond_answeredOnly s
    · rw [command, ran]; exact processBody_answeredOnly nch nsamp quiet
  | reset => exact run _
  | seed => exact run _
  | _ => cases sequencer

omit [DecidableEq V] in
/-- SETP writes P, DIRTY, ERR and the record, and answers once, without a value. -/
theorem setNum_answer (k : NumParam) (w : Word32) (s : Over.State V) :
    ∃ r : Response, (setNum k w s).out = .response r :: s.out ∧ r.code.toNat ≤ 5 ∧ r.value = 0 := by
  unfold setNum
  split
  · exact ⟨_, rfl, by decide, rfl⟩
  · exact ⟨_, rfl, by decide, rfl⟩

omit [DecidableEq V] in
theorem setNum_frame (k : NumParam) (w : Word32) (s : Over.State V) :
    setNum k w s = { s with
      P := (setNum k w s).P, DIRTY := (setNum k w s).DIRTY, ERR := (setNum k w s).ERR, out := (setNum k w s).out } := by
  unfold setNum
  split <;> rfl

end

/-- Settles O11: the sequencer class by `command_answeredOnly`, the atomic steps by their one `respond` or `raise`. -/
theorem everyCommandAnswersOnce : Obligations.EveryCommandAnswersOnce := by
  intro i s t quiet h
  let := numOf s.cfg
  rw [exec_eq_command] at h
  cases h
  have sequencer (hi : i.cls = .seq) : ∃ r : Response,
      (command i s).out = .response r :: s.out ∧ r.code.toNat ≤ 5 ∧ (i.cls ≠ .obs → r.value = 0) := by
    obtain ⟨-, r, out, code, value⟩ := command_answeredOnly hi quiet
    exact ⟨r, out, code, fun _ => value⟩
  cases i with
  | prepare | reset | seed | process => exact sequencer rfl
  | gettIn | gettOut | gets => exact ⟨_, rfl, Nat.zero_le _, fun h => absurd rfl h⟩
  | setpSpeed | setpForm => exact ⟨_, rfl, by decide, fun _ => rfl⟩
  | _ w =>
    obtain ⟨r, out, code, value⟩ := setNum_answer _ w s
    exact ⟨r, out, code, fun _ => value⟩

/-- Settles O12. -/
theorem classesTouchOnlyTheirCells : Obligations.ClassesTouchOnlyTheirCells := by
  intro i s t quiet h
  let := numOf s.cfg
  rw [exec_eq_command] at h
  cases h
  refine ⟨fun control => ?_, fun observer => ?_, fun sequencer => (command_answeredOnly sequencer quiet).1⟩
  · cases i with
    | prepare | reset | seed | process | gettIn | gettOut | gets => cases control
    | setpSpeed | setpForm => rfl
    | _ w => exact setNum_frame _ w s
  · cases i with
    | gettIn | gettOut | gets => rfl
    | _ => cases observer

/-! ## PROCESS before the latch (R197) -/

/-- Settles O27: the checks in order, each the first that fails. -/
theorem processChecksInOrder : Obligations.ProcessChecksInOrder := by
  intro nch nsamp s idle
  let := numOf s.cfg
  have checks : exec (.process nch nsamp) s = .next (process nch nsamp s) := rfl
  rw [checks, process, unlessBusy_of_idle idle]
  refine ⟨fun wide => ?_, fun channels empty => ?_, fun some channels frame unprepared => ?_,
    fun some channels frame prepared long => ?_⟩
  · rw [if_pos (by exact wide)]
    rfl
  · rw [if_neg (by simp only [Config.nchMax]; omega), if_pos empty]
    rfl
  · rw [if_neg (by simp only [Config.nchMax]; omega), if_neg (by omega), if_pos (by simp [unprepared])]
    rfl
  · rw [if_neg (by simp only [Config.nchMax]; omega), if_neg (by omega), if_neg (by simp [prepared]), if_pos long]
    rfl

/-! ## PREPARE (R191) -/

section
variable {V : Type} [NUM V] [DecidableEq V]

/-- What PREPARE leaves once its arguments pass, with `p` the parameters its latch took. -/
def preparedState (s : Over.State V) (fs : V) (blk len : Nat) (p : ParamFile V) : Over.State V :=
  { s with
    PREPARED := true
    DIRTY := false
    BUSY := false
    PEAK_IN := NUM.lit 0
    PEAK_OUT := NUM.lit 0
    dp := { latchInto true { s.dp with FS := fs, BLKSZ := blk, L := len } p with
      ch := ⟨Chan.zero, Chan.zero⟩
      osc := Osc.zero
      SEQ := none } }

/-- PREPARE after its latch: the mapper, the clearing and PREPARED. -/
def prepareTail : List (MicroOp V) := mapperOps ++ clearOps ++ [.setPrepared]

omit [NUM V] [DecidableEq V] in
theorem prepareTail_ignoreAgents : ∀ op ∈ prepareTail (V := V), op.ignoresAgents := by
  simp [prepareTail, mapperOps, clearOps, MicroOp.ignoresAgents]

omit [NUM V] [DecidableEq V] in
theorem prepareOps_eq (fs : V) (blk len : Nat) :
    prepareOps fs blk len = .configure fs blk len :: (latchOps ++ prepareTail) := by
  simp [prepareOps, prepareTail]

theorem runOps_prepareTail_of_quiet {s : Over.State V} (l : Locals V) (quiet : s.arrivals = []) :
    (runOps prepareTail (s, l)).1 = { s with
      PREPARED := true
      PEAK_IN := NUM.lit 0
      PEAK_OUT := NUM.lit 0
      dp := { mapLFO (mapLP (mapHB s.dp)) with ch := ⟨Chan.zero, Chan.zero⟩, osc := Osc.zero } } := by
  rw [prepareTail, runOps_append, runOps_append, runOps_mapper l quiet, runOps_clear _ (by exact quiet)]
  exact congrArg Prod.fst (runOps_of_quiet (by exact quiet)).1

theorem runOps_prepareTail (s : Over.State V) (l : Locals V) :
    AgentChange { s with
      PREPARED := true
      PEAK_IN := NUM.lit 0
      PEAK_OUT := NUM.lit 0
      dp := { mapLFO (mapLP (mapHB s.dp)) with ch := ⟨Chan.zero, Chan.zero⟩, osc := Osc.zero } }
      (runOps prepareTail (s, l)).1 := by
  have change := runOps_quiet_change prepareTail_ignoreAgents (s := s.quiet) rfl (quiet_change s) l
  rw [runOps_prepareTail_of_quiet l rfl] at change
  exact change.of_quiet

/-- PREPARE with good arguments, whatever lands in it. -/
theorem runCommand_prepareOps (fs : V) (blk len : Nat) (s : Over.State V) : ∃ p,
    AgentChange (preparedState s fs blk len p) (runCommand (prepareOps fs blk len) (acquire s)) := by
  have acquired := acquire_change s
  generalize acquire s = a at acquired
  let d : Datapath V := { s.dp with FS := fs, BLKSZ := blk, L := len }
  let u : Over.State V := { a with dp := { a.dp with FS := fs, BLKSZ := blk, L := len } }
  have configured : AgentChange { s with BUSY := true, dp := d } (tick u) := by
    have same : u = { a with dp := d } := by rw [show u = { a with dp := { a.dp with FS := fs, BLKSZ := blk, L := len } } from rfl, acquired.dp]
    rw [same]
    exact (acquired.writeDp d).trans (tick_change _)
  rw [runCommand, prepareOps_eq, runOps_cons, runOps_append]
  change ∃ p, AgentChange _ (complete (runOps prepareTail
    (runOps latchOps (tick u, Locals.start a.cfg a.dp.S))).1)
  obtain ⟨p, latched, -⟩ := runOps_latchOps (tick u) (Locals.start a.cfg a.dp.S)
  generalize runOps latchOps (tick u, Locals.start a.cfg a.dp.S) = r at latched
  have start : AgentChange { s with BUSY := true, DIRTY := false, dp := { d with S := p } } r.1 := by
    have setup : { (tick u).dp with S := p } = { d with S := p } := by rw [configured.dp]
    rw [setup] at latched
    exact (configured.writeDp { d with S := p }).clearDirty.trans latched
  refine ⟨p, ?_⟩
  have tail := runOps_prepareTail r.1 r.2
  have mapped : mapLFO (mapLP (mapHB r.1.dp)) = latchInto true d p := by rw [start.dp]; rfl
  rw [mapped] at tail
  have whole := complete_change ((start.write true r.1.BUSY (NUM.lit 0) (NUM.lit 0) _).trans tail)
  exact ⟨whole.rest, whole.err, whole.dirty⟩

/-- PREPARE with good arguments and nothing landing. -/
theorem runCommand_prepareOps_of_quiet (fs : V) (blk len : Nat) {s : Over.State V} (quiet : s.arrivals = []) :
    runCommand (prepareOps fs blk len) (acquire s) =
      { preparedState s fs blk len s.P with out := answer 0 0 :: s.out } := by
  rw [acquire_of_quiet quiet, runCommand, prepareOps_eq, runOps_cons, runOps_append]
  simp only [MicroOp.run]
  rw [tick_of_quiet (by exact quiet), runOps_latch _ (by exact quiet), runOps_prepareTail_of_quiet _ (by exact quiet)]
  rfl

end

/-! ## PREPARE's arguments (R191) -/

section
variable {V : Type} [NUM V]

/-- What the checks of PREPARE ensure in every numeric domain. -/
theorem prepareArgs_eq_some {c : Cfg V} {blk : Nat} {fs : Word32} {f : V} {len : Nat}
    (h : prepareArgs c blk fs = some (f, len)) :
    1 ≤ blk ∧ blk ≤ c.nmax ∧ len ≤ c.lmax ∧ len = bufferLength f ∧ ¬NUM.le f (NUM.lit 0) = true := by
  unfold prepareArgs at h
  split at h
  · cases h
  · dsimp only at h
    split_ifs at h with rate size long
    cases h
    exact ⟨by omega, by omega, by omega, rfl, rate⟩

theorem prepareArgs_of_nonfinite (c : Cfg V) (blk : Nat) {fs : Word32} (h : dec32 fs = none) :
    prepareArgs c blk fs = none := by
  rw [prepareArgs, h]

theorem prepareArgs_of_blockSize {c : Cfg V} {blk : Nat} (fs : Word32) (h : blk = 0 ∨ c.nmax < blk) :
    prepareArgs c blk fs = none := by
  unfold prepareArgs
  split
  · rfl
  · dsimp only
    split_ifs
    · rfl
    · rfl

end

section
variable {V : Type} [Field V] [LinearOrder V] [IsStrictOrderedRing V] [FloorRing V] (F : Fns V)

theorem bufferLength_exact (f : V) : letI := NUM.exact F; bufferLength f = max 4 ⌈f / 20⌉.toNat := by
  have fiftyMs : ((Config.delayBufMs / 1000 : ℚ) : V) * f = f / 20 := by
    rw [Config.delayBufMs]
    push_cast
    ring
  simp only [bufferLength, Laws.lit_exact, Laws.ceil_exact, fiftyMs]

/-- The checks of PREPARE in exact arithmetic, past the operand's form and the block size. -/
theorem prepareArgs_exact {c : Cfg V} {blk : Nat} {fs : Word32} {q : ℚ} (h : dec32 fs = some q) (h₁ : 1 ≤ blk)
    (h₂ : blk ≤ c.nmax) : letI := NUM.exact F;
    prepareArgs c blk fs = if (q : V) ≤ 0 ∨ c.lmax < max 4 ⌈(q : V) / 20⌉.toNat then none
      else some ((q : V), max 4 ⌈(q : V) / 20⌉.toNat) := by
  have size : ¬(blk = 0 ∨ c.nmax < blk) := by omega
  simp only [prepareArgs, h, Laws.lit_exact, Laws.le_exact, bufferLength_exact, if_neg size, Rat.cast_zero,
    decide_eq_true_eq]
  by_cases rate : (q : V) ≤ 0
  · rw [if_pos rate, if_pos (.inl rate)]
  · rw [if_neg rate]
    simp only [rate, false_or]

/-- What the checks of PREPARE ensure in exact arithmetic. -/
theorem prepareArgs_exact_eq_some {c : Cfg V} {blk : Nat} {fs : Word32} {f : V} {len : Nat} :
    letI := NUM.exact F; prepareArgs c blk fs = some (f, len) → 0 < f ∧ len = max 4 ⌈f / 20⌉.toNat := by
  intro h
  let := NUM.exact F
  obtain ⟨-, -, -, length, rate⟩ := prepareArgs_eq_some h
  simp only [Laws.le_exact, Laws.lit_exact, Rat.cast_zero, decide_eq_true_eq, not_le] at rate
  exact ⟨rate, length.trans (bufferLength_exact F f)⟩

end

/-- PREPARE with a refused argument and nothing landing. -/
theorem prepare_of_refused {V : Type} [NUM V] [DecidableEq V] {blk : Nat} {fs : Word32} {s : Over.State V}
    (idle : s.BUSY = false) (quiet : s.arrivals = []) (seq : s.dp.SEQ = none)
    (refused : prepareArgs s.cfg blk fs = none) : prepare blk fs s = refusedWith 4 s := by
  rw [prepare, unlessBusy_of_idle idle, refused]
  dsimp only
  rw [acquire_of_quiet quiet, failWith_eq, raise_none]
  obtain ⟨⟩ := s
  dsimp only at idle seq
  subst idle
  rw [release, seq.symm]
  rfl

/-- Settles O24. -/
theorem prepareRefusesBadArguments : Obligations.PrepareRefusesBadArguments := by
  intro blk fs s idle quiet seq bad
  refine congrArg _ (letI := numOf s.cfg; prepare_of_refused idle quiet seq ?_)
  obtain nonfinite | zero | large | ⟨exactNum, f, finite, bad⟩ := bad
  · exact prepareArgs_of_nonfinite _ _ nonfinite
  · exact prepareArgs_of_blockSize _ (.inl zero)
  · exact prepareArgs_of_blockSize _ (.inr large)
  · by_cases size : blk = 0 ∨ s.cfg.nmax < blk
    · exact prepareArgs_of_blockSize _ size
    · rw [Laws.numOf_eq_exact exactNum, prepareArgs_exact _ finite (by omega) (by omega), if_pos (by simpa using bad)]

section
variable {s : State} (exactNum : s.cfg.num ≠ .other) (idle : s.BUSY = false) {blk : Nat} {fs : Word32} {f : ℚ}
  (finite : dec32 fs = some f) (rate : 0 < f) (h₁ : 1 ≤ blk) (h₂ : blk ≤ s.cfg.nmax)
  (fits : max 4 ⌈f / 20⌉.toNat ≤ s.cfg.lmax)
include exactNum idle finite rate h₁ h₂ fits

/-- PREPARE with good arguments runs its micro-operations. -/
theorem exec_prepare_of_good : exec (.prepare blk fs) s =
    .next (letI := numOf s.cfg; runCommand (prepareOps f blk (max 4 ⌈f / 20⌉.toNat)) (acquire s)) := by
  have good : (letI := numOf s.cfg; prepareArgs s.cfg blk fs) = some (f, max 4 ⌈f / 20⌉.toNat) := by
    rw [Laws.numOf_eq_exact exactNum, prepareArgs_exact _ finite h₁ h₂, Rat.cast_id, if_neg (by
      rintro (low | long)
      · exact rate.not_ge low
      · exact fits.not_gt long)]
  let := numOf s.cfg
  rw [exec_eq_command, command, prepare, unlessBusy_of_idle idle, good]

end

/-- Settles O25. -/
theorem prepareSetsUpTheBlock : Obligations.PrepareSetsUpTheBlock := by
  intro blk fs f s exactNum idle quiet finite rate h₁ h₂ fits
  refine ⟨_, exec_prepare_of_good exactNum idle finite rate h₁ h₂ fits, ?_⟩
  let := numOf s.cfg
  rw [runCommand_prepareOps_of_quiet _ _ _ quiet, preparedState, chanZero_numOf, oscZero_numOf, Laws.lit_numOf,
    latchInto_true]
  refine ⟨?_, mapper_coef_of_sizes { s.dp with S := s.P, FS := f } _ _⟩
  dsimp only
  rw [idle]

/-- Settles O26. -/
theorem prepareCompletesWhateverLands : Obligations.PrepareCompletesWhateverLands := by
  intro blk fs f s exactNum idle finite rate h₁ h₂ fits
  refine ⟨_, exec_prepare_of_good exactNum idle finite rate h₁ h₂ fits, ?_⟩
  let := numOf s.cfg
  obtain ⟨p, landed⟩ := runCommand_prepareOps f blk (max 4 ⌈f / 20⌉.toNat) s
  rw [preparedState, chanZero_numOf, oscZero_numOf, Laws.lit_numOf, latchInto_true] at landed
  refine ⟨landed.BUSY, landed.PREPARED, ?_⟩
  rw [landed.dp]
  exact ⟨rfl, rfl, rfl, pair_get_of_equal_halves _, rfl, landed.PEAK_IN, landed.PEAK_OUT, rfl, rfl,
    runCommand_out_head _ _⟩

end Sys2Proof.Machine
end

section
/-! PROOFS. The corner cases of the coefficient mapper in exact arithmetic: a flat head bump and a bounded divisor
(40_coefficient_mapper.md R105), and the low-pass coefficient (R106). -/

namespace Sys2Proof.Machine

/-! ## MAP.HB at an amount of 0 (R105) -/

section
variable {V : Type} [Field V] [LinearOrder V] [IsStrictOrderedRing V]

/-- A sine scaled by a third and by the inverse of an amplitude from 1 up moves 1 by at most a third. -/
theorem one_add_alpha_mem {F : Fns V} (hF : F.Lawful) {A : V} (hA : 1 ≤ A) (w0 : V) :
    2 / 3 ≤ 1 + F.sin w0 / (2 * 1.5) / A ∧ 1 + F.sin w0 / (2 * 1.5) / A ≤ 4 / 3 := by
  have pos : 0 < A := by linarith
  have width : (2 : V) * 1.5 = 3 := by norm_num
  have third : |F.sin w0 / 3 / A| ≤ 1 / 3 := by
    rw [abs_div, abs_div, abs_of_pos pos, abs_of_pos (by norm_num : (0 : V) < 3), div_div,
      div_le_div_iff₀ (by positivity) (by norm_num)]
    linarith [hF.sin_le w0]
  obtain ⟨lo, hi⟩ := abs_le.mp third
  rw [width]
  constructor <;> linarith

end

section
variable {V : Type} [Field V] [LinearOrder V] [FloorRing V] (F : Fns V)

theorem formGain_exact (f : Form) : letI := NUM.exact F;
    (formGain f : V) = match f with | .ferric => 1.2 | .chrome => 0.9 | .modern => 0.7 := by
  cases f <;> norm_num [formGain]

theorem bumpGain_exact (p : ParamFile V) : letI := NUM.exact F;
    bumpGain p = p.hbamt / 100 * 6 * formGain p.form := by
  simp only [bumpGain, Laws.lit_exact, Rat.cast_ofNat]

theorem formGain_exact_pos [IsStrictOrderedRing V] (f : Form) : letI := NUM.exact F; (0 : V) < formGain f := by
  cases f <;> norm_num [formGain]

end

/-- Settles O55: at an amount of 0 the amplitude is 1, so numerator and divisor agree; the divisor's range is that of
`one_add_alpha_mem`. -/
theorem headBumpAtZeroIsFlat : Obligations.HeadBumpAtZeroIsFlat := by
  intro V _ _ _ _ F s l hF rate amount k p gain A
  let := NUM.exact F
  have gainEq : formGain p.form = gain := formGain_exact F p.form
  have dbEq : bumpGain p / 40 = p.hbamt / 100 * 6 * gain / 40 := by rw [bumpGain_exact, gainEq]
  have gainPos : 0 < gain := gainEq ▸ formGain_exact_pos F p.form
  have hA : 1 ≤ A := hF.pow10_le _ (by have amount : 0 ≤ p.hbamt := amount; positivity)
  refine ⟨fun flat => ?_, fun w0 => one_add_alpha_mem hF hA w0⟩
  have unit : F.pow10 (bumpGain p / 40) = 1 := by
    rw [dbEq, flat, zero_div, zero_mul, zero_mul, zero_div, hF.pow10_zero]
  have written : k = (mapHB s.dp).coef := rfl
  rw [written, mapHB_exact]
  dsimp only
  rw [if_neg rate.not_ge, unit]
  have divisor := (one_add_alpha_mem hF le_rfl (2 * F.pi * bumpFreq p / s.dp.FS)).1
  rw [div_one] at divisor ⊢
  rw [mul_one]
  exact ⟨div_self (by linarith), rfl, rfl⟩

/-! ## MAP.LP (R106) -/

section
variable {V : Type} [Field V] [LinearOrder V] [FloorRing V] (F : Fns V)

/-- MAP.LP in exact arithmetic, at the cutoff that the snapshot gives. -/
theorem mapLP_exact (d : Datapath V) : letI := NUM.exact F;
    let w := 2 * F.pi * cutoff d.S / d.FS
    let k := if d.FS ≤ 0 then 1 else w / (1 + w)
    mapLP d = { d with coef := { d.coef with LPC := ⟨k, k⟩ } } := by
  by_cases guard : d.FS ≤ 0 <;> simp [mapLP, guard]

end

section
variable {V : Type} [Field V] [LinearOrder V] [IsStrictOrderedRing V]

/-- The shape `w / (1 + w)` is strictly between 0 and 1 for a positive `w`. -/
theorem div_one_add_mem {w : V} (h : 0 < w) : 0 < w / (1 + w) ∧ w / (1 + w) < 1 :=
  ⟨by positivity, (div_lt_one (by positivity)).mpr (by linarith)⟩

variable [FloorRing V] (F : Fns V)

theorem cutoff_mem (p : ParamFile V) : letI := NUM.exact F; 2000 ≤ cutoff p ∧ cutoff p ≤ 20000 := by
  let := NUM.exact F
  have lo : (NUM.lit 2000 : V) = 2000 := by rw [Laws.lit_exact, Rat.cast_ofNat]
  have hi : (NUM.lit 20000 : V) = 20000 := by rw [Laws.lit_exact, Rat.cast_ofNat]
  rw [cutoff, lo, hi]
  exact Laws.clamp_mem F _ (by norm_num)

/-- For a rate above 0 the low-pass coefficient is strictly between 0 and 1. -/
theorem lowpass_coefficient_mem {F : Fns V} (hF : F.Lawful) (p : ParamFile V) {FS : V} (rate : 0 < FS) :
    letI := NUM.exact F
    let w := 2 * F.pi * cutoff p / FS
    0 < w / (1 + w) ∧ w / (1 + w) < 1 := by
  let := NUM.exact F
  have circle : 0 < F.pi := by linarith [hF.pi.1]
  have cut : 0 < cutoff p := by linarith [(cutoff_mem F p).1]
  exact div_one_add_mem (by positivity)

/-- The two fractions by which warmth and age lower the cutoff. -/
theorem rolloff_factors_mem {warmth age : V} (hw : 0 ≤ warmth ∧ warmth ≤ 100) (ha : 0 ≤ age ∧ age ≤ 100) :
    0.6 ≤ 1 - warmth / 100 * 0.4 ∧ 1 - warmth / 100 * 0.4 ≤ 1 ∧ 0.7 ≤ 1 - age / 100 * 0.3 ∧
      1 - age / 100 * 0.3 ≤ 1 := by
  refine ⟨?_, ?_, ?_, ?_⟩ <;> linarith [hw.1, hw.2, ha.1, ha.2]

end

/-- Settles O56: the variant tables entry by entry; the product's bounds from those of its four factors. -/
theorem lowpassCoefficientFollowsTheCutoff : Obligations.LowpassCoefficientFollowsTheCutoff := by
  intro V _ _ _ _ F s l p base mult product cut w k
  let := NUM.exact F
  have baseEq : baseCut p.speed = base := by
    simp only [base]
    cases p.speed <;> norm_num [baseCut]
  have multEq : formMult p.form = mult := by
    simp only [mult]
    cases p.form <;> norm_num [formMult]
  have cutEq : cutoff p = cut := by
    have warm : ((2 / 5 : ℚ) : V) = 0.4 := by norm_num
    have old : ((3 / 10 : ℚ) : V) = 0.3 := by norm_num
    rw [cutoff, Laws.clamp_exact, baseEq, multEq]
    simp only [Laws.lit_exact, warm, old, Rat.cast_ofNat, Rat.cast_one]
    rfl
  have written : F.run .mapLP s l = ({ s with dp := mapLP s.dp }, l) := rfl
  refine ⟨?_, fun domain => ?_, fun hF rate => ?_⟩
  · rw [written, mapLP_exact, cutEq]
  · have warmth : 0 ≤ p.warmth ∧ p.warmth ≤ 100 := by
      simpa [NumParam.lo, NumParam.hi, ParamFile.get] using domain .warmth
    have age : 0 ≤ p.age ∧ p.age ≤ 100 := by
      simpa [NumParam.lo, NumParam.hi, ParamFile.get] using domain .age
    obtain ⟨warmLo, warmHi, ageLo, ageHi⟩ := rolloff_factors_mem warmth age
    have baseLo : 10000 ≤ base ∧ base ≤ 18000 := by
      simp only [base]
      cases p.speed <;> norm_num
    have multLo : 0.85 ≤ mult ∧ mult ≤ 1.1 := by
      simp only [mult]
      cases p.form <;> norm_num
    constructor
    · calc (3570 : V) = 10000 * 0.85 * 0.6 * 0.7 := by norm_num
        _ ≤ product := by
          have := baseLo.1
          have := multLo.1
          simp only [product]
          gcongr
    · calc product ≤ 18000 * 1.1 * 1 * 1 := by
            have := baseLo.2
            have := multLo.2
            have : 0 ≤ base := by linarith
            have : 0 ≤ mult := by linarith
            simp only [product]
            gcongr
        _ = 19800 := by norm_num
  · have coefficient := lowpass_coefficient_mem hF p rate
    rw [cutEq] at coefficient
    simp only [k, if_neg rate.not_ge]
    exact coefficient

end Sys2Proof.Machine
end

section
/-! PROOFS. The invariant (10_state.md sections 1 to 7): the shape of the private state in every numeric domain, and the
ranges of the values in exact arithmetic. -/

namespace Sys2Proof.Machine

/-! ## Values in their ranges, in exact arithmetic -/

section
variable {V : Type} [Field V] [LinearOrder V] [FloorRing V]

/-- A write of the other agents keeps the values in their ranges if it keeps the parameters in their domains. -/
theorem AgentChange.inRange {s t : Over.State V} (a : AgentChange s t) (h : s.InRange) (params : t.P.InDomain) :
    t.InRange := by
  rw [a.rest]
  exact { h with params := params }

omit [FloorRing V] in
theorem ParamFile.InDomain.set {p : ParamFile V} (h : p.InDomain) (k : NumParam) {v : V}
    (hv : ((k.lo : ℚ) : V) ≤ v ∧ v ≤ ((k.hi : ℚ) : V)) : (p.set k v).InDomain := by
  intro j
  rw [get_set]
  split
  · subst j; exact hv
  · exact h j

variable [IsStrictOrderedRing V] (F : Fns V)

theorem setNum_inDomain (k : NumParam) (w : Word32) {s : Over.State V} (h : s.P.InDomain) :
    letI := NUM.exact F; (setNum k w s).P.InDomain := by
  let := NUM.exact F
  cases finite : dec32 w with
  | none => rw [setNum_of_nonfinite k s finite]; exact h
  | some q =>
    rw [setNum_of_finite k s finite]
    exact h.set k (Laws.clamp_mem F _ (Rat.cast_le.mpr k.lo_le_hi))

theorem whileBusy_inDomain (i : Instr) {s : Over.State V} (h : s.P.InDomain) :
    letI := NUM.exact F; (whileBusy i s).P.InDomain := by
  cases i with
  | prepare | reset | seed | process | gettIn | gettOut | gets => exact h
  | setpSpeed | setpForm => exact fun j => by cases j <;> exact h _
  | _ w => exact setNum_inDomain F _ w h

theorem land_inDomain (w : CmdWord) {s : Over.State V} (h : s.P.InDomain) :
    letI := NUM.exact F; (land w s).P.InDomain := by
  unfold land
  split
  · exact whileBusy_inDomain F _ h
  · exact h

theorem landDue_inDomain (as : List Arrival) {s : Over.State V} (h : s.P.InDomain) :
    letI := NUM.exact F; (landDue as s).P.InDomain := by
  induction as generalizing s with
  | nil => exact h
  | cons a rest ih =>
    unfold landDue
    split
    · exact ih (land_inDomain F _ h)
    · exact h

theorem tick_inRange {s : Over.State V} (h : s.InRange) : letI := NUM.exact F; (tick s).InRange :=
  letI := NUM.exact F
  (tick_change s).inRange h (landDue_inDomain F _ h.params)

theorem acquire_inRange {s : Over.State V} (h : s.InRange) : letI := NUM.exact F; (acquire s).InRange :=
  tick_inRange F (s := { s with BUSY := true }) { h with }

omit [FloorRing V] [IsStrictOrderedRing V] in
theorem ParamFile.InDomain.copy (k : ParamId) {src dst : ParamFile V} (hs : src.InDomain) (hd : dst.InDomain) :
    (ParamFile.copy k src dst).InDomain := by
  cases k with
  | num j => exact hd.set j (hs j)
  | speed | form => exact fun j => by cases j <;> exact hd _

/-! The mapper (40_coefficient_mapper.md) -/

omit [IsStrictOrderedRing V] in
theorem mapHB_inRange {d : Datapath V} (h : d.coef.InRange) : letI := NUM.exact F; (mapHB d).coef.InRange := by
  rw [mapHB_exact]
  dsimp only
  split <;> exact { h with }

theorem mapLP_inRange {F : Fns V} (hF : F.Lawful) {d : Datapath V} (h : d.coef.InRange) :
    letI := NUM.exact F; (mapLP d).coef.InRange := by
  rw [mapLP_exact]
  dsimp only
  refine { h with lpc := fun c => ?_ }
  rw [pair_get_of_equal_halves]
  split
  · exact ⟨one_pos, le_rfl⟩
  · obtain ⟨lo, hi⟩ := lowpass_coefficient_mem hF d.S (not_le.mp ‹_›)
    exact ⟨lo, hi.le⟩

theorem mapLFO_inRange {d : Datapath V} (h : d.coef.InRange) : letI := NUM.exact F; (mapLFO d).coef.InRange := by
  let := NUM.exact F
  rw [mapLFO_eq]
  simp only [Laws.le_exact, Laws.lit_exact, Rat.cast_zero, decide_eq_true_eq]
  refine { h with winc := ?_, finc := ?_ }
  · dsimp only
    split
    · exact le_rfl
    · exact div_nonneg (wowRate_mem F _).1 (not_le.mp ‹_›).le
  · dsimp only
    split
    · exact le_rfl
    · exact div_nonneg (by linarith [(flutterRate_mem F (Prng.advance (Prng.advance d.RNG))).1]) (not_le.mp ‹_›).le

omit [IsStrictOrderedRing V] in
/-- LFO.RND writes the oscillators and the generator (43_pitch_modulation.md R142). -/
theorem lfoRnd_eq (d : Datapath V) : letI := NUM.exact F;
    lfoRnd d = { d with osc := (lfoRnd d).osc, RNG := (lfoRnd d).RNG } := by
  unfold lfoRnd
  split <;> rfl

/-! The oscillators (43_pitch_modulation.md R141, R142) -/

theorem lfoAdv_inRange {d : Datapath V} (h : d.osc.InRange) : letI := NUM.exact F; (lfoAdv d).osc.InRange :=
  { h with wph := Laws.frac_mem F _, fph := Laws.frac_mem F _ }

theorem lfoRnd_inRange {d : Datapath V} (h : d.osc.InRange) : letI := NUM.exact F; (lfoRnd d).osc.InRange := by
  let := NUM.exact F
  obtain below | reached := Nat.lt_or_ge d.osc.MODCNT 999
  · rw [lfoRnd_of_lt below]
    exact { h with }
  · have retain : (NUM.lit (99 / 100) : V) = 0.99 := by rw [Laws.lit_exact]; norm_num
    have new : (NUM.lit (1 / 100) : V) = 0.01 := by rw [Laws.lit_exact]; norm_num
    rw [lfoRnd_of_ge reached, retain, new]
    exact { h with
      wro := abs_le.mp (abs_blend_draw_le F (abs_le.mpr h.wro) _)
      fro := abs_le.mp (abs_blend_draw_le F (abs_le.mpr h.fro) _) }

omit [FloorRing V] in
theorem oscZero_inRange (m w : Nat) : (⟨0, 0, 0, 0, m, w⟩ : Osc V).InRange := by
  constructor <;> norm_num

/-! The peaks (45_pipeline.md R173, R183) -/

omit [IsStrictOrderedRing V] in
theorem scanPeak_nonneg {d : Datapath V} {cells : List (Channel × Nat)} {p q : V} (hp : 0 ≤ p) : letI := NUM.exact F;
    scanPeak d cells p = .ok q → 0 ≤ q := by
  let := NUM.exact F
  induction cells generalizing p with
  | nil => rintro ⟨⟩; exact hp
  | cons e rest ih =>
    rw [scanPeak]
    split
    · rintro ⟨⟩
    · exact ih (le_max_of_le_left hp)

omit [IsStrictOrderedRing V] in
theorem peakOf_nonneg (d : Datapath V) (cells : List (Channel × Nat)) : letI := NUM.exact F; 0 ≤ peakOf d cells := by
  let := NUM.exact F
  refine List.foldlRecOn cells _ (motive := fun p => 0 ≤ p) (Rat.cast_zero (α := V)).ge ?_
  intro p hp e _
  exact le_max_of_le_left hp

/-! The micro-operations -/

/-- What the sequencer holds of the peaks is not negative either. -/
structure ValuesInRange (s : Over.State V) (l : Locals V) : Prop where
  state : s.InRange
  pIn : 0 ≤ l.pIn
  pOut : 0 ≤ l.pOut

/-- PREPARE's one assignment writes sizes that passed its checks (46_commands.md R191). -/
def MicroOp.setsGoodSizes : MicroOp V → Prop
  | .configure fs _ len => 0 < fs ∧ len = max 4 ⌈fs / 20⌉.toNat
  | _ => True

omit [IsStrictOrderedRing V] in
theorem setsGoodSizes_of_inFrames {nch nsamp : Nat} {op : MicroOp V} (h : op.inFrames nch nsamp) : op.setsGoodSizes := by
  cases op with
  | configure => exact h.elim
  | _ => trivial

omit [IsStrictOrderedRing V] in
theorem latchOps_setGoodSizes : ∀ op ∈ latchOps (V := V), op.setsGoodSizes := by
  simp [latchOps, MicroOp.setsGoodSizes]

omit [IsStrictOrderedRing V] in
theorem prepareTail_setsGoodSizes : ∀ op ∈ prepareTail (V := V), op.setsGoodSizes := by
  simp [prepareTail, mapperOps, clearOps, MicroOp.setsGoodSizes]

variable [DecidableEq V]

/-- Every micro-operation keeps the values in their ranges. -/
theorem run_inRange {F : Fns V} (hF : F.Lawful) {op : MicroOp V} (hop : op.setsGoodSizes) {s : Over.State V}
    {l : Locals V} (h : ValuesInRange s l) : letI := NUM.exact F;
    ValuesInRange (op.run s l).1 (op.run s l).2 := by
  let := NUM.exact F
  obtain ⟨values, pIn, pOut⟩ := h
  cases op with
  | configure => exact ⟨{ values with rate := .inr hop }, pIn, pOut⟩
  | latch k => exact ⟨{ values with snapshot := values.params.copy k values.snapshot }, pIn, pOut⟩
  | mapHB =>
    refine ⟨?_, pIn, pOut⟩
    rw [MicroOp.run, onDatapath, mapHB_eq]
    exact { values with coef := mapHB_inRange F values.coef }
  | mapLP =>
    refine ⟨?_, pIn, pOut⟩
    rw [MicroOp.run, onDatapath, mapLP_eq]
    exact { values with coef := mapLP_inRange hF values.coef }
  | mapLFO =>
    have coef := mapLFO_inRange F values.coef
    refine ⟨?_, pIn, pOut⟩
    rw [MicroOp.run, onDatapath, mapLFO_eq]
    rw [mapLFO_eq] at coef
    exact { values with coef := coef }
  | clearOsc => 
    have zero : (Osc.zero : Osc V) = ⟨0, 0, 0, 0, 0, 0⟩ := by simp [Osc.zero]
    refine ⟨?_, pIn, pOut⟩
    rw [MicroOp.run, onDatapath, zero]
    exact { values with osc := oscZero_inRange 0 0 }
  | clearPeakIn => exact ⟨{ values with peakIn := (Rat.cast_zero (α := V)).ge }, pIn, pOut⟩
  | clearPeakOut => exact ⟨{ values with peakOut := (Rat.cast_zero (α := V)).ge }, pIn, pOut⟩
  | lfoAdv => exact ⟨{ values with osc := lfoAdv_inRange F values.osc }, pIn, pOut⟩
  | lfoRnd =>
    have osc := lfoRnd_inRange F values.osc
    refine ⟨?_, pIn, pOut⟩
    rw [MicroOp.run, onDatapath, lfoRnd_eq]
    exact { values with osc := osc }
  | dlyAdv => exact ⟨{ values with osc := { values.osc with } }, pIn, pOut⟩
  | publishIn => exact ⟨{ values with peakIn := pIn }, pIn, pOut⟩
  | publishOut => exact ⟨{ values with peakOut := pOut }, pIn, pOut⟩
  | peakCapOut nch nsamp => exact ⟨values, pIn, peakOf_nonneg F _ _⟩
  | _ => exact ⟨{ values with }, pIn, pOut⟩

/-! The commands -/

theorem runOps_inRange {F : Fns V} (hF : F.Lawful) {ops : List (MicroOp V)} (hops : ∀ op ∈ ops, op.setsGoodSizes)
    {sl : Over.State V × Locals V} (h : ValuesInRange sl.1 sl.2) : letI := NUM.exact F;
    ValuesInRange (runOps ops sl).1 (runOps ops sl).2 := by
  let := NUM.exact F
  refine runOps_induct_tick (I := fun q => ValuesInRange q.1 q.2) (fun op hop s l => ?_) (fun s l q => ?_) sl h
  · exact run_inRange hF (hops op hop)
  · exact { q with state := tick_inRange F q.state }

omit [DecidableEq V] [IsStrictOrderedRing V] in
theorem start_inRange {s : Over.State V} (h : s.InRange) (c : Cfg V) (p : ParamFile V) : letI := NUM.exact F;
    ValuesInRange s (Locals.start c p) :=
  ⟨h, (Rat.cast_zero (α := V)).ge, (Rat.cast_zero (α := V)).ge⟩

theorem runCommand_inRange {F : Fns V} (hF : F.Lawful) {ops : List (MicroOp V)} (hops : ∀ op ∈ ops, op.setsGoodSizes)
    {s : Over.State V} (h : s.InRange) : letI := NUM.exact F; (runCommand ops s).InRange := by
  let := NUM.exact F
  have ran := (runOps_inRange hF hops (sl := (s, Locals.start s.cfg s.dp.S)) (start_inRange F h _ _)).state
  exact { ran with }

theorem runLatch_inRange {F : Fns V} (hF : F.Lawful) {s : Over.State V} (h : s.InRange) : letI := NUM.exact F;
    ValuesInRange (runLatch s).1 (runLatch s).2 := by
  let := NUM.exact F
  have mapper (b : Bool) : ∀ op ∈ (if b then mapperOps else []) ++ [MicroOp.setLocals (V := V)], op.setsGoodSizes := by
    cases b <;> simp [mapperOps, MicroOp.setsGoodSizes]
  exact runOps_inRange hF (mapper _) (runOps_inRange hF latchOps_setGoodSizes (start_inRange F h s.cfg s.dp.S))

theorem runBlock_inRange {F : Fns V} (hF : F.Lawful) (nch nsamp : Nat) {p : V} (hp : 0 ≤ p)
    {r : Over.State V × Locals V} (h : ValuesInRange r.1 r.2) : letI := NUM.exact F;
    (runBlock nch nsamp p r).InRange := by
  let := NUM.exact F
  have ops : ∀ op ∈ framesOps r.2.blk nch nsamp ++ publishOps nch nsamp, op.setsGoodSizes := by
    intro op hop
    obtain frames | publish := List.mem_append.mp hop
    · exact setsGoodSizes_of_inFrames (framesOps_inFrames _ _ _ op frames)
    · simp only [publishOps, List.mem_cons, List.not_mem_nil, or_false] at publish
      obtain rfl | rfl | rfl := publish <;> trivial
  have start : ValuesInRange (tick r.1) { r.2 with pIn := p } := ⟨tick_inRange F h.state, hp, h.pOut⟩
  have ran := (runOps_inRange hF ops (sl := (tick r.1, { r.2 with pIn := p })) start).state
  exact { ran with }

theorem processBody_inRange {F : Fns V} (hF : F.Lawful) (nch nsamp : Nat) {s : Over.State V} (h : s.InRange) :
    letI := NUM.exact F; (processBody nch nsamp s).InRange := by
  let := NUM.exact F
  have latched := runLatch_inRange hF (acquire_inRange F h)
  cases scanned : scanPeak (runLatch (acquire s)).1.dp (blockCells nch nsamp) (NUM.lit 0) with
  | error e =>
    rw [processBody_of_scan_error scanned]
    generalize runLatch (acquire s) = r at latched
    have values := latched.state
    exact { values with }
  | ok p =>
    rw [processBody_of_scan_ok scanned]
    exact runBlock_inRange hF nch nsamp (scanPeak_nonneg F (Rat.cast_zero (α := V)).ge scanned) latched

theorem prepare_inRange {F : Fns V} (hF : F.Lawful) (blk : Nat) (fs : Word32) {s : Over.State V} (h : s.InRange) :
    letI := NUM.exact F; (prepare blk fs s).InRange := by
  let := NUM.exact F
  obtain refused | ⟨-, -, failed⟩ | ⟨f, len, -, args, ran⟩ := prepare_cases blk fs s
  · rw [refused]
    exact { h with }
  · rw [failed]
    have acquired := acquire_inRange F h
    exact { acquired with }
  · rw [ran]
    have sizes := prepareArgs_exact_eq_some F args
    refine runCommand_inRange hF (fun op hop => ?_) (acquire_inRange F h)
    rw [prepareOps_eq] at hop
    obtain rfl | hop := List.mem_cons.mp hop
    · exact sizes
    · obtain latch | tail := List.mem_append.mp hop
      · exact latchOps_setGoodSizes op latch
      · exact prepareTail_setsGoodSizes op tail

theorem process_inRange {F : Fns V} (hF : F.Lawful) (nch nsamp : Nat) {s : Over.State V} (h : s.InRange) :
    letI := NUM.exact F; (process nch nsamp s).InRange := by
  let := NUM.exact F
  obtain ⟨e, refused⟩ | skipped | ⟨-, ran⟩ := process_cases nch nsamp s
  · rw [refused]
    exact { h with }
  · rw [skipped]
    exact { h with }
  · rw [ran]
    exact processBody_inRange hF nch nsamp h

/-- Every command keeps the values in their ranges. -/
theorem command_inRange {F : Fns V} (hF : F.Lawful) (i : Instr) {s : Over.State V} (h : s.InRange) :
    letI := NUM.exact F; (command i s).InRange := by
  let := NUM.exact F
  have run {ops : List (MicroOp V)} (hops : ∀ op ∈ ops, op.setsGoodSizes) :
      (unlessBusy (fun s => runCommand ops (acquire s)) s).InRange := by
    unfold unlessBusy
    split
    · exact { h with }
    · exact runCommand_inRange hF hops (acquire_inRange F h)
  cases i with
  | prepare blk fs => exact prepare_inRange hF blk fs h
  | process nch nsamp => exact process_inRange hF nch nsamp h
  | reset => exact run (by simp [clearOps, MicroOp.setsGoodSizes])
  | seed => exact run (by simp [MicroOp.setsGoodSizes])
  | gettIn | gettOut | gets => exact { h with }
  | setpSpeed w => exact (setSpeed_change w s).inRange h (whileBusy_inDomain F (.setpSpeed w) h.params)
  | setpForm w => exact (setForm_change w s).inRange h (whileBusy_inDomain F (.setpForm w) h.params)
  | _ w => exact (setNum_change _ w s).inRange h (setNum_inDomain F _ w h.params)

end

/-! ## The shape of the private state, in every numeric domain -/

section
variable {V : Type} [NUM V] [Zero V] [DecidableEq V]

/-- The invariant of the private state while the sequencer runs: SEQ has its own meaning there (10_state.md R33). -/
def Datapath.Sound (c : Cfg V) (d : Datapath V) : Prop := Datapath.Inv c { d with SEQ := none }

omit [NUM V] in
theorem Datapath.Inv.sound {c : Cfg V} {d : Datapath V} (h : d.Inv c) : d.Sound c := { h with seq := rfl }

omit [NUM V] in
theorem Datapath.Sound.inv {c : Cfg V} {d : Datapath V} (h : d.Sound c) : Datapath.Inv c { d with SEQ := none } := h

omit [NUM V] in
/-- A stage that leaves its channel's delay RAM alone keeps the invariant. -/
theorem Datapath.Sound.setChan {c : Cfg V} {d : Datapath V} (h : d.Sound c) (e : Channel) {x : Chan V}
    (hx : x.Inv d.L) : (setChan e x d).Sound c := by
  refine { h with chan := fun ch => ?_ }
  dsimp only
  rw [setChan_ch, pair_get_set]
  split
  · exact hx
  · exact h.chan ch

omit [NUM V] in
theorem Datapath.Sound.bufWrite {c : Cfg V} {d : Datapath V} (h : d.Sound c) (e : Channel) {n : Nat}
    (hn : n < c.nmax) (v : V) : (bufWrite e n v d).Sound c := by
  refine { h with buf := fun ch => ?_ }
  dsimp only
  rw [bufWrite_BUF, pair_get_set]
  obtain ⟨canonical, inRange⟩ := h.buf e
  split
  · exact ⟨Laws.wf_write canonical n v, Laws.below_write inRange hn v⟩
  · exact h.buf ch

variable (zero : (NUM.lit 0 : V) = 0)

section
variable {c : Cfg V} {d : Datapath V} (h : d.Sound c)
include h

theorem lfoRnd_sound : (lfoRnd d).Sound c := by
  have modcnt : d.osc.MODCNT < 1000 := h.modcnt
  obtain below | reached := Nat.lt_or_ge d.osc.MODCNT 999
  · rw [lfoRnd_of_lt below]
    exact { h with modcnt := show d.osc.MODCNT + 1 < 1000 by omega }
  · rw [lfoRnd_of_ge reached]
    exact { h with
      modcnt := show 0 < 1000 by decide
      rng := Laws.advance_ne_zero (Laws.advance_ne_zero h.rng) }

omit [NUM V] in
theorem dlyAdv_sound (len : 0 < d.L) : (dlyAdv d).Sound c := by
  refine { h with wcur := .inl ?_ }
  dsimp only [dlyAdv]
  exact Laws.modNat_lt _ len

include zero in
theorem dlyWr_sound (len : 0 < d.L) (e : Channel) (x : V) : (dlyWr e x d).Sound c := by
  obtain ⟨canonical, inRange⟩ := h.chan e
  have cursor : d.osc.WCUR < d.L := h.wcur.resolve_right fun w => len.ne' w.1
  refine h.setChan e ⟨?_, ?_⟩
  · rw [zero]
    exact Laws.wf_write canonical _ x
  · exact Laws.below_write inRange cursor x

end

include zero in
/-- Every micro-operation of the frame loop of a block that fits keeps the invariant. -/
theorem onFrame_sound {nch nsamp : Nat} {op : MicroOp V} (hop : op.inFrames nch nsamp) {c : Cfg V}
    {q : Datapath V × Locals V} (h : q.1.Sound c) (fits : nsamp ≤ q.1.BLKSZ) (len : 0 < q.1.L) :
    (op.onFrame c q).1.Sound c := by
  have sized : q.1.BLKSZ ≤ c.nmax := by
    have := h.sized
    dsimp only at this
    omega
  cases op with
  | lfoRnd => exact lfoRnd_sound h
  | dlyAdv => exact dlyAdv_sound h len
  | dlyWr e => exact dlyWr_sound zero h len e _
  | mix n e => exact h.bufWrite e (show n < c.nmax by have := hop.2; omega) _
  | saturate e | biquad e | lowpass e => exact h.setChan e { h.chan e with }
  | noise => exact { h with rng := Laws.advance_ne_zero (Laws.advance_ne_zero h.rng) }
  | seqAt | lfoAdv | lfoMod | gainIn | dlyRd | noiseAdd | gainOut => exact { h with }
  | _ => exact hop.elim

include zero in
/-- The frame loop of a block that fits keeps the invariant. -/
theorem afterLoop_sound {nch nsamp : Nat} {c : Cfg V} {q : Datapath V × Locals V} (h : q.1.Sound c)
    (fits : nsamp ≤ q.1.BLKSZ) (len : 0 < q.1.L) : (afterLoop c nch nsamp q).1.Sound c := by
  have inFrames := framesOps_inFrames q.2.blk nch nsamp
  refine (onFrames_induct (I := fun r => r.1.Sound c ∧ nsamp ≤ r.1.BLKSZ ∧ 0 < r.1.L) ?_ ⟨h, fits, len⟩).1
  rintro op hop r ⟨sound, fits, len⟩
  obtain ⟨⟨-, -, sameBlock, sameLen, -⟩, -⟩ := onFrame_keeps (inFrames op hop) c r
  exact ⟨onFrame_sound zero (inFrames op hop) sound fits len, sameBlock ▸ fits, sameLen ▸ len⟩

omit [Zero V] [DecidableEq V] in
theorem latchInto_RNG_ne_zero {dirty : Bool} {d : Datapath V} (h : d.RNG ≠ .prbs 0) (p : ParamFile V) :
    (latchInto dirty d p).RNG ≠ .prbs 0 := by
  rw [latchInto_eq]
  dsimp only
  split
  · exact Laws.advance_ne_zero (Laws.advance_ne_zero (Laws.advance_ne_zero (Laws.advance_ne_zero h)))
  · exact h

theorem latchInto_sound {dirty : Bool} {c : Cfg V} {d : Datapath V} (h : d.Sound c) (p : ParamFile V) :
    (latchInto dirty d p).Sound c := by
  have rng := latchInto_RNG_ne_zero (dirty := dirty) h.rng p
  rw [latchInto_eq] at rng ⊢
  exact { h with rng := rng }

/-- The parts of the invariant that a sequencer command writes. -/
structure Over.State.Fit (c : Cfg V) (s : Over.State V) : Prop where
  prepared : s.PREPARED = true → 1 ≤ s.dp.BLKSZ
  dp : s.dp.Inv c

omit [NUM V] in
theorem AgentChange.fit {s t : Over.State V} (a : AgentChange s t) {c : Cfg V} (h : s.Fit c) : t.Fit c := by
  obtain ⟨prepared, dp⟩ := h
  rw [← a.PREPARED, ← a.dp] at *
  exact ⟨prepared, dp⟩

variable {s : Over.State V} (h : s.Shaped)
include h

omit [NUM V] in
theorem Over.State.Shaped.fit : s.Fit s.cfg := ⟨h.prepared, h.dp⟩

omit h in
theorem chanZero_inv (len : Nat) (c : Channel) : ((⟨Chan.zero, Chan.zero⟩ : Pair (Chan V)).get c).Inv len := by
  rw [pair_get_of_equal_halves]
  exact ⟨rfl, rfl⟩

theorem reset_fit : (runCommand clearOps (acquire s)).Fit s.cfg := by
  have change := runCommand_quiet_change clearOps_ignoreAgents s
  rw [runCommand_clearOps (s := s.quiet) rfl] at change
  obtain ⟨prepared, dp⟩ := h.fit
  refine change.fit ⟨prepared, { dp with chan := chanZero_inv _, modcnt := ?_, wcur := ?_, seq := rfl }⟩
  · exact Nat.zero_lt_succ _
  · exact (Nat.eq_zero_or_pos _).symm.imp_right fun len => ⟨len, rfl⟩

theorem seed_fit (w : Word32) : (runCommand [.seedRng w] (acquire s)).Fit s.cfg := by
  have change := runCommand_quiet_change (seedRng_ignoresAgents w) s
  rw [runCommand_seedRng w (s := s.quiet) rfl] at change
  obtain ⟨prepared, dp⟩ := h.fit
  exact change.fit ⟨prepared, { dp with rng := Laws.seedOf_ne_zero _ w, seq := rfl }⟩

theorem prepare_fit (blk : Nat) (fs : Word32) : (prepare blk fs s).Fit s.cfg := by
  obtain refused | ⟨-, -, failed⟩ | ⟨f, len, -, args, ran⟩ := prepare_cases blk fs s
  · rw [refused]
    exact (raise_change _ _ s).fit h.fit
  · rw [failed]
    refine (failWith_change _ _ (acquire_change s)).fit ⟨h.prepared, { h.dp with seq := rfl }⟩
  · rw [ran]
    obtain ⟨size, fits, long, length, -⟩ := prepareArgs_eq_some args
    obtain ⟨p, change⟩ := runCommand_prepareOps f blk len s
    have four : 4 ≤ len := length ▸ le_max_left _ _
    have rng := latchInto_RNG_ne_zero (dirty := true) (d := { s.dp with FS := f, BLKSZ := blk, L := len }) h.dp.rng p
    rw [preparedState] at change
    rw [latchInto_true] at change rng
    exact change.fit ⟨fun _ => size, .inr ⟨size, fits, four, long⟩, chanZero_inv _, Nat.zero_lt_succ _,
      .inl (by dsimp only [Osc.zero]; omega), rng, h.dp.buf, rfl⟩

include zero in
theorem process_fit (nch nsamp : Nat) : (process nch nsamp s).Fit s.cfg := by
  obtain ⟨e, refused⟩ | skipped | ⟨accepted, ran⟩ := process_cases nch nsamp s
  · rw [refused]
    exact (raise_change _ _ s).fit h.fit
  · rw [skipped]
    exact (respond_change _ s).fit h.fit
  · rw [ran]
    obtain ⟨p, takes⟩ := exists_latchTakes (acquire s)
    obtain ⟨unwritten, filled⟩ := processBody_spec takes nch nsamp
    have sound : (latchInto (acquire s).DIRTY s.dp p).Sound s.cfg := latchInto_sound h.dp.sound p
    have size : s.PREPARED = true → 1 ≤ (latchInto (acquire s).DIRTY s.dp p).BLKSZ := by
      rw [latchInto_eq]
      exact h.prepared
    have fits : nsamp ≤ (latchInto (acquire s).DIRTY s.dp p).BLKSZ := by
      rw [latchInto_eq]
      exact accepted.fits
    cases scanned : scanPeak s.dp (blockCells nch nsamp) (NUM.lit 0) with
    | error e => exact (unwritten e scanned).fit ⟨size, sound⟩
    | ok peak =>
      have len : 0 < (latchInto (acquire s).DIRTY s.dp p).L := by
        have block := size accepted.prepared
        have sized := sound.sized
        dsimp only at sized
        omega
      refine (filled peak scanned).fit ⟨fun prepared => ?_, afterLoop_sound zero sound fits len⟩
      obtain ⟨⟨-, -, sameBlock, -⟩, -⟩ := onFrames_keeps (framesOps_inFrames (blockLocals s.cfg p) nch nsamp) s.cfg
        (latchInto (acquire s).DIRTY s.dp p, blockStart s (acquire s).DIRTY p peak)
      exact sameBlock ▸ size prepared

omit h [Zero V] in
theorem FirstErrorKept.toNat_le {old new : BitVec 8} (h : FirstErrorKept old new) (hold : old.toNat ≤ 5) :
    new.toNat ≤ 5 := by
  obtain rfl | ⟨-, e, rfl⟩ := h
  · exact hold
  · exact (errCode_mem e).2

include zero in
theorem command_fit (i : Instr) : (command i s).Fit s.cfg := by
  have run {ops : List (MicroOp V)} (ran : (runCommand ops (acquire s)).Fit s.cfg) :
      (unlessBusy (fun s => runCommand ops (acquire s)) s).Fit s.cfg := by
    rw [unlessBusy_of_idle h.idle]
    exact ran
  cases i with
  | prepare blk fs => exact prepare_fit h blk fs
  | process nch nsamp => exact process_fit zero h nch nsamp
  | reset => exact run (reset_fit h)
  | seed w => exact run (seed_fit h w)
  | gettIn | gettOut | gets => exact (respond_change _ s).fit h.fit
  | setpSpeed w => exact (setSpeed_change w s).fit h.fit
  | setpForm w => exact (setForm_change w s).fit h.fit
  | _ w => exact (setNum_change _ w s).fit h.fit

include zero in
/-- Every command keeps the shape of the state. -/
theorem command_shaped (i : Instr) : (command i s).Shaped := by
  have cfg := (command_keeps i s).1
  obtain ⟨prepared, dp⟩ := command_fit zero h i
  exact ⟨cfg ▸ h.nmax, cfg ▸ h.lmax, command_BUSY i h.idle, (command_firstErrorKept i s).toNat_le h.err, prepared,
    cfg ▸ dp⟩

end

/-! ## The power-on state (10_state.md R59) -/

section
variable {V : Type} [NUM V]

theorem powerOn_shaped [Zero V] [DecidableEq V] {c : Cfg V} (nmax : 1 ≤ c.nmax ∧ c.nmax ≤ 65535) (lmax : 4 ≤ c.lmax) :
    (Over.State.powerOn c).Shaped where
  nmax := nmax
  lmax := lmax
  idle := rfl
  err := Nat.zero_le _
  prepared h := by cases h
  dp :=
    { sized := .inl ⟨rfl, rfl⟩
      chan := chanZero_inv _
      modcnt := Nat.zero_lt_succ _
      wcur := .inr ⟨rfl, rfl⟩
      rng := Laws.seedOf_ne_zero _ _
      buf := fun ch => by rw [Over.State.powerOn, Datapath.powerOn, pair_get_of_equal_halves]; exact ⟨rfl, rfl⟩
      seq := rfl }

end

section
variable {V : Type} [NUM V] [Field V] [LinearOrder V] [IsStrictOrderedRing V] [FloorRing V]

/-- Where a constant is the rational it is written as, the PO values are in their ranges. -/
theorem powerOn_inRange (lit : ∀ q : ℚ, (NUM.lit q : V) = q) {c : Cfg V}
    (noise : ∀ g, c.noiseLevel = .linear g → 0 ≤ g) : (Over.State.powerOn c).InRange := by
  have zero : (NUM.lit 0 : V) = 0 := by rw [lit, Rat.cast_zero]
  have one : (NUM.lit 1 : V) = 1 := by rw [lit, Rat.cast_one]
  have params : (ParamFile.powerOn : ParamFile V).InDomain := by
    intro k
    cases k <;> norm_num [ParamFile.powerOn, ParamFile.get, NumParam.lo, NumParam.hi, lit]
  refine ⟨noise, params, params, zero.ge, zero.ge, .inl ⟨zero, rfl⟩, ⟨fun ch => ?_, zero.ge, zero.ge⟩, ?_⟩
  · have passThrough : ((Over.State.powerOn c).dp.coef.LPC.get ch) = 1 := (pair_get_of_equal_halves _ ch).trans one
    rw [passThrough]
    exact ⟨one_pos, le_rfl⟩
  · have osc : (Over.State.powerOn c).dp.osc = ⟨0, 0, 0, 0, 0, 0⟩ := by
      simp only [Over.State.powerOn, Datapath.powerOn, Osc.zero, zero]
    rw [osc]
    exact oscZero_inRange 0 0

end

/-- Settles O59. -/
theorem powerOnMeetsTheInvariant : Obligations.PowerOnMeetsTheInvariant := by
  have gain : (0 : ℚ) ≤ 1 / 100 := by norm_num
  refine ⟨⟨?_, fun _ => ?_⟩, ?_, ?_⟩
  · exact letI := numOf Cfg.running; powerOn_shaped (by decide) (by decide)
  · refine letI := numOf Cfg.running; powerOn_inRange (fun q => ?_) fun g h => ?_
    · rw [Laws.lit_numOf, Rat.cast_id]
    · cases h
      exact gain
  · exact letI := NUM_REAL Cfg.reference; powerOn_shaped ⟨by decide, by decide⟩ (by decide)
  · refine letI := NUM_REAL Cfg.reference; powerOn_inRange (fun q => rfl) fun g h => ?_
    cases h
    exact Rat.cast_nonneg.mpr gain

/-! ## The step -/

section
variable {V : Type} [NUM V] [DecidableEq V]

/-- What the commands, the host data agent and power-on keep, a step keeps. -/
theorem nextInput_induct {I : Over.State V → Prop}
    {run : Instr → Over.State V → Host.Outcome (Over.State V) Fault Refusal}
    (port : ∀ s rest, I s → I { s with inputs := rest })
    (command : ∀ i s t, I s → run i s = .next t → I t)
    (illegal : ∀ s, I s → I (raise .illegal none s))
    (write : ∀ s c n v, I s → n < s.cfg.nmax → I { s with dp := bufWrite c n v s.dp })
    (record : ∀ s o, I s → I { s with out := o })
    (powerOn : ∀ s, I s → I (powerOnReset s))
    {s t : Over.State V} (h : I s) (next : nextInput run s = .next t) : I t := by
  cases inputs : s.inputs with
  | nil =>
    rw [nextInput_of_empty_port inputs] at next
    cases next
    exact h
  | cons i rest =>
    have start := port s rest h
    rw [nextInput, inputs] at next
    cases i with
    | cmd w =>
      simp only [runInput, runWord] at next
      split at next
      · exact command _ _ _ start next
      · cases next
        exact illegal _ start
    | bufWrite c n v =>
      simp only [runInput, hostWrite, bufCell] at next
      split at next
      · cases next
      · split at next
        · cases next
        · cases next
          refine write _ _ _ _ start ?_
          by_contra outside
          simp_all
    | bufRead c n =>
      simp only [runInput, hostRead] at next
      split at next
      · cases next
      · split at next
        · cases next
        · cases next
          exact record _ _ start
    | powerOn =>
      cases next
      exact powerOn _ start

end

section
variable {V : Type} [NUM V] [Zero V] [DecidableEq V]

omit [NUM V] in
theorem Over.State.Shaped.bufWrite {s : Over.State V} (h : s.Shaped) (c : Channel) {n : Nat} (hn : n < s.cfg.nmax)
    (v : V) : Over.State.Shaped { s with dp := bufWrite c n v s.dp } :=
  { h with dp := { h.dp.sound.bufWrite c hn v with seq := h.dp.seq } }

omit [NUM V] in
theorem Over.State.Shaped.raise {s : Over.State V} (h : s.Shaped) (e : ErrCode) (i : Option (Nat × Nat)) :
    (raise e i s).Shaped :=
  { h with err := (raise_firstErrorKept e i s).toNat_le h.err }

theorem Over.State.Shaped.powerOnReset {s : Over.State V} (h : s.Shaped) : (powerOnReset s).Shaped := by
  have reset := powerOn_shaped h.nmax h.lmax
  exact { reset with }

end

theorem Over.State.InRange.powerOnReset {V : Type} [NUM V] [Field V] [LinearOrder V] [IsStrictOrderedRing V]
    [FloorRing V] (lit : ∀ q : ℚ, (NUM.lit q : V) = q) {s : Over.State V} (h : s.InRange) :
    (powerOnReset s).InRange := by
  have reset := powerOn_inRange lit h.noise
  exact { reset with }

theorem exec_keeps_inv (i : Instr) (s t : State) (h : s.Inv) (next : exec i s = .next t) : t.Inv := by
  have cfg : t.cfg = s.cfg := by
    rw [exec_eq_command] at next
    cases next
    exact letI := numOf s.cfg; (command_keeps i s).1
  refine ⟨?_, fun exactNum => ?_⟩
  · rw [exec_eq_command] at next
    cases next
    exact letI := numOf s.cfg; command_shaped (Laws.lit_numOf s.cfg 0) h.shaped i
  · rw [cfg] at exactNum
    rw [exec_eq_exact exactNum] at next
    cases next
    exact command_inRange (Laws.rational_lawful s.cfg) i (h.inRange exactNum)

theorem realExec_keeps_inv (i : Instr) (s t : Over.State ℝ) (h : s.Shaped ∧ s.InRange) (next : realExec i s = .next t) :
    t.Shaped ∧ t.InRange := by
  cases next
  have zero : (NUM_REAL s.cfg).lit 0 = 0 := Rat.cast_zero
  exact ⟨letI := NUM_REAL s.cfg; command_shaped zero h.1 i, command_inRange (Laws.real_lawful s.cfg) i h.2⟩

/-- Settles O60: one step by its inputs (`nextInput_induct`), a command by its shape (`command_shaped`) and its values
(`command_inRange`). -/
theorem everyStepKeepsTheInvariant : Obligations.EveryStepKeepsTheInvariant := by
  refine ⟨fun s t h next => ?_, fun s t shaped inRange next => ?_⟩
  · let := numOf s.cfg
    refine nextInput_induct (I := State.Inv) (fun u rest k => ?_) exec_keeps_inv (fun u k => ?_) (fun u c n v k hn => ?_)
      (fun u o k => ?_) (fun u k => ?_) h next
    · exact ⟨{ k.shaped with }, fun exactNum => { k.inRange exactNum with }⟩
    · exact ⟨k.shaped.raise _ _, fun exactNum => { k.inRange exactNum with }⟩
    · exact ⟨k.shaped.bufWrite c hn v, fun exactNum => { k.inRange exactNum with }⟩
    · exact ⟨{ k.shaped with }, fun exactNum => { k.inRange exactNum with }⟩
    · exact ⟨k.shaped.powerOnReset, fun exactNum =>
        (k.inRange exactNum).powerOnReset fun q => (Laws.lit_numOf _ q).trans (Rat.cast_id q).symm⟩
  · let := NUM_REAL s.cfg
    refine nextInput_induct (I := fun u => u.Shaped ∧ u.InRange) (fun u rest k => ?_) realExec_keeps_inv (fun u k => ?_)
      (fun u c n v k hn => ?_) (fun u o k => ?_) (fun u k => ?_) ⟨shaped, inRange⟩ next
    · exact ⟨{ k.1 with }, { k.2 with }⟩
    · exact ⟨k.1.raise _ _, { k.2 with }⟩
    · exact ⟨k.1.bufWrite c hn v, { k.2 with }⟩
    · exact ⟨{ k.1 with }, { k.2 with }⟩
    · exact ⟨k.1.powerOnReset, k.2.powerOnReset fun q => rfl⟩

end Sys2Proof.Machine
end

section
/-! PROOFS. Bounds and fixed points of the stages in exact arithmetic: the block-local values (45_pipeline.md R174), the
saturation stage (41_saturation.md R122, R126), the filters (42_filters.md R132, R133), the delay taps
(43_pitch_modulation.md R149, R150) and the register of PRBS31 (44_noise.md R162). -/

namespace Sys2Proof

namespace Fns.Lawful

variable {V : Type} [Field V] [LinearOrder V] [IsStrictOrderedRing V] {F : Fns V} (h : F.Lawful)
include h

theorem tanh_zero : F.tanh 0 = 0 := by
  have odd := h.tanh_neg 0
  rw [neg_zero] at odd
  linarith

theorem tanh_ne_zero {x : V} (hx : x ≠ 0) : F.tanh x ≠ 0 := by
  obtain neg | pos := lt_or_gt_of_ne hx
  · have mirrored := h.tanh_pos (-x) (neg_pos.mpr neg)
    rw [h.tanh_neg] at mirrored
    exact (neg_pos.mp mirrored).ne
  · exact (h.tanh_pos x pos).ne'

end Fns.Lawful

namespace Machine

/-- Settles O40: the values are the fields of `blockLocals` with the constants of the exact domain. -/
theorem blockLocalsComeFromTheSnapshot : Obligations.BlockLocalsComeFromTheSnapshot := by
  intro V _ _ _ _ F s l
  let := NUM.exact F
  refine ⟨F.blockLocals s.cfg s.dp.S, rfl, ?_⟩
  intro p
  have linear (g : V) (h : s.cfg.noiseLevel = .linear g) : (F.blockLocals s.cfg p).nl = p.hiss / 100 * g := by
    simp [Fns.blockLocals, blockLocals, Cfg.noise, h]
  have silent (h : p.hiss = 0) : (F.blockLocals s.cfg p).nl = 0 := by
    simp [Fns.blockLocals, blockLocals, h, Laws.noise_zero F]
  refine ⟨?_, ?_, ?_, ?_, ?_, ?_, ?_, ?_, ?_, rfl, linear, silent, ?_, ?_, enPM_iff F s.cfg p, ?_⟩ <;>
    simp [p, Fns.blockLocals, blockLocals, dbToLin]

/-! ## The saturation stage (R122 to R126) -/

section
variable {V : Type} [Field V] [LinearOrder V] [IsStrictOrderedRing V] [FloorRing V] {F : Fns V} (hF : F.Lawful)
include hF

/-- Above the threshold softclip adds less than the rest to it (R125). -/
theorem abs_softclip_lt_one (y : V) : letI := NUM.exact F; |softclip y| < 1 := by
  obtain inside | outside := le_or_gt |y| 0.7
  · rw [softclip_exact_of_abs_le F inside]
    linarith
  · have excess (z : V) (hz : 0.7 < z) : |0.7 + 0.3 * F.tanh ((z - 0.7) / 0.3)| < 1 := by
      have positive : 0 < F.tanh ((z - 0.7) / 0.3) := hF.tanh_pos _ (div_pos (by linarith) (by norm_num))
      have small := (abs_lt.mp (hF.tanh_lt ((z - 0.7) / 0.3))).2
      rw [abs_of_pos (by positivity)]
      linarith
    obtain above | below := lt_abs.mp outside
    · rw [softclip_exact_of_gt F above]
      exact excess y above
    · rw [softclip_exact_of_lt F (by linarith), abs_neg]
      exact excess (-y) below

theorem softclip_ne_zero {y : V} (hy : y ≠ 0) : letI := NUM.exact F; softclip y ≠ 0 := by
  obtain inside | outside := le_or_gt |y| 0.7
  · rwa [softclip_exact_of_abs_le F inside]
  · have excess (z : V) (hz : 0.7 < z) : 0.7 + 0.3 * F.tanh ((z - 0.7) / 0.3) ≠ 0 := by
      have positive : 0 < F.tanh ((z - 0.7) / 0.3) := hF.tanh_pos _ (div_pos (by linarith) (by norm_num))
      positivity
    obtain above | below := lt_abs.mp outside
    · rw [softclip_exact_of_gt F above]
      exact excess y above
    · rw [softclip_exact_of_lt F (by linarith)]
      exact neg_ne_zero.mpr (excess (-y) below)

omit hF [FloorRing V] in
/-- A weighted mean of a memory and an output below 1 in magnitude. -/
theorem abs_blend_le_max {a b old out : V} (ha : 0 ≤ a) (hb : 0 ≤ b) (whole : a + b = 1) (h : |out| < 1) :
    |a * old + b * out| ≤ max |old| 1 :=
  calc |a * old + b * out| ≤ |a * old| + |b * out| := abs_add_le _ _
    _ = a * |old| + b * |out| := by rw [abs_mul, abs_mul, abs_of_nonneg ha, abs_of_nonneg hb]
    _ ≤ a * max |old| 1 + b * max |old| 1 := by
        gcongr
        · exact le_max_left _ _
        · exact h.le.trans (le_max_right _ _)
    _ = max |old| 1 := by rw [← add_mul, whole, one_mul]

variable {b : BlockLocals V}

/-- R126 (a), (c): formulations B and modern. -/
theorem satStage_bounded (form : b.form ≠ .ferric) (hys xIn : V) : letI := NUM.exact F;
    |(satStage b hys xIn).2| < 1 ∧ |(satStage b hys xIn).1| ≤ max |hys| 1 := by
  let := NUM.exact F
  match selected : b.form with
  | .ferric => exact absurd selected form
  | .chrome =>
    rw [satStage_of_chrome selected]
    have output : |(satB b hys xIn).2| < 1 := by
      rw [satB_exact_output]
      exact hF.tanh_lt _
    rw [satB_exact_memory]
    exact ⟨output, abs_blend_le_max (by norm_num) (by norm_num) (by norm_num) output⟩
  | .modern =>
    rw [satStage_of_modern selected]
    have output : |(satM b hys xIn).2| < 1 := by
      rw [satM_exact_output]
      exact abs_softclip_lt_one hF _
    rw [satM_exact_memory]
    exact ⟨output, abs_blend_le_max (by norm_num) (by norm_num) (by norm_num) output⟩

/-- R126 (d): without a bias offset a clear memory and a zero input stay. -/
theorem satStage_zero (boff : b.boff = 0) : letI := NUM.exact F; satStage b 0 0 = (0, 0) := by
  let := NUM.exact F
  match selected : b.form with
  | .ferric =>
    have memory : (satA b 0 0).1 = 0 := by rw [satA_exact_memory]; simp [boff, hF.tanh_zero]
    rw [satStage_of_ferric selected]
    exact Prod.ext memory (by rw [satA_exact_output, memory, zero_mul])
  | .chrome =>
    have output : (satB b 0 0).2 = 0 := by rw [satB_exact_output]; simp [boff, hF.tanh_zero]
    rw [satStage_of_chrome selected]
    exact Prod.ext (by rw [satB_exact_memory, output]; simp) output
  | .modern =>
    have output : (satM b 0 0).2 = 0 := by
      rw [satM_exact_output, boff, add_zero, zero_mul, softclip_exact_of_abs_le F (by norm_num)]
    rw [satStage_of_modern selected]
    exact Prod.ext (by rw [satM_exact_memory, output]; simp) output

/-- R126 (d): with a bias offset a zero input gives an output. -/
theorem satStage_zero_of_biased (boff : b.boff ≠ 0) (sat : 0 ≤ b.sat) (drive : 0 < b.drive0) : letI := NUM.exact F;
    (satStage b 0 0).2 ≠ 0 := by
  let := NUM.exact F
  have driven {gain : V} (hgain : 0 < gain) : (0 + b.boff) * (b.drive0 * gain) ≠ 0 := by
    rw [zero_add]
    exact mul_ne_zero boff (mul_pos drive hgain).ne'
  match selected : b.form with
  | .ferric =>
    have damped : 0 < 1 + 3 * b.sat := by linarith
    have lag : 0 < 0.3 + 0.4 * b.sat := by linarith
    have moved := hF.tanh_ne_zero (mul_ne_zero (driven (gain := 1.3) (by norm_num)) damped.ne')
    rw [satStage_of_ferric selected, satA_exact_output, satA_exact_memory, sub_zero, zero_add]
    exact mul_ne_zero (mul_ne_zero (div_ne_zero moved damped.ne') lag.ne') (by norm_num)
  | .chrome =>
    rw [satStage_of_chrome selected, satB_exact_output]
    exact hF.tanh_ne_zero (driven (by norm_num))
  | .modern =>
    rw [satStage_of_modern selected, satM_exact_output]
    exact softclip_ne_zero hF (driven (by norm_num))

/-- R122 (b): `tanh` is below 1 in magnitude, so the memory moves by less than the lag over the damping. -/
theorem satA_slew (sat : 0 ≤ b.sat) (hys xIn : V) : letI := NUM.exact F;
    |(satA b hys xIn).1 - hys| < (0.3 + 0.4 * b.sat) / (1 + 3 * b.sat) := by
  have damped : 0 < 1 + 3 * b.sat := by linarith
  have lag : 0 < 0.3 + 0.4 * b.sat := by linarith
  rw [satA_exact_memory, add_sub_cancel_left, div_mul_eq_mul_div, abs_div, abs_mul, abs_of_pos damped, abs_of_pos lag]
  gcongr
  exact mul_lt_of_lt_one_left lag (hF.tanh_lt _)

end

/-- Settles O42: the stage's frame, then the bounds and the two cases of the bias offset. -/
theorem saturationBoundsAndBiasOffset : Obligations.SaturationBoundsAndBiasOffset := by
  intro V _ _ _ _ F c s l hF
  let := NUM.exact F
  simp only [run_saturate, pair_get_set_same]
  refine ⟨fun form => satStage_bounded hF form _ _, fun clear silent unbiased => ?_, fun clear silent biased sat drive => ?_⟩
  · rw [clear, silent, satStage_zero hF unbiased]
    exact ⟨rfl, rfl⟩
  · rw [clear, silent]
    exact satStage_zero_of_biased hF biased sat drive

/-- Settles O43: the slew of SAT.A, which is at most 0.3 because the lag grows more slowly than the damping. -/
theorem ferricMemoryHasASlewLimit : Obligations.FerricMemoryHasASlewLimit := by
  intro V _ _ _ _ F c s l hF ferric sat _
  let := NUM.exact F
  simp only [run_saturate, pair_get_set_same, satStage_of_ferric ferric]
  have slew := satA_slew hF sat (s.dp.ch.get c).HYS l.x
  have limit : (0.3 + 0.4 * l.blk.sat) / (1 + 3 * l.blk.sat) ≤ 0.3 := by
    rw [div_le_iff₀ (by linarith)]
    linarith
  exact ⟨slew, slew.trans_le limit, by rw [satA_exact_output, mul_comm]⟩

/-! ## The filters (R132, R133) -/

/-- Settles O45: the two feed-forward terms cancel the two feedback terms. -/
theorem flatBiquadPassesThrough : Obligations.FlatBiquadPassesThrough := by
  intro V _ _ _ _ F c s l k h r flat b1 b2 x1 x2
  have output : r.2.x = l.x := by
    simp only [r, run_biquad, biquad_exact_output]
    rw [flat, b1, b2, x1, x2]
    ring
  have history : (r.1.dp.ch.get c).X1 = l.x ∧ (r.1.dp.ch.get c).Y1 = r.2.x ∧
      (r.1.dp.ch.get c).X2 = h.X1 ∧ (r.1.dp.ch.get c).Y2 = h.Y1 := by
    simp only [r, run_biquad, biquad_exact_datapath, pair_get_set_same, h, and_self]
  obtain ⟨X1, Y1, X2, Y2⟩ := history
  exact ⟨output, by rw [X1, Y1, output], by rw [X2, Y2, x1]⟩

/-- A step of a fraction in (0, 1] from one value towards another stays between them. -/
theorem convex_step_mem {V : Type} [Field V] [LinearOrder V] [IsStrictOrderedRing V] (old x : V) {k : V} (hk : 0 < k)
    (hk' : k ≤ 1) : min old x ≤ old + k * (x - old) ∧ old + k * (x - old) ≤ max old x := by
  obtain up | down := le_total old x
  · rw [min_eq_left up, max_eq_right up]
    constructor <;> nlinarith
  · rw [min_eq_right down, max_eq_left down]
    constructor <;> nlinarith

/-- Settles O46: LP1's equation; a value between two others is at most the larger in magnitude. -/
theorem lowpassIsAConvexStep : Obligations.LowpassIsAConvexStep := by
  intro V _ _ _ _ F c s l old k y
  refine ⟨rfl, fun hk hk' => ?_, fun whole => ?_, fun b n => by simp [channelOps]⟩
  · obtain ⟨lo, hi⟩ := convex_step_mem old l.x hk hk'
    refine ⟨lo, hi, abs_le.mpr ⟨?_, hi.trans (max_le_max (le_abs_self _) (le_abs_self _))⟩⟩
    calc -max |old| |l.x| = min (-|old|) (-|l.x|) := (min_neg_neg _ _).symm
      _ ≤ min old l.x := min_le_min (neg_abs_le _) (neg_abs_le _)
      _ ≤ y := lo
  · simp only [y, whole]
    ring

/-! ## The delay taps (R149, R150) -/

section
variable {V : Type} [Field V] [LinearOrder V] [IsStrictOrderedRing V] [FloorRing V] (F : Fns V)

omit [IsStrictOrderedRing V] in
theorem delayTaps_exact (WCUR L : Nat) (ds : V) : F.delayTaps WCUR L ds =
    (modNat ⌊(WCUR : V) - ds⌋ L, (modNat ⌊(WCUR : V) - ds⌋ L + 1) % L, Int.fract ((WCUR : V) - ds)) := by
  simp only [Fns.delayTaps, delayTaps, Laws.ofInt_exact, Laws.floor_exact, Int.cast_natCast, ← Nat.cast_succ,
    modNat_natCast, Int.self_sub_floor]

/-- The older tap of a delay between `m - 1` and `m` frames is `m` slots behind the cursor. -/
theorem floor_cursor_sub {WCUR m : Nat} {ds : V} (m_eq : ⌈ds⌉ = m) : ⌊(WCUR : V) - ds⌋ = (WCUR : Int) - m := by
  have split : (WCUR : V) - ds = -ds + (WCUR : Int) := by push_cast; ring
  rw [split, Int.floor_add_intCast, Int.floor_neg, m_eq]
  ring

end

/-- The slot `m` behind the cursor, and the one after it, at distances `m` and `m - 1`. -/
theorem slot_behind_cursor {WCUR L m : Nat} (hW : WCUR < L) (hm : 1 ≤ m) (hm' : m < L) :
    let i0 := (WCUR + L - m) % L
    let i1 := (i0 + 1) % L
    (WCUR + L - i0) % L = m ∧ (WCUR + L - i1) % L = m - 1 ∧ i0 ≠ WCUR ∧ (i1 = WCUR → m = 1) := by
  intro i0 i1
  have reduce (a : Nat) (lt : a < 2 * L) : a % L = if a < L then a else a - L := by
    split
    · exact Nat.mod_eq_of_lt ‹_›
    · rw [Nat.mod_eq_sub_mod (by omega), Nat.mod_eq_of_lt (by omega)]
  have older : i0 = if WCUR + L - m < L then WCUR + L - m else WCUR + L - m - L := reduce _ (by omega)
  have newer : i1 = if i0 + 1 < L then i0 + 1 else i0 + 1 - L := reduce _ (by split at older <;> omega)
  clear_value i0 i1
  rw [reduce _ (by omega), reduce _ (by omega)]
  split at older <;> split at newer <;> split <;> split <;> omega

/-- Settles O50: the taps are remainders; the clamped delay rounds up to a count of slots between 1 and L - 2. -/
theorem delayTapsStayBehindTheCursor : Obligations.DelayTapsStayBehindTheCursor := by
  intro V _ _ _ _ F WCUR L hL
  constructor
  · intro ds
    rw [delayTaps_exact]
    exact ⟨Laws.modNat_lt _ hL, Nat.mod_lt _ hL, Int.fract_nonneg _, Int.fract_lt_one _⟩
  · intro c fs tot hL4 hW ds i0 i1
    have four : (4 : V) ≤ L := by exact_mod_cast hL4
    obtain ⟨lo, hi⟩ : 1 ≤ ds ∧ ds ≤ (L : V) - 2 := by
      have clamped := Laws.clamp_mem F ((10 + c.kModMs * tot) * fs / 1000) (lo := 1) (hi := (L : V) - 2) (by linarith)
      rw [Laws.clamp_exact] at clamped
      simpa only [ds, Fns.delaySamples, delaySamples_exact] using clamped
    clear_value ds
    obtain ⟨m, m_eq⟩ : ∃ m : Nat, ⌈ds⌉ = m := ⟨⌈ds⌉.toNat, (Int.toNat_of_nonneg (Int.ceil_nonneg (by linarith))).symm⟩
    have hm : 1 ≤ m := by
      have : (1 : Int) ≤ ⌈ds⌉ := Int.one_le_ceil_iff.mpr (by linarith)
      omega
    have hm' : m ≤ L - 2 := by
      have : ⌈ds⌉ ≤ (L : Int) - 2 := Int.ceil_le.mpr (by push_cast; exact hi)
      omega
    have position := floor_cursor_sub (WCUR := WCUR) m_eq
    have i0_eq : i0 = (WCUR + L - m) % L := by
      simp only [i0, delayTaps_exact, position, modNat_sub (by omega : m ≤ L)]
    have i1_eq : i1 = (i0 + 1) % L := by simp only [i1, i0, delayTaps_exact]
    obtain ⟨older, newer, behind, atCursor⟩ := slot_behind_cursor hW hm (by omega)
    rw [← i0_eq, ← i1_eq] at *
    refine ⟨lo, hi, by omega, by omega, by omega, behind, fun h => ?_⟩
    have whole : ds = 1 := by
      have : ds ≤ ((1 : Int) : V) := Int.ceil_le.mp (by rw [m_eq, atCursor h, Nat.cast_one])
      push_cast at this
      exact le_antisymm this lo
    refine ⟨whole, ?_⟩
    rw [delayTaps_exact, whole]
    simp

/-! ## The register of PRBS31 (R162) -/

/-- One shift doubles the low bits and appends the output bit. -/
theorem shift_toNat (r : BitVec 31) : (Prng.shift r).1.toNat = (2 * r.toNat + (Prng.shift r).2.toNat) % 2 ^ 31 := by
  have bit : (Prng.shift r).1 = r <<< 1 + (BitVec.ofBool (Prng.shift r).2).zeroExtend 31 := by
    rw [BitVec.add_eq_or_of_and_eq_zero]
    · rfl
    · ext i hi
      cases i <;> simp
  rw [bit, BitVec.toNat_add, BitVec.toNat_shiftLeft]
  cases (Prng.shift r).2 <;> simp [Nat.shiftLeft_eq] <;> omega

/-- After shifts that appended to `k`, the low bits of the register are what they appended, below the bits `k` had. -/
theorem shifts_low_bits (n : Nat) (r : BitVec 31) (k j : Nat) (low : r.toNat % 2 ^ j = k) (fits : j + n ≤ 31) :
    (Prng.shifts n r k).1.toNat % 2 ^ (j + n) = (Prng.shifts n r k).2 := by
  induction n generalizing r k j with
  | zero => exact low
  | succ n ih =>
    have next : (Prng.shift r).1.toNat % 2 ^ (j + 1) = 2 * k + (Prng.shift r).2.toNat := by
      have bit : (Prng.shift r).2.toNat ≤ 1 := Bool.toNat_le _
      rw [shift_toNat, Nat.mod_mod_of_dvd _ (pow_dvd_pow 2 (by omega)), ← low, pow_succ']
      have twice : 2 * r.toNat % (2 * 2 ^ j) = 2 * (r.toNat % 2 ^ j) := Nat.mul_mod_mul_left _ _ _
      have even : 2 * (r.toNat % 2 ^ j) + 1 < 2 * 2 ^ j := by have := Nat.mod_lt r.toNat (Nat.two_pow_pos j); omega
      rw [Nat.add_mod, twice, Nat.mod_eq_of_lt (a := (Prng.shift r).2.toNat) (by omega), Nat.mod_eq_of_lt (by omega)]
    have rest := ih (Prng.shift r).1 _ (j + 1) next (by omega)
    rwa [Nat.add_right_comm, Nat.add_assoc] at rest

/-- Settles O53: the sixteen drawn bits are the last sixteen shifted in. -/
theorem drawnBitsStandInTheRegister : Obligations.DrawnBitsStandInTheRegister := fun r =>
  (shifts_low_bits 16 r 0 0 (Nat.mod_one _) (by decide)).symm

end Machine

end Sys2Proof
end

section
/-! PROOFS. The reference telemetry encoding gives back a finite word (30_encoding.md R82, R83), and the host data
agent's accesses to BUF (20_memory.md R60). -/

namespace Sys2Proof

/-! ## binary32 of a value that has a word -/

/-- An integer is its own nearest integer. -/
theorem roundHalfEven_natCast (n : ℕ) : roundHalfEven (n : ℚ) = n := by
  simp [roundHalfEven]

/-- A value that is `n` units in the last place of its exponent `e` has the word of `e` and `n`. -/
theorem binary32_of_units {v : ℚ} {e : ℤ} {n : ℕ} (nonzero : v ≠ 0) (exponent : binaryExponent |v| = e)
    (units : |v| = n * (2 : ℚ) ^ (e - 23)) (finite : (e + 126) * 2 ^ 23 + n < 0x7F800000) :
    binary32 v = BitVec.ofNat 32 (((e + 126) * 2 ^ 23 + n).toNat + if v < 0 then 0x80000000 else 0) := by
  have scaled : (if e ≤ 23 then |v| * ((2 ^ (23 - e).toNat : ℕ) : ℚ) else |v| / ((2 ^ (e - 23).toNat : ℕ) : ℚ)) = n := by
    split
    next small =>
      have up : ((2 ^ (23 - e).toNat : ℕ) : ℚ) = 2 ^ (23 - e) := by
        rw [Nat.cast_pow, ← zpow_natCast, Int.toNat_of_nonneg (by omega), Nat.cast_ofNat]
      rw [up, units, mul_assoc, ← zpow_add₀ two_ne_zero, sub_add_sub_cancel', sub_self, zpow_zero, mul_one]
    next large =>
      have down : ((2 ^ (e - 23).toNat : ℕ) : ℚ) = 2 ^ (e - 23) := by
        rw [Nat.cast_pow, ← zpow_natCast, Int.toNat_of_nonneg (by omega), Nat.cast_ofNat]
      rw [down, units, mul_div_cancel_right₀ _ (zpow_ne_zero _ two_ne_zero)]
  unfold binary32
  simp only [if_neg (abs_ne_zero.mpr nonzero), exponent, scaled, roundHalfEven_natCast, if_pos finite]

/-- The sign, exponent and fraction fields make up the word (30_encoding.md R82). -/
theorem word_of_fields (w : Word32) : w = BitVec.ofNat 32
    ((w.extractLsb' 23 8).toNat * 2 ^ 23 + (w.extractLsb' 0 23).toNat + if w.getLsbD 31 then 0x80000000 else 0) := by
  have bound := w.isLt
  have sign : w.getLsbD 31 = decide (w.toNat / 2 ^ 31 % 2 = 1) := by
    rw [BitVec.getLsbD, Nat.testBit_eq_decide_div_mod_eq]
  apply BitVec.eq_of_toNat_eq
  simp only [sign, BitVec.extractLsb'_toNat, BitVec.toNat_ofNat, Nat.shiftRight_eq_div_pow, decide_eq_true_eq]
  split <;> omega

section
variable {v : ℚ} {negative : Bool} {n : ℕ} {z : ℤ} (value : v = (if negative then -1 else 1) * n * 2 ^ z) (hn : n ≠ 0)
include value hn

/-- The sign of the value of a word is the word's sign bit. -/
theorem signed_value : v ≠ 0 ∧ |v| = n * 2 ^ z ∧ (v < 0 ↔ negative = true) := by
  have positive : 0 < (n : ℚ) * 2 ^ z := by positivity
  cases negative with
  | false =>
    rw [if_neg Bool.false_ne_true, one_mul] at value
    subst value
    exact ⟨positive.ne', abs_of_pos positive, iff_of_false positive.not_gt Bool.false_ne_true⟩
  | true =>
    rw [if_pos rfl, neg_one_mul, neg_mul] at value
    subst value
    exact ⟨neg_ne_zero.mpr positive.ne', by rw [abs_neg, abs_of_pos positive], iff_of_true (neg_lt_zero.mpr positive) rfl⟩

end

section
variable {v : ℚ} {negative : Bool} {m : ℕ} (fraction : m < 2 ^ 23)
include fraction

/-- A subnormal value counts units of the least exponent. -/
theorem binary32_of_subnormal (value : v = (if negative then -1 else 1) * m * 2 ^ (-149 : ℤ)) (hm : m ≠ 0) :
    binary32 v = BitVec.ofNat 32 (m + if negative then 0x80000000 else 0) := by
  obtain ⟨nonzero, magnitude, sign⟩ := signed_value value hm
  have small : |v| < (2 : ℚ) ^ (-126 : ℤ) := by
    have : (m : ℚ) < 2 ^ 23 := by exact_mod_cast fraction
    calc |v| < 2 ^ 23 * (2 : ℚ) ^ (-149 : ℤ) := by rw [magnitude]; gcongr
      _ = 2 ^ (-126 : ℤ) := by norm_num
  have least : binaryExponent |v| = -126 :=
    max_eq_right ((Int.lt_zpow_iff_log_lt one_lt_two (abs_pos.mpr nonzero)).mp small).le
  have bits : (((-126 : ℤ) + 126) * 2 ^ 23 + m).toNat = m := by omega
  rw [binary32_of_units nonzero least magnitude (by omega), bits]
  simp only [sign]

/-- A normal value counts units of its own exponent, from `2 ^ 23` up. -/
theorem binary32_of_normal {e : ℕ} (value : v = (if negative then -1 else 1) * (2 ^ 23 + m) * 2 ^ ((e : ℤ) - 150))
    (normal : 0 < e) (finite : e < 255) :
    binary32 v = BitVec.ofNat 32 (e * 2 ^ 23 + m + if negative then 0x80000000 else 0) := by
  have significand : ((2 ^ 23 + m : ℕ) : ℚ) = 2 ^ 23 + m := by push_cast; rfl
  rw [← significand] at value
  obtain ⟨nonzero, magnitude, sign⟩ := signed_value value (by omega)
  have positive := abs_pos.mpr nonzero
  have lower : (2 : ℚ) ^ ((e : ℤ) - 127) ≤ |v| := by
    have : (2 : ℚ) ^ 23 ≤ (2 ^ 23 + m : ℕ) := by exact_mod_cast Nat.le_add_right _ _
    calc (2 : ℚ) ^ ((e : ℤ) - 127) = 2 ^ (23 : ℤ) * 2 ^ ((e : ℤ) - 150) := by rw [← zpow_add₀ two_ne_zero]; congr 1; ring
      _ ≤ |v| := by rw [magnitude, zpow_ofNat]; gcongr
  have upper : |v| < (2 : ℚ) ^ ((e : ℤ) - 127 + 1) := by
    have : ((2 ^ 23 + m : ℕ) : ℚ) < 2 ^ 24 := by exact_mod_cast (by omega : 2 ^ 23 + m < 2 ^ 24)
    calc |v| < 2 ^ (24 : ℤ) * 2 ^ ((e : ℤ) - 150) := by rw [magnitude, zpow_ofNat]; gcongr
      _ = 2 ^ ((e : ℤ) - 127 + 1) := by rw [← zpow_add₀ two_ne_zero]; congr 1; ring
  have log : Int.log 2 |v| = e - 127 := by
    have above := (Int.zpow_le_iff_le_log (x := (e : ℤ) - 127) one_lt_two positive).mp lower
    have below := (Int.lt_zpow_iff_log_lt (x := (e : ℤ) - 127 + 1) one_lt_two positive).mp upper
    omega
  have exponent : binaryExponent |v| = e - 127 := by
    rw [binaryExponent, log, max_eq_left (by omega)]
  have units : |v| = (2 ^ 23 + m : ℕ) * (2 : ℚ) ^ ((e : ℤ) - 127 - 23) := by
    rw [magnitude]
    congr 2
    ring
  have bits : (((e : ℤ) - 127 + 126) * 2 ^ 23 + (2 ^ 23 + m : ℕ)).toNat = e * 2 ^ 23 + m := by omega
  rw [binary32_of_units nonzero exponent units (by omega), bits]
  simp only [sign]

end

/-- Settles O21: the two ranges of the exponent field that hold a number other than 0. -/
theorem binary32GivesBackFiniteWords : Obligations.Binary32GivesBackFiniteWords := by
  intro w v decoded nonzero
  have fraction : (w.extractLsb' 0 23).toNat < 2 ^ 23 := (w.extractLsb' 0 23).isLt
  have exponent : (w.extractLsb' 23 8).toNat < 256 := (w.extractLsb' 23 8).isLt
  obtain subnormal | nonfinite | ⟨normal, finite⟩ : (w.extractLsb' 23 8).toNat = 0 ∨ (w.extractLsb' 23 8).toNat = 255 ∨
      0 < (w.extractLsb' 23 8).toNat ∧ (w.extractLsb' 23 8).toNat < 255 := by omega
  · rw [dec32_of_subnormal subnormal, Option.some.injEq] at decoded
    have units : (w.extractLsb' 0 23).toNat ≠ 0 := by
      intro zero
      rw [zero, Nat.cast_zero, mul_zero, zero_mul] at decoded
      exact nonzero decoded.symm
    rw [binary32_of_subnormal fraction decoded.symm units]
    exact (by rw [subnormal, zero_mul, zero_add] : _ = _).trans (word_of_fields w).symm
  · rw [dec32_of_nonfinite nonfinite] at decoded
    cases decoded
  · rw [dec32_of_normal normal finite, Option.some.injEq] at decoded
    rw [binary32_of_normal fraction decoded.symm normal finite]
    exact (word_of_fields w).symm

namespace Machine

/-! ## The host data agent (R60, R65, 70_reset_and_hazards.md R241) -/

theorem channel_ofIndex_eq_none {c : Nat} (h : 2 ≤ c) : Channel.ofIndex c = none := by
  match c, h with
  | c + 2, _ => rfl

theorem channel_ofIndex_eq_some {c : Nat} (h : c < 2) : ∃ ch, Channel.ofIndex c = some ch := by
  match c, h with
  | 0, _ => exact ⟨.left, rfl⟩
  | 1, _ => exact ⟨.right, rfl⟩

section
variable {V : Type} {s : Over.State V} {c n : Nat}

theorem bufCell_eq_none (h : 2 ≤ c ∨ s.cfg.nmax ≤ n) : bufCell s c n = none := by
  unfold bufCell
  split
  · exact channel_ofIndex_eq_none (by omega)
  · rfl

theorem bufCell_eq_some {ch : Channel} (index : Channel.ofIndex c = some ch) (h : n < s.cfg.nmax) :
    bufCell s c n = some ch := by
  rw [bufCell, if_pos h, index]

theorem hostRead_of_outside (h : 2 ≤ c ∨ s.cfg.nmax ≤ n) : hostRead c n s = .fault (.noSuchCell c n) := by
  rw [hostRead, bufCell_eq_none h]

theorem hostRead_of_busy (hc : c < 2) (hn : n < s.cfg.nmax) (busy : s.BUSY = true) :
    hostRead c n s = .refused .bufOwnedBySequencer := by
  obtain ⟨ch, index⟩ := channel_ofIndex_eq_some hc
  simp only [hostRead, bufCell_eq_some index hn, busy, if_true]

theorem hostRead_of_idle {ch : Channel} (index : Channel.ofIndex c = some ch) (hn : n < s.cfg.nmax)
    (idle : s.BUSY = false) : hostRead c n s = .next { s with out := .cell c n (bufRead s.dp ch n) :: s.out } := by
  simp only [hostRead, bufCell_eq_some index hn, idle, Bool.false_eq_true, if_false]

variable [DecidableEq V] (v : V)

theorem hostWrite_of_outside (h : 2 ≤ c ∨ s.cfg.nmax ≤ n) : hostWrite c n v s = .fault (.noSuchCell c n) := by
  rw [hostWrite, bufCell_eq_none h]

theorem hostWrite_of_busy (hc : c < 2) (hn : n < s.cfg.nmax) (busy : s.BUSY = true) :
    hostWrite c n v s = .refused .bufOwnedBySequencer := by
  obtain ⟨ch, index⟩ := channel_ofIndex_eq_some hc
  simp only [hostWrite, bufCell_eq_some index hn, busy, if_true]

theorem hostWrite_of_idle {ch : Channel} (index : Channel.ofIndex c = some ch) (hn : n < s.cfg.nmax)
    (idle : s.BUSY = false) : hostWrite c n v s = .next { s with dp := bufWrite ch n v s.dp } := by
  simp only [hostWrite, bufCell_eq_some index hn, idle, Bool.false_eq_true, if_false]

end

theorem step_of_bufWrite {s : State} {c n : Nat} {v : ℚ} {rest : List (Input ℚ)}
    (port : s.inputs = .bufWrite c n v :: rest) : step s = hostWrite c n v { s with inputs := rest } := by
  unfold step nextInput
  rw [port]
  rfl

theorem step_of_bufRead {s : State} {c n : Nat} {rest : List (Input ℚ)} (port : s.inputs = .bufRead c n :: rest) :
    step s = hostRead c n { s with inputs := rest } := by
  unfold step nextInput
  rw [port]
  rfl

/-- Settles O16: the three cases of an access, for the write and for the read. -/
theorem hostDataAgentOwnsBufBetweenBlocks : Obligations.HostDataAgentOwnsBufBetweenBlocks := by
  intro s c n v rest
  refine ⟨fun port => ?_, fun port => ?_⟩
  · rw [step_of_bufWrite port]
    refine ⟨fun ch index hn idle => ⟨_, hostWrite_of_idle v index hn idle, bufRead_bufWrite_same ch n v _, ?_, rfl⟩,
      fun outside => hostWrite_of_outside v outside, fun hc hn busy => hostWrite_of_busy v hc hn busy⟩
    intro e m other
    exact bufRead_bufWrite_other (fun same => other (Prod.ext same.1 same.2)) v _
  · rw [step_of_bufRead port]
    exact ⟨fun ch index hn idle => hostRead_of_idle index hn idle, fun outside => hostRead_of_outside outside,
      fun hc hn busy => hostRead_of_busy hc hn busy⟩

end Machine

end Sys2Proof
end

section
/-! PROOFS. The frame loop as a function of the private state (45_pipeline.md R170, R172). What the sequencer holds from
one micro-operation to the next is, but for the block-local values, written in the frame before it is read (log 18): so a
frame is `frame`, its shared part followed by its channels, and each channel's stages see and change that channel only. -/

namespace Sys2Proof.Machine

variable {V : Type} [NUM V] [DecidableEq V]

/-! ## The stages of a channel -/

/-- A stage of a channel on its sample, where it is enabled. -/
def stageIf (enabled : Bool) (f : V → Datapath V → Datapath V × V) (r : Datapath V × V) : Datapath V × V :=
  if enabled then f r.2 r.1 else r

/-- DLY.WR and DLY.RD (43_pitch_modulation.md R145, R146). -/
def delayStage (c : Channel) (ds x : V) (d : Datapath V) : Datapath V × V := (dlyWr c x d, dlyRd c ds (dlyWr c x d))

/-- NOISE.ADD (44_noise.md R165). -/
def noiseStage (nz : Pair V) (c : Channel) (x : V) (d : Datapath V) : Datapath V × V := (d, noiseAdd nz c x)

/-- The stages of a channel between the two gains (45_pipeline.md R170). -/
def channelStages (b : BlockLocals V) (ds : V) (nz : Pair V) (c : Channel) (x : V) (d : Datapath V) : Datapath V × V :=
  stageIf b.enNoise (noiseStage nz c) (stageIf b.enPM (delayStage c ds) (stageIf true (lowpass c)
    (stageIf b.enHB (biquad c) (stageIf b.enSat (saturate b c) (d, x)))))

/-- The sample of a cell of BUF. -/
def cellOr0 (d : Datapath V) (c : Channel) (n : Nat) : V := (bufRead d c n).getD (NUM.lit 0)

/-- What the stages of a channel leave of the cell's sample, and the state with it (45_pipeline.md R170 to R181). -/
def channelResult (b : BlockLocals V) (ds : V) (nz : Pair V) (n : Nat) (d : Datapath V) (c : Channel) :
    Datapath V × V :=
  channelStages b ds nz c (cellOr0 d c n * b.gIn) { d with SEQ := some ⟨n, c⟩ }

/-- One channel of a frame (45_pipeline.md R172, R182). -/
def channelFrame (b : BlockLocals V) (ds : V) (nz : Pair V) (n : Nat) (d : Datapath V) (c : Channel) : Datapath V :=
  bufWrite c n (mixOf b.mix (cellOr0 d c n) ((channelResult b ds nz n d c).2 * b.gOut)) (channelResult b ds nz n d c).1

/-- What the sequencer holds with the sample of a stage. -/
def holding (l : Locals V) (r : Datapath V × V) : Datapath V × Locals V := (r.1, { l with x := r.2 })

/-- Micro-operations that are one stage, under the enable of the stage. -/
theorem onFrames_stageIf {cfg : Cfg V} {enabled : Bool} {ops : List (MicroOp V)} {f : V → Datapath V → Datapath V × V}
    {l : Locals V} {r : Datapath V × V}
    (h : enabled = true → onFrames cfg ops (holding l r) = holding l (f r.2 r.1)) :
    onFrames cfg (if enabled then ops else []) (holding l r) = holding l (stageIf enabled f r) := by
  cases enabled with
  | false => rfl
  | true => exact h rfl

/-- One channel of a frame, from locals that hold the delay and the noise pair where they are used. -/
theorem onFrames_channelOps {cfg : Cfg V} {b : BlockLocals V} {ds : V} {nz : Pair V} {l : Locals V} (blk : l.blk = b)
    (delay : b.enPM = true → l.ds = ds) (pair : b.enNoise = true → l.nz = nz) (n : Nat) (c : Channel) (d : Datapath V) :
    ∃ x dry, onFrames cfg (channelOps b n c) (d, l) = (channelFrame b ds nz n d c, { l with x := x, dry := dry }) := by
  subst blk
  let k : Locals V := { l with dry := cellOr0 d c n }
  have opened : onFrames cfg [.seqAt n c, .gainIn n c] (d, l) =
      holding k ({ d with SEQ := some ⟨n, c⟩ }, cellOr0 d c n * l.blk.gIn) := rfl
  have saturated (r : Datapath V × V) := onFrames_stageIf (cfg := cfg) (enabled := l.blk.enSat) (l := k) (r := r)
    (ops := [.saturate c]) (f := saturate l.blk c) fun _ => rfl
  have filtered (r : Datapath V × V) := onFrames_stageIf (cfg := cfg) (enabled := l.blk.enHB) (l := k) (r := r)
    (ops := [.biquad c]) (f := biquad c) fun _ => rfl
  have rolledOff (r : Datapath V × V) :
      onFrames cfg [.lowpass c] (holding k r) = holding k (stageIf true (lowpass c) r) := rfl
  have delayed (r : Datapath V × V) := onFrames_stageIf (cfg := cfg) (enabled := l.blk.enPM) (l := k) (r := r)
    (ops := [.dlyWr c, .dlyRd c]) (f := delayStage c ds) fun enabled => by rw [← delay enabled]; rfl
  have noised (r : Datapath V × V) := onFrames_stageIf (cfg := cfg) (enabled := l.blk.enNoise) (l := k) (r := r)
    (ops := [.noiseAdd c]) (f := noiseStage nz c) fun enabled => by rw [← pair enabled]; rfl
  have closed (r : Datapath V × V) : onFrames cfg [.gainOut, .mix n c] (holding k r) =
      (bufWrite c n (mixOf l.blk.mix (cellOr0 d c n) (r.2 * l.blk.gOut)) r.1, { k with x := r.2 * l.blk.gOut }) := rfl
  refine ⟨(channelResult l.blk ds nz n d c).2 * l.blk.gOut, cellOr0 d c n, ?_⟩
  simp only [channelOps, onFrames_append, opened, saturated, filtered, rolledOff, delayed, noised, closed]
  rfl

theorem onFrames_channels {cfg : Cfg V} {b : BlockLocals V} {ds : V} {nz : Pair V} {l : Locals V} (blk : l.blk = b)
    (delay : b.enPM = true → l.ds = ds) (pair : b.enNoise = true → l.nz = nz) (n : Nat) (cs : List Channel)
    (d : Datapath V) : ∃ x dry, onFrames cfg (cs.flatMap (channelOps b n)) (d, l) =
      (cs.foldl (channelFrame b ds nz n) d, { l with x := x, dry := dry }) := by
  induction cs generalizing d l with
  | nil => exact ⟨l.x, l.dry, rfl⟩
  | cons c rest ih =>
    obtain ⟨x, dry, first⟩ := onFrames_channelOps (cfg := cfg) blk delay pair n c d
    obtain ⟨x', dry', others⟩ := ih (l := { l with x := x, dry := dry }) blk delay pair (channelFrame b ds nz n d c)
    exact ⟨x', dry', by rw [List.flatMap_cons, onFrames_append, first, others]; rfl⟩

/-! ## A frame -/

/-- The oscillators and the noise draws of a frame (45_pipeline.md R172). -/
def frameShared (cfg : Cfg V) (b : BlockLocals V) (n : Nat) (d : Datapath V) : Datapath V × Pair V :=
  let e := lfoRnd (lfoAdv { d with SEQ := some ⟨n, .left⟩ })
  (if b.enNoise then (noise cfg b e).1 else e, (noise cfg b e).2)

/-- One frame (45_pipeline.md R172). -/
def frame (cfg : Cfg V) (b : BlockLocals V) (nch : Nat) (d : Datapath V) (n : Nat) : Datapath V :=
  let e := frameShared cfg b n d
  dlyAdv ((channels nch).foldl (channelFrame b (lfoMod cfg b e.1) e.2 n) e.1)

theorem onFrames_frameOps {cfg : Cfg V} {b : BlockLocals V} {l : Locals V} (blk : l.blk = b) (nch n : Nat)
    (d : Datapath V) : (onFrames cfg (frameOps b nch n) (d, l)).1 = frame cfg b nch d n ∧
      (onFrames cfg (frameOps b nch n) (d, l)).2.blk = b := by
  subst blk
  let e := frameShared cfg l.blk n d
  let k : Locals V := { l with
    nz := if l.blk.enNoise then e.2 else l.nz
    ds := if l.blk.enPM then lfoMod cfg l.blk e.1 else l.ds }
  have shared : onFrames cfg ([.seqAt n .left, .lfoAdv, .lfoRnd] ++ (if l.blk.enNoise then [.noise] else []) ++
      if l.blk.enPM then [.lfoMod] else []) (d, l) = (e.1, k) := by
    simp only [onFrames_append, e, k, frameShared]
    cases l.blk.enNoise <;> cases l.blk.enPM <;> rfl
  obtain ⟨x, dry, ran⟩ := onFrames_channels (cfg := cfg) (b := l.blk) (ds := lfoMod cfg l.blk e.1) (nz := e.2) (l := k) rfl
    (fun enabled => if_pos enabled) (fun enabled => if_pos enabled) n (channels nch) e.1
  rw [frameOps, onFrames_append, onFrames_append, shared, ran]
  exact ⟨rfl, rfl⟩

/-- The frame loop takes nothing but the block-local values from what the sequencer holds (log 18). -/
theorem onFrames_framesOps {cfg : Cfg V} {b : BlockLocals V} {l : Locals V} (blk : l.blk = b) (nch nsamp : Nat)
    (d : Datapath V) : (onFrames cfg (framesOps b nch nsamp) (d, l)).1 = (List.range nsamp).foldl (frame cfg b nch) d := by
  have frames (ns : List Nat) (d : Datapath V) (l : Locals V) (blk : l.blk = b) :
      (onFrames cfg (ns.flatMap (frameOps b nch)) (d, l)).1 = ns.foldl (frame cfg b nch) d := by
    induction ns generalizing d l with
    | nil => rfl
    | cons n rest ih =>
      obtain ⟨state, locals⟩ := onFrames_frameOps (cfg := cfg) blk nch n d
      rw [List.flatMap_cons, onFrames_append, List.foldl_cons, ← state]
      exact ih _ _ locals
  exact frames _ d l blk

/-! ## What a channel sees and changes -/

/-- A private state with another BUF and another position of the sequencer. -/
def withBuf (m : Pair (Mem V)) (q : Option SeqPos) (d : Datapath V) : Datapath V := { d with BUF := m, SEQ := q }

/-- A stage of channel `c` on its sample changes that channel only, and sees neither BUF nor SEQ. -/
structure StageOf (c : Channel) (f : V → Datapath V → Datapath V × V) : Prop where
  frame : ∀ x d, ∃ h, (f x d).1 = setChan c h d
  ignoresBuf : ∀ x m q d, f x (withBuf m q d) = (withBuf m q (f x d).1, (f x d).2)

omit [DecidableEq V] in
theorem saturate_stage (b : BlockLocals V) (c : Channel) : StageOf c (saturate b c) :=
  ⟨fun _ _ => ⟨_, rfl⟩, fun _ _ _ _ => rfl⟩

omit [DecidableEq V] in
theorem biquad_stage (c : Channel) : StageOf c (biquad (V := V) c) := ⟨fun _ _ => ⟨_, rfl⟩, fun _ _ _ _ => rfl⟩

omit [DecidableEq V] in
theorem lowpass_stage (c : Channel) : StageOf c (lowpass (V := V) c) := ⟨fun _ _ => ⟨_, rfl⟩, fun _ _ _ _ => rfl⟩

theorem delayStage_stage (c : Channel) (ds : V) : StageOf c (delayStage c ds) :=
  ⟨fun _ _ => ⟨_, rfl⟩, fun _ _ _ _ => rfl⟩

omit [NUM V] [DecidableEq V] in
theorem setChan_get (c : Channel) (d : Datapath V) : setChan c (d.ch.get c) d = d := by cases c <;> rfl

omit [NUM V] [DecidableEq V] in
theorem setChan_setChan (c : Channel) (x y : Chan V) (d : Datapath V) : setChan c x (setChan c y d) = setChan c x d := by
  cases c <;> rfl

omit [DecidableEq V] in
theorem noiseStage_stage (nz : Pair V) (c : Channel) : StageOf c (noiseStage nz c) :=
  ⟨fun _ d => ⟨d.ch.get c, (setChan_get c d).symm⟩, fun _ _ _ _ => rfl⟩

section
variable {c : Channel} {f : V → Datapath V → Datapath V × V} (h : StageOf c f) (enabled : Bool)
include h

omit [NUM V] [DecidableEq V] in
theorem StageOf.stageIf_frame {d : Datapath V} {r : Datapath V × V} (frame : ∃ x, r.1 = setChan c x d) :
    ∃ x, (stageIf enabled f r).1 = setChan c x d := by
  cases enabled with
  | false => exact frame
  | true =>
    obtain ⟨x, before⟩ := frame
    obtain ⟨y, after⟩ := h.frame r.2 r.1
    exact ⟨y, after.trans (by rw [before, setChan_setChan])⟩

omit [NUM V] [DecidableEq V] in
theorem StageOf.stageIf_ignoresBuf (m : Pair (Mem V)) (q : Option SeqPos) (r : Datapath V × V) :
    stageIf enabled f (withBuf m q r.1, r.2) = (withBuf m q (stageIf enabled f r).1, (stageIf enabled f r).2) := by
  cases enabled with
  | false => rfl
  | true => exact h.ignoresBuf _ _ _ _

end

section
variable (b : BlockLocals V) (ds : V) (nz : Pair V) (c : Channel) (x : V) (d : Datapath V)

theorem channelStages_frame : ∃ h, (channelStages b ds nz c x d).1 = setChan c h d :=
  (noiseStage_stage nz c).stageIf_frame _ ((delayStage_stage c ds).stageIf_frame _ ((lowpass_stage c).stageIf_frame _
    ((biquad_stage c).stageIf_frame _ ((saturate_stage b c).stageIf_frame _ ⟨d.ch.get c, (setChan_get c d).symm⟩))))

theorem channelStages_ignoreBuf (m : Pair (Mem V)) (q : Option SeqPos) : channelStages b ds nz c x (withBuf m q d) =
    (withBuf m q (channelStages b ds nz c x d).1, (channelStages b ds nz c x d).2) := by
  simp only [channelStages]
  rw [(saturate_stage b c).stageIf_ignoresBuf _ m q (d, x), (biquad_stage c).stageIf_ignoresBuf,
    (lowpass_stage c).stageIf_ignoresBuf, (delayStage_stage c ds).stageIf_ignoresBuf,
    (noiseStage_stage nz c).stageIf_ignoresBuf]

end

section
variable {b : BlockLocals V} {ds : V} {nz : Pair V} {n : Nat} {d : Datapath V} {c : Channel}

/-- What a channel of a frame writes: its own registers, its own cell and SEQ (45_pipeline.md R172). -/
theorem channelFrame_eq : ∃ h v, channelFrame b ds nz n d c =
    { d with ch := d.ch.set c h, BUF := d.BUF.set c (Memory.write none (d.BUF.get c) n v), SEQ := some ⟨n, c⟩ } := by
  obtain ⟨h, stages⟩ := channelStages_frame b ds nz c (cellOr0 d c n * b.gIn) { d with SEQ := some ⟨n, c⟩ }
  refine ⟨h, mixOf b.mix (cellOr0 d c n) ((channelResult b ds nz n d c).2 * b.gOut), ?_⟩
  unfold channelFrame
  generalize mixOf b.mix (cellOr0 d c n) ((channelResult b ds nz n d c).2 * b.gOut) = v
  rw [channelResult, stages]
  rfl

end

/-- What the channels of a frame leave alone. -/
theorem foldl_channelFrame_keeps (b : BlockLocals V) (ds : V) (nz : Pair V) (n : Nat) (cs : List Channel)
    (d : Datapath V) : let e := cs.foldl (channelFrame b ds nz n) d
    sameSetup d e ∧ e.osc = d.osc ∧ e.RNG = d.RNG := by
  induction cs generalizing d with
  | nil => exact ⟨⟨rfl, rfl, rfl, rfl, rfl⟩, rfl, rfl⟩
  | cons c rest ih =>
    obtain ⟨h, v, first⟩ := channelFrame_eq (b := b) (ds := ds) (nz := nz) (n := n) (d := d) (c := c)
    have others := ih (channelFrame b ds nz n d c)
    rw [first] at others
    rw [List.foldl_cons, first]
    exact others

/-! ## The shared state of a frame -/

omit [DecidableEq V] in
theorem lfoRnd_of_same {d e : Datapath V} (osc : e.osc = d.osc) (RNG : e.RNG = d.RNG) :
    lfoRnd e = { e with osc := (lfoRnd d).osc, RNG := (lfoRnd d).RNG } := by
  obtain below | reached := Nat.lt_or_ge d.osc.MODCNT 999
  · rw [lfoRnd_of_lt (d := e) (by rwa [osc]), lfoRnd_of_lt below, osc, ← RNG]
  · rw [lfoRnd_of_ge (d := e) (by rwa [osc]), lfoRnd_of_ge reached, osc, RNG]

omit [DecidableEq V] in
/-- The shared part of a frame is a function of the oscillators, the generator and the increments. -/
theorem frameShared_of_same (cfg : Cfg V) (b : BlockLocals V) (n m : Nat) {d e : Datapath V} (osc : e.osc = d.osc)
    (RNG : e.RNG = d.RNG) (coef : e.coef = d.coef) : frameShared cfg b m e = ({ e with
      osc := (frameShared cfg b n d).1.osc
      RNG := (frameShared cfg b n d).1.RNG
      SEQ := some ⟨m, .left⟩ }, (frameShared cfg b n d).2) := by
  have rnd := lfoRnd_of_same (d := lfoAdv { d with SEQ := some ⟨n, .left⟩ }) (e := lfoAdv { e with SEQ := some ⟨m, .left⟩ })
    (by simp only [lfoAdv, osc, coef]) RNG
  unfold frameShared
  rw [rnd]
  cases b.enNoise <;> rfl

omit [DecidableEq V] in
/-- The shared part of a frame writes the oscillators, the generator and SEQ. -/
theorem frameShared_eq (cfg : Cfg V) (b : BlockLocals V) (n : Nat) (d : Datapath V) :
    (frameShared cfg b n d).1 = { d with
      osc := (frameShared cfg b n d).1.osc
      RNG := (frameShared cfg b n d).1.RNG
      SEQ := some ⟨n, .left⟩ } :=
  congrArg Prod.fst (frameShared_of_same cfg b n n rfl rfl rfl)

section
variable (cfg : Cfg V) (b : BlockLocals V) (nch n : Nat) (d : Datapath V)

theorem frame_keeps_setup : sameSetup d (frame cfg b nch d n) := by
  have shared := frameShared_eq cfg b n d
  unfold frame
  dsimp only
  generalize frameShared cfg b n d = e at *
  obtain ⟨channelsKeep, -, -⟩ := foldl_channelFrame_keeps b (lfoMod cfg b e.1) e.2 n (channels nch) e.1
  rw [shared] at channelsKeep ⊢
  exact channelsKeep

theorem frame_osc : (frame cfg b nch d n).osc = { (frameShared cfg b n d).1.osc with
    WCUR := ((frameShared cfg b n d).1.osc.WCUR + 1) % d.L } := by
  have L : (frameShared cfg b n d).1.L = d.L := by rw [frameShared_eq]
  unfold frame
  dsimp only
  generalize frameShared cfg b n d = e at *
  obtain ⟨⟨-, -, -, keptL, -⟩, osc, -⟩ := foldl_channelFrame_keeps b (lfoMod cfg b e.1) e.2 n (channels nch) e.1
  rw [← L, ← keptL, ← osc, ← modNat_natCast]
  rfl

theorem frame_RNG : (frame cfg b nch d n).RNG = (frameShared cfg b n d).1.RNG :=
  (foldl_channelFrame_keeps b _ _ n (channels nch) (frameShared cfg b n d).1).2.2

end

section
variable {cfg : Cfg V} {b : BlockLocals V} {n : Nat} {d : Datapath V}

omit [DecidableEq V] in
theorem frameShared_WCUR : (frameShared cfg b n d).1.osc.WCUR = d.osc.WCUR := by
  have rnd (e : Datapath V) : (lfoRnd e).osc.WCUR = e.osc.WCUR := by
    unfold lfoRnd
    split <;> rfl
  unfold frameShared
  cases b.enNoise <;> exact rnd _

omit [DecidableEq V] in
theorem frameShared_MODCNT (h : d.osc.MODCNT < 1000) :
    (frameShared cfg b n d).1.osc.MODCNT = (d.osc.MODCNT + 1) % 1000 := by
  have counted (e : Datapath V) (h : e.osc.MODCNT < 1000) : (lfoRnd e).osc.MODCNT = (e.osc.MODCNT + 1) % 1000 := by
    obtain below | reached : e.osc.MODCNT < 999 ∨ e.osc.MODCNT = 999 := by omega
    · rw [lfoRnd_of_lt below, Nat.mod_eq_of_lt (by omega)]
    · rw [lfoRnd_of_ge reached.ge, reached]
  unfold frameShared
  cases b.enNoise <;> exact counted _ h

omit [DecidableEq V] in
/-- Without noise, and with no update of the offsets due, a frame draws nothing. -/
theorem frameShared_RNG_of_silent (silent : b.enNoise = false) (h : d.osc.MODCNT < 999) :
    (frameShared cfg b n d).1.RNG = d.RNG := by
  simp only [frameShared, silent, Bool.false_eq_true, if_false]
  rw [lfoRnd_of_lt (d := lfoAdv { d with SEQ := some ⟨n, .left⟩ }) h]
  rfl

end

/-! ## The frame loop -/

/-- The frame loop of a block (45_pipeline.md R172). -/
def loop (cfg : Cfg V) (b : BlockLocals V) (nch nsamp : Nat) (d : Datapath V) : Datapath V :=
  (List.range nsamp).foldl (frame cfg b nch) d

section
variable {cfg : Cfg V} {b : BlockLocals V} {nch nsamp : Nat} {d : Datapath V}

@[simp] theorem loop_zero : loop cfg b nch 0 d = d := rfl

theorem loop_succ : loop cfg b nch (nsamp + 1) d = frame cfg b nch (loop cfg b nch nsamp d) nsamp := by
  rw [loop, List.range_succ, List.foldl_append]
  rfl

theorem afterLoop_fst (q : Datapath V × Locals V) : (afterLoop cfg nch nsamp q).1 = loop cfg q.2.blk nch nsamp q.1 :=
  onFrames_framesOps rfl nch nsamp q.1

theorem loop_keeps_setup : sameSetup d (loop cfg b nch nsamp d) := by
  induction nsamp with
  | zero => exact ⟨rfl, rfl, rfl, rfl, rfl⟩
  | succ n ih =>
    obtain ⟨S, FS, BLKSZ, L, coef⟩ := ih
    obtain ⟨S', FS', BLKSZ', L', coef'⟩ := frame_keeps_setup cfg b nch n (loop cfg b nch n d)
    rw [loop_succ]
    exact ⟨S'.trans S, FS'.trans FS, BLKSZ'.trans BLKSZ, L'.trans L, coef'.trans coef⟩

/-- The offset counter advances once a frame (43_pitch_modulation.md R142). -/
theorem loop_MODCNT (h : d.osc.MODCNT < 1000) :
    (loop cfg b nch nsamp d).osc.MODCNT = (d.osc.MODCNT + nsamp) % 1000 := by
  induction nsamp with
  | zero => exact (Nat.mod_eq_of_lt h).symm
  | succ n ih =>
    rw [loop_succ, frame_osc, frameShared_MODCNT (by rw [ih]; exact Nat.mod_lt _ (by decide)), ih, Nat.mod_add_mod]
    rfl

/-- The write cursor advances once a frame (43_pitch_modulation.md R147). -/
theorem loop_WCUR (h : d.osc.WCUR < d.L) : (loop cfg b nch nsamp d).osc.WCUR = (d.osc.WCUR + nsamp) % d.L := by
  induction nsamp with
  | zero => exact (Nat.mod_eq_of_lt h).symm
  | succ n ih =>
    obtain ⟨-, -, -, L, -⟩ := loop_keeps_setup (cfg := cfg) (b := b) (nch := nch) (nsamp := n) (d := d)
    rw [loop_succ, frame_osc, frameShared_WCUR, L, ih, Nat.mod_add_mod]
    rfl

theorem loop_RNG_of_silent (silent : b.enNoise = false) (h : d.osc.MODCNT + nsamp < 1000) :
    (loop cfg b nch nsamp d).RNG = d.RNG := by
  induction nsamp with
  | zero => rfl
  | succ n ih =>
    have counter : (loop cfg b nch n d).osc.MODCNT < 999 := by
      rw [loop_MODCNT (by omega), Nat.mod_eq_of_lt (by omega)]
      omega
    rw [loop_succ, frame_RNG, frameShared_RNG_of_silent silent counter, ih (by omega)]

end

end Sys2Proof.Machine
end

section
/-! PROOFS. A block of PROCESS (46_commands.md R197, 45_pipeline.md R171 to R183): the scan, the cells that the frame loop
writes, the block with nothing landing as one state, and the block whatever lands in it. -/

namespace Sys2Proof.Machine

section
variable {V : Type} [NUM V]

/-! ## The scan (R173) -/

/-- The scan of cells that all hold values gives their peak. -/
theorem scanPeak_of_filled {d : Datapath V} {cells : List (Channel × Nat)}
    (filled : ∀ e ∈ cells, (bufRead d e.1 e.2).isSome = true) :
    scanPeak d cells (NUM.lit 0) = .ok (peakOf d cells) := by
  have scan (p : V) : scanPeak d cells p =
      .ok (cells.foldl (fun p e => NUM.max p (NUM.abs ((bufRead d e.1 e.2).getD (NUM.lit 0)))) p) := by
    induction cells generalizing p with
    | nil => rfl
    | cons e rest ih =>
      obtain ⟨held, restFilled⟩ := List.forall_mem_cons.mp filled
      obtain ⟨m, hm⟩ := Option.isSome_iff_exists.mp held
      rw [scanPeak, hm, List.foldl_cons, hm]
      exact ih restFilled _
  exact scan _

/-- The scan ends at the first cell, in the order `before` of the list, that holds no value. -/
theorem scanPeak_of_unwritten {before : Channel × Nat → Channel × Nat → Prop} {d : Datapath V}
    {cells : List (Channel × Nat)} (order : cells.Pairwise before) {e : Channel × Nat} (listed : e ∈ cells)
    (unwritten : bufRead d e.1 e.2 = none)
    (earlier : ∀ x ∈ cells, before x e → (bufRead d x.1 x.2).isSome = true) (p : V) : scanPeak d cells p = .error e := by
  induction cells generalizing p with
  | nil => cases listed
  | cons x rest ih =>
    obtain ⟨first, restOrder⟩ := List.pairwise_cons.mp order
    obtain rfl | later := List.mem_cons.mp listed
    · rw [scanPeak, unwritten]
    · obtain ⟨m, held⟩ := Option.isSome_iff_exists.mp (earlier x List.mem_cons_self (first e later))
      rw [scanPeak, held]
      exact ih restOrder later (fun y hy => earlier y (List.mem_cons_of_mem _ hy)) _

end

/-- Frame-major, channel-minor order (45_pipeline.md R173). -/
def scanBefore (x y : Channel × Nat) : Prop := x.2 < y.2 ∨ x.2 = y.2 ∧ x.1.index < y.1.index

theorem blockCells_pairwise (nch nsamp : Nat) : (blockCells nch nsamp).Pairwise scanBefore := by
  have inFrame (n : Nat) : ((channels nch).map fun c => (c, n)).Pairwise scanBefore := by
    match nch with
    | 0 => exact .nil
    | 1 => exact List.pairwise_singleton _ _
    | _ + 2 => exact List.pairwise_pair.mpr (.inr ⟨rfl, Nat.one_pos⟩)
  refine List.pairwise_flatMap.mpr ⟨fun n _ => inFrame n, List.pairwise_lt_range.imp ?_⟩
  intro n m earlier x hx y hy
  obtain ⟨_, -, rfl⟩ := List.mem_map.mp hx
  obtain ⟨_, -, rfl⟩ := List.mem_map.mp hy
  exact .inl earlier

section
variable {V : Type} [NUM V] [DecidableEq V] {cfg : Cfg V} {b : BlockLocals V} {nch nsamp : Nat} {d : Datapath V}

/-! ## The cells that the frame loop writes -/

theorem bufRead_channelFrame_other {ds : V} {nz : Pair V} {n m : Nat} {c e : Channel} (h : ¬(e = c ∧ m = n)) :
    bufRead (channelFrame b ds nz n d c) e m = bufRead d e m := by
  obtain ⟨x, stages⟩ := channelStages_frame b ds nz c (cellOr0 d c n * b.gIn) { d with SEQ := some ⟨n, c⟩ }
  rw [channelFrame, bufRead_bufWrite_other h, channelResult, stages]
  rfl

theorem bufRead_channelFrame_same {ds : V} {nz : Pair V} {n : Nat} {c : Channel} :
    bufRead (channelFrame b ds nz n d c) c n =
      some (mixOf b.mix (cellOr0 d c n) ((channelResult b ds nz n d c).2 * b.gOut)) :=
  bufRead_bufWrite_same _ _ _ _

/-- A property of BUF's cells that writing the cells `(c, n)` of the listed channels keeps. -/
theorem foldl_channelFrame_induct {I : Datapath V → Prop} {ds : V} {nz : Pair V} {n : Nat} {cs : List Channel}
    (h : ∀ c ∈ cs, ∀ e, I e → I (channelFrame b ds nz n e c)) (start : I d) :
    I (cs.foldl (channelFrame b ds nz n) d) := by
  induction cs generalizing d with
  | nil => exact start
  | cons c rest ih => exact ih (fun x hx => h x (List.mem_cons_of_mem _ hx)) (h c List.mem_cons_self _ start)

/-- A property of the private state that every frame keeps holds after the frame loop. -/
theorem loop_induct {I : Datapath V → Prop} (h : ∀ n < nsamp, ∀ e, I e → I (frame cfg b nch e n)) (start : I d) :
    I (loop cfg b nch nsamp d) := by
  induction nsamp with
  | zero => exact start
  | succ n ih =>
    rw [loop_succ]
    exact h n (Nat.lt_succ_self n) _ (ih fun m hm => h m (Nat.lt_succ_of_lt hm))

/-- As `foldl_channelFrame_induct` for a whole frame, of a property of the channels and BUF. -/
theorem frame_induct {I : Pair (Chan V) → Pair (Mem V) → Prop} {n : Nat}
    (h : ∀ ds nz, ∀ c : Channel, c.index < nch → ∀ e, I e.ch e.BUF →
      I (channelFrame b ds nz n e c).ch (channelFrame b ds nz n e c).BUF) (start : I d.ch d.BUF) :
    I (frame cfg b nch d n).ch (frame cfg b nch d n).BUF := by
  have ch : (frameShared cfg b n d).1.ch = d.ch := by rw [frameShared_eq]
  have BUF : (frameShared cfg b n d).1.BUF = d.BUF := by rw [frameShared_eq]
  exact foldl_channelFrame_induct (I := fun e => I e.ch e.BUF) (fun c hc e => h _ _ c (index_lt_of_mem_channels hc) e)
    (by rwa [ch, BUF])

/-- A frame writes its own cells only. -/
theorem bufRead_frame_other {n : Nat} {c : Channel} {m : Nat} (h : ¬(c.index < nch ∧ m = n)) :
    bufRead (frame cfg b nch d n) c m = bufRead d c m := by
  refine frame_induct (I := fun _ buf => Memory.read none (buf.get c) m = bufRead d c m) (fun ds nz x hx u kept => ?_) rfl
  refine (bufRead_channelFrame_other ?_).trans kept
  rintro ⟨rfl, rfl⟩
  exact h ⟨hx, rfl⟩

/-- The frame loop writes no cell outside its block (46_commands.md R197). -/
theorem loop_buf_outside {c : Channel} {m : Nat} (h : ¬inBlock nch nsamp c m) :
    bufRead (loop cfg b nch nsamp d) c m = bufRead d c m := by
  refine loop_induct (I := fun e => bufRead e c m = bufRead d c m) (fun n hn e kept => ?_) rfl
  refine (bufRead_frame_other ?_).trans kept
  rintro ⟨hc, rfl⟩
  exact h ⟨hc, hn⟩

/-- The frame loop takes no value out of a cell. -/
theorem loop_buf_isSome {c : Channel} {m : Nat} (h : (bufRead d c m).isSome = true) :
    (bufRead (loop cfg b nch nsamp d) c m).isSome = true := by
  refine loop_induct (I := fun e => (bufRead e c m).isSome = true) (fun n _ e kept => ?_) h
  refine frame_induct (I := fun _ buf => (Memory.read none (buf.get c) m).isSome = true) (fun ds nz x _ u kept => ?_) kept
  by_cases written : c = x ∧ m = n
  · obtain ⟨rfl, rfl⟩ := written
    exact congrArg Option.isSome bufRead_channelFrame_same
  · exact (congrArg Option.isSome (bufRead_channelFrame_other written)).trans kept

/-! ## The block with nothing landing -/

/-- The state that an accepted filled block of `s` leaves with nothing landing: the frame loop ran with the block-local
values of the parameters from the private state after the latch. -/
def processed (nch nsamp : Nat) (s : Over.State V) : Over.State V :=
  { published nch nsamp { s with DIRTY := false } (peakOf s.dp (blockCells nch nsamp))
      (loop s.cfg (blockLocals s.cfg s.P) nch nsamp (latchInto s.DIRTY s.dp s.P)) with
    out := answer 0 0 :: s.out }

variable {s : Over.State V}

omit [NUM V] [DecidableEq V] in
theorem Filled.cells (filled : Filled nch nsamp s) (channels : nch ≤ 2) :
    ∀ e ∈ blockCells nch nsamp, (bufRead s.dp e.1 e.2).isSome = true :=
  fun e listed => filled e.1 e.2 ((mem_blockCells channels).mp listed)

theorem process_of_quiet (accepted : Accepted nch nsamp s) (filled : Filled nch nsamp s) (quiet : s.arrivals = []) :
    process nch nsamp s = processed nch nsamp s := by
  have scan := scanPeak_of_filled (filled.cells accepted.channels)
  have latched : runLatch (acquire s) = ({ s with
      BUSY := true, DIRTY := false, dp := latchInto s.DIRTY s.dp s.P },
      { Locals.start s.cfg s.dp.S with dirty := s.DIRTY, blk := blockLocals s.cfg s.P }) := by
    rw [acquire_of_quiet quiet, runLatch_of_quiet (by exact quiet)]
    rfl
  have found : scanPeak (runLatch (acquire s)).1.dp (blockCells nch nsamp) (NUM.lit 0) =
      .ok (peakOf s.dp (blockCells nch nsamp)) := by
    rw [latched]
    exact (scanPeak_of_BUF (latchInto_BUF _ _ _) _ _).trans scan
  rw [process_of_accepted accepted, processBody_of_scan_ok found, latched, runBlock_of_quiet _ _ _ _ (by exact quiet),
    afterLoop_fst]
  rfl

/-- A block that finds a cell without a value, with nothing landing. -/
theorem process_of_unwritten_quiet (accepted : Accepted nch nsamp s) (quiet : s.arrivals = []) {e : Channel × Nat}
    (unwritten : scanPeak s.dp (blockCells nch nsamp) (NUM.lit 0) = .error e) : process nch nsamp s = { s with
      DIRTY := false
      BUSY := false
      ERR := firstError s.ERR 5
      dp := { latchInto s.DIRTY s.dp s.P with SEQ := none }
      out := .response ⟨5, 0, some (e.1.index, e.2)⟩ :: s.out } := by
  have latched : (runLatch (acquire s)).1 = { s with
      BUSY := true, DIRTY := false, dp := latchInto s.DIRTY s.dp s.P } := by
    rw [acquire_of_quiet quiet, runLatch_of_quiet (by exact quiet)]
    rfl
  have found : scanPeak (runLatch (acquire s)).1.dp (blockCells nch nsamp) (NUM.lit 0) = .error e := by
    rw [latched]
    exact (scanPeak_of_BUF (latchInto_BUF _ _ _) _ _).trans unwritten
  rw [process_of_accepted accepted, processBody_of_scan_error found, latched]
  rfl

/-! ## The block whatever lands in it -/

/-- An accepted filled block runs its frame loop with the parameters `p` that its latch takes. -/
theorem process_of_filled (accepted : Accepted nch nsamp s) (filled : Filled nch nsamp s) {p : ParamFile V}
    (takes : LatchTakes (acquire s) p) : (process nch nsamp s).out.head? = some (answer 0 0) ∧
      AgentChange (published nch nsamp { s with DIRTY := false } (peakOf s.dp (blockCells nch nsamp))
        (loop s.cfg (blockLocals s.cfg p) nch nsamp (latchInto (acquire s).DIRTY s.dp p))) (process nch nsamp s) := by
  have scan := scanPeak_of_filled (filled.cells accepted.channels)
  obtain ⟨-, ok⟩ := processBody_spec takes nch nsamp
  have ran := ok _ scan
  rw [afterLoop_fst] at ran
  rw [process_of_accepted accepted]
  refine ⟨?_, ran⟩
  obtain ⟨latched, -⟩ := runLatch_spec takes
  have found : scanPeak (runLatch (acquire s)).1.dp (blockCells nch nsamp) (NUM.lit 0) =
      .ok (peakOf s.dp (blockCells nch nsamp)) :=
    (scanPeak_of_BUF (by rw [latched.dp, latchInto_BUF, acquire_dp]) _ _).trans scan
  rw [processBody_of_scan_ok found]
  exact runBlock_out_head _ _ _ _

end

/-! ## The obligations -/

/-- Settles O28: the cells of the scan are in frame-major order, so it ends at `(c, n)`; the latch has run. -/
theorem processRefusesAnUnwrittenCell : Obligations.ProcessRefusesAnUnwrittenCell := by
  intro nch nsamp s c n accepted quiet inside unwritten earlier
  let := numOf s.cfg
  have found : scanPeak s.dp (blockCells nch nsamp) (NUM.lit 0) = .error (c, n) :=
    scanPeak_of_unwritten (before := scanBefore) (e := (c, n)) (blockCells_pairwise nch nsamp) ((mem_blockCells accepted.channels).mpr inside) unwritten
      (fun x listed before => earlier x.1 x.2 ((mem_blockCells accepted.channels).mp listed) before) _
  refine ⟨_, exec_eq_command _ s, ?_⟩
  have refused : command (.process nch nsamp) s = _ := process_of_unwritten_quiet accepted quiet found
  rw [refused]
  refine ⟨rfl, rfl, rfl, rfl, rfl, rfl, rfl, rfl, ?_⟩
  rw [latchInto_eq]
  rfl

theorem foldl_max_spec {α : Type} (f : α → ℚ) (xs : List α) (p : ℚ) :
    let r := xs.foldl (fun p x => max p (f x)) p
    p ≤ r ∧ (∀ x ∈ xs, f x ≤ r) ∧ (r = p ∨ ∃ x ∈ xs, r = f x) := by
  induction xs generalizing p with
  | nil => exact ⟨le_rfl, fun _ h => (List.not_mem_nil h).elim, .inl rfl⟩
  | cons x rest ih =>
    obtain ⟨start, bound, attained⟩ := ih (max p (f x))
    refine ⟨(le_max_left _ _).trans start, ?_, ?_⟩
    · intro y hy
      obtain rfl | hy := List.mem_cons.mp hy
      · exact (le_max_right _ _).trans start
      · exact bound y hy
    · obtain first | ⟨y, hy, later⟩ := attained
      · obtain h | h := max_choice p (f x)
        · exact .inl (first.trans h)
        · exact .inr ⟨x, List.mem_cons_self, first.trans h⟩
      · exact .inr ⟨y, List.mem_cons_of_mem _ hy, later⟩

/-- In exact arithmetic the fold of a filled block is its peak (45_pipeline.md R173, R183). -/
theorem isPeak_peakOf (F : Fns ℚ) {nch nsamp : Nat} {s : State} (channels : nch ≤ 2) (filled : Filled nch nsamp s) :
    letI := NUM.exact F; IsPeak nch nsamp s (peakOf s.dp (blockCells nch nsamp)) := by
  have zero : (NUM.exact F).lit 0 = 0 := Rat.cast_zero
  obtain ⟨-, bound, attained⟩ := foldl_max_spec (fun e => |(bufRead s.dp e.1 e.2).getD 0|) (blockCells nch nsamp) 0
  have peak : (letI := NUM.exact F; peakOf s.dp (blockCells nch nsamp)) =
      (blockCells nch nsamp).foldl (fun p e => max p |(bufRead s.dp e.1 e.2).getD 0|) 0 := by
    simp only [peakOf, zero, Laws.max_exact, Laws.abs_exact]
  refine ⟨fun e n v inside held => ?_, ?_⟩
  · have listed := bound (e, n) ((mem_blockCells channels).mpr inside)
    rw [held, Option.getD_some] at listed
    exact listed.trans_eq peak.symm
  · obtain zero | ⟨e, listed, largest⟩ := attained
    · exact .inl (peak.trans zero)
    · have inside := (mem_blockCells channels).mp listed
      obtain ⟨v, held⟩ := Option.isSome_iff_exists.mp (filled e.1 e.2 inside)
      rw [held, Option.getD_some] at largest
      exact .inr ⟨e.1, e.2, v, inside, held, peak.trans largest⟩

/-- The same in the domain of a configuration that computes in exact arithmetic. -/
theorem isPeak_peakOf_numOf {c : Cfg ℚ} (exact : c.num ≠ .other) {nch nsamp : Nat} {s : State} (channels : nch ≤ 2)
    (filled : Filled nch nsamp s) : letI := numOf c; IsPeak nch nsamp s (peakOf s.dp (blockCells nch nsamp)) := by
  rw [Laws.numOf_eq_exact exact]
  exact isPeak_peakOf _ channels filled

/-- Settles O29: the block's own writes, with the words that land in it beside them. -/
theorem processCompletesAFilledBlock : Obligations.ProcessCompletesAFilledBlock := by
  intro nch nsamp s accepted filled
  let := numOf s.cfg
  obtain ⟨p, takes⟩ := exists_latchTakes (acquire s)
  obtain ⟨answered, change⟩ := process_of_filled accepted filled takes
  obtain ⟨t, ran⟩ : ∃ t, process nch nsamp s = t := ⟨_, rfl⟩
  rw [ran] at answered change
  let d := latchInto (acquire s).DIRTY s.dp p
  let d' := loop s.cfg (blockLocals s.cfg p) nch nsamp d
  have dp : t.dp = { d' with SEQ := none } := change.dp
  have start : d = _ := latchInto_eq (acquire s).DIRTY s.dp p
  obtain ⟨-, FS, BLKSZ, L, -⟩ : sameSetup d d' := loop_keeps_setup
  have startCells (c : Channel) (n : Nat) : bufRead d c n = bufRead s.dp c n := by rw [bufRead, latchInto_BUF]; rfl
  have cells (c : Channel) (n : Nat) : bufRead t.dp c n = bufRead d' c n := by rw [dp]; rfl
  have stillFilled : Filled nch nsamp t := fun c n inside => by
    rw [cells]
    exact loop_buf_isSome (by rw [startCells]; exact filled c n inside)
  have peakOut : t.PEAK_OUT = peakOf t.dp (blockCells nch nsamp) := by
    rw [dp]
    exact change.PEAK_OUT
  refine ⟨t, (exec_eq_command _ s).trans (congrArg _ ran), change.BUSY, answered, fun exact => ⟨?_, ?_⟩, stillFilled, fun c n outside => ?_, ?_, ?_, ?_, change.PREPARED,
    change.cfg, change.inputs, by rw [dp]⟩
  · exact change.PEAK_IN ▸ isPeak_peakOf_numOf exact accepted.channels filled
  · exact peakOut ▸ isPeak_peakOf_numOf exact accepted.channels stillFilled
  · rw [cells, ← startCells]
    exact loop_buf_outside outside
  all_goals rw [dp]
  · exact FS.trans (by rw [start])
  · exact BLKSZ.trans (by rw [start])
  · exact L.trans (by rw [start])

/-- The frame loop of a block as the statements name it. -/
theorem afterFrames_eq {nch nsamp : Nat} {s : State} {d : Datapath ℚ} {l : Locals ℚ} : letI := numOf s.cfg
    afterFrames nch nsamp s d l = { loop s.cfg l.blk nch nsamp d with SEQ := none } := by
  let := numOf s.cfg
  have run := runOps_frames_of_quiet (framesOps_inFrames l.blk nch nsamp) (s := { s with dp := d, arrivals := [] }) l rfl
  have looped := onFrames_framesOps (cfg := s.cfg) (b := l.blk) (l := l) rfl nch nsamp d
  exact congrArg (fun e : Datapath ℚ => { e with SEQ := none }) ((congrArg (fun r => r.1.dp) run).trans looped)

/-- Settles O30: the block leaves the frame loop's state, which keeps the setup; the counter, the cursor and the
generator move once a frame. -/
theorem blockRunsOnLatchedParameters : Obligations.BlockRunsOnLatchedParameters := by
  intro nch nsamp s accepted filled quiet
  let := numOf s.cfg
  let d := latchInto s.DIRTY s.dp s.P
  have start : d = _ := latchInto_eq s.DIRTY s.dp s.P
  have osc : d.osc = s.dp.osc := by rw [start]
  have L : d.L = s.dp.L := by rw [start]
  obtain ⟨S, -, -, -, coef⟩ : sameSetup d (loop s.cfg (blockLocals s.cfg s.P) nch nsamp d) := loop_keeps_setup
  refine ⟨processed nch nsamp s, (exec_eq_command _ s).trans (congrArg _ (process_of_quiet accepted filled quiet)), rfl,
    rfl, rfl, rfl, fun l blk => ?_, ?_, ?_, fun counter => ?_, fun cursor => ?_, fun silent counter => ?_⟩
  · rw [afterFrames_eq, blk]
    rfl
  · exact S.trans (by rw [start])
  · exact coef.trans (by rw [start]; rfl)
  · exact (loop_MODCNT (by rwa [osc])).trans (by rw [osc])
  · exact (loop_WCUR (by rwa [osc, L])).trans (by rw [osc, L])
  · exact (loop_RNG_of_silent silent (by rwa [osc])).trans (by rw [latchInto_eq])

end Sys2Proof.Machine
end

section
/-! PROOFS. What a block does in special cases, with nothing landing: MIX at 0 (45_pipeline.md R184), zeros from cleared
state (R186), a mono block (R187), and a block in two parts (46_commands.md R198). -/

namespace Sys2Proof.Machine

/-! ## MIX at 0 (R184) -/

section
variable {V : Type} [Field V] [LinearOrder V] [FloorRing V] (F : Fns V)

/-- With MIX at 0 the frame loop writes back what it reads. -/
theorem loop_of_dry {cfg : Cfg V} {b : BlockLocals V} (dry : b.mix = 0) {nch nsamp : Nat} {d : Datapath V}
    (filled : ∀ c n, inBlock nch nsamp c n → (bufRead d c n).isSome = true) (e : Channel) (m : Nat) :
    letI := NUM.exact F; bufRead (loop cfg b nch nsamp d) e m = bufRead d e m := by
  let := NUM.exact F
  revert e m
  refine loop_induct (I := fun u => ∀ e m, bufRead u e m = bufRead d e m) (fun n hn u kept => ?_) fun _ _ => rfl
  refine frame_induct (I := fun _ buf => ∀ e m, Memory.read none (buf.get e) m = bufRead d e m)
    (fun ds nz c hc u kept e m => ?_) kept
  by_cases written : e = c ∧ m = n
  · obtain ⟨rfl, rfl⟩ := written
    obtain ⟨v, held⟩ := Option.isSome_iff_exists.mp (filled e m ⟨hc, hn⟩)
    have cell : cellOr0 u e m = v := by rw [cellOr0, bufRead, kept, held]; rfl
    exact bufRead_channelFrame_same.trans (by rw [dry, mixOf_zero, cell, held])
  · exact (bufRead_channelFrame_other written).trans (kept e m)

/-- R184 over any exact domain. -/
theorem process_of_dry {nch nsamp : Nat} {s : Over.State V} (accepted : Accepted nch nsamp s)
    (filled : Filled nch nsamp s) (quiet : s.arrivals = []) (dry : s.P.mix = 0) : letI := NUM.exact F;
    let t := process nch nsamp s
    (∀ c n, bufRead t.dp c n = bufRead s.dp c n) ∧ t.PEAK_OUT = t.PEAK_IN := by
  let := NUM.exact F
  have mix : (blockLocals s.cfg s.P).mix = 0 := by rw [blockLocals, dry, zero_div]
  have start (c : Channel) (n : Nat) : bufRead (latchInto s.DIRTY s.dp s.P) c n = bufRead s.dp c n := by
    rw [bufRead, latchInto_BUF]
    rfl
  have cells (c : Channel) (n : Nat) := (loop_of_dry F (cfg := s.cfg) mix (nch := nch) (nsamp := nsamp)
    (fun e m inside => by rw [start]; exact filled e m inside) c n).trans (start c n)
  rw [process_of_quiet accepted filled quiet]
  exact ⟨cells, by simp only [processed, published, peakOf, cells]⟩

end

/-- Settles O31: the block over any exact domain, in the domain of the configuration and in NUM_REAL. -/
theorem dryPassthrough : Obligations.DryPassthrough :=
  ⟨fun _ _ _ exact accepted filled quiet dry =>
    ⟨_, exec_eq_exact exact _, process_of_dry _ accepted filled quiet dry⟩,
  fun _ _ _ accepted filled quiet dry => ⟨_, rfl, process_of_dry _ accepted filled quiet dry⟩⟩

/-! ## Zeros (R186) -/

section
variable {V : Type} [Field V] [LinearOrder V] [IsStrictOrderedRing V] [FloorRing V] {F : Fns V}
  {c : Channel} {d : Datapath V} (clear : d.ch.get c = ⟨0, 0, 0, 0, 0, 0, []⟩)
include clear

omit [LinearOrder V] [IsStrictOrderedRing V] [FloorRing V] in
theorem setChan_clear : setChan c ⟨0, 0, 0, 0, 0, 0, []⟩ d = d := by rw [← clear, setChan_get]

omit [IsStrictOrderedRing V] in
theorem biquad_zero : letI := NUM.exact F; biquad c 0 d = (d, 0) := by
  let := NUM.exact F
  have output : (biquad c 0 d).2 = 0 := by rw [biquad_exact_output, clear]; simp
  have state : (biquad c 0 d).1 = d := by
    rw [biquad_exact_datapath, output, clear]
    exact setChan_clear clear
  exact Prod.ext state output

omit [IsStrictOrderedRing V] in
theorem lowpass_zero : letI := NUM.exact F; lowpass c 0 d = (d, 0) := by
  simp only [lowpass, clear, sub_self, mul_zero, add_zero, setChan_clear clear]

omit [IsStrictOrderedRing V] in
/-- A 0 is not listed in D, and every cell reads 0. -/
theorem delayStage_zero (ds : V) : letI := NUM.exact F; delayStage c ds 0 d = (d, 0) := by
  let := NUM.exact F
  have zero : (NUM.lit 0 : V) = 0 := Rat.cast_zero
  have written : dlyWr c 0 d = d := by
    simp only [dlyWr, delayWrite, clear, Memory.write, zero, if_true, Memory.put, setChan_clear clear]
  have cell (i : Nat) : delayRead d c i = 0 := by
    rw [delayRead, clear, zero]
    rfl
  simp only [delayStage, written, dlyRd, cell, zero_mul, add_zero]

theorem saturate_zero (hF : F.Lawful) {b : BlockLocals V} (boff : b.boff = 0) : letI := NUM.exact F;
    saturate b c 0 d = (d, 0) := by
  simp only [saturate, clear, satStage_zero hF boff, setChan_clear clear]

/-- From a cleared channel the stages give 0 for 0 and leave it clear. -/
theorem channelStages_zero (hF : F.Lawful) {b : BlockLocals V} (unbiased : b.enSat = false ∨ b.boff = 0)
    (silent : b.enNoise = false) (ds : V) (nz : Pair V) : letI := NUM.exact F; channelStages b ds nz c 0 d = (d, 0) := by
  let := NUM.exact F
  have saturated : stageIf b.enSat (saturate b c) (d, 0) = (d, 0) := by
    obtain off | boff := unbiased
    · rw [off]
      rfl
    · rw [stageIf, saturate_zero clear hF boff, ite_self]
  have filtered : stageIf b.enHB (biquad c) (d, 0) = (d, 0) := by rw [stageIf, biquad_zero clear, ite_self]
  have rolledOff : stageIf true (lowpass c) (d, 0) = (d, 0) := lowpass_zero clear
  have delayed : stageIf b.enPM (delayStage c ds) (d, 0) = (d, 0) := by rw [stageIf, delayStage_zero clear, ite_self]
  simp only [channelStages, saturated, filtered, rolledOff, delayed, silent]
  rfl

end

/-- The signal state is clear and every cell of the block holds 0. -/
def Silent {V : Type} [Zero V] (nch nsamp : Nat) (ch : Pair (Chan V)) (buf : Pair (Mem V)) : Prop :=
  (∀ c, ch.get c = ⟨0, 0, 0, 0, 0, 0, []⟩) ∧ ∀ c n, inBlock nch nsamp c n → Memory.read none (buf.get c) n = some 0

/-- R186: a silent block stays silent through the frame loop. -/
theorem loop_silent {V : Type} [Field V] [LinearOrder V] [IsStrictOrderedRing V] [FloorRing V] {F : Fns V}
    (hF : F.Lawful) {cfg : Cfg V} {b : BlockLocals V} (unbiased : b.enSat = false ∨ b.boff = 0)
    (silent : b.enNoise = false) {nch nsamp : Nat} {d : Datapath V} (start : Silent nch nsamp d.ch d.BUF) :
    letI := NUM.exact F; Silent nch nsamp (loop cfg b nch nsamp d).ch (loop cfg b nch nsamp d).BUF := by
  let := NUM.exact F
  refine loop_induct (I := fun u => Silent nch nsamp u.ch u.BUF) (fun n hn u kept => ?_) start
  refine frame_induct (fun ds nz c hc u kept => ?_) kept
  obtain ⟨clear, zeros⟩ := kept
  have cell : cellOr0 u c n = 0 := by rw [cellOr0, bufRead, zeros c n ⟨hc, hn⟩]; rfl
  have stages : channelResult b ds nz n u c = ({ u with SEQ := some ⟨n, c⟩ }, 0) := by
    rw [channelResult, cell, zero_mul]
    exact channelStages_zero (by exact clear c) hF unbiased silent ds nz
  have ran : channelFrame b ds nz n u c = bufWrite c n 0 { u with SEQ := some ⟨n, c⟩ } := by
    rw [channelFrame, stages, cell, mixOf_exact]
    simp only [zero_mul, add_zero]
  rw [ran]
  refine ⟨clear, fun e m inside => ?_⟩
  by_cases written : e = c ∧ m = n
  · obtain ⟨rfl, rfl⟩ := written
    exact bufRead_bufWrite_same _ _ _ _
  · exact (bufRead_bufWrite_other written _ _).trans (zeros e m inside)

theorem IsPeak.eq_zero {nch nsamp : Nat} {s : State} {p : ℚ} (h : IsPeak nch nsamp s p)
    (zeros : ∀ c n, inBlock nch nsamp c n → bufRead s.dp c n = some 0) : p = 0 := by
  obtain ⟨-, zero | ⟨c, n, v, inside, held, largest⟩⟩ := h
  · exact zero
  · rw [zeros c n inside, Option.some.injEq] at held
    rw [largest, ← held, abs_zero]

/-- Settles O32: a hiss of 0 disables the noise, a saturation of 0 its stage, and a bias of 0 gives no offset. -/
theorem zerosInZerosOut : Obligations.ZerosInZerosOut := by
  intro nch nsamp s exact accepted quiet zeros clear hiss unbiased
  let F := Fns.rational s.cfg
  let := NUM.exact F
  let b := blockLocals s.cfg s.P
  have filled : Filled nch nsamp s := fun c n inside => by rw [zeros c n inside]; rfl
  have silent : b.enNoise = false := by simp [b, blockLocals, hiss, Laws.noise_zero F]
  have offset : b.enSat = false ∨ b.boff = 0 := unbiased.imp (fun sat => by simp [b, blockLocals, sat])
    fun bias => by simp [b, blockLocals, bias]
  have start : Silent nch nsamp (latchInto s.DIRTY s.dp s.P).ch (latchInto s.DIRTY s.dp s.P).BUF := by
    rw [latchInto_eq]
    exact ⟨clear, zeros⟩
  obtain ⟨stillClear, stillZero⟩ := loop_silent (Laws.rational_lawful s.cfg) (cfg := s.cfg) offset silent start
  refine ⟨processed nch nsamp s, (exec_eq_exact exact _).trans (congrArg _ (process_of_quiet accepted filled quiet)),
    (isPeak_peakOf F accepted.channels filled).eq_zero zeros, ?_, stillZero, stillClear⟩
  exact (isPeak_peakOf F (s := processed nch nsamp s) accepted.channels
    fun c n inside => by rw [bufRead]; exact (stillZero c n inside).symm ▸ rfl).eq_zero stillZero

/-! ## A mono block (R187) -/

section
variable {V : Type} [NUM V] [DecidableEq V] {cfg : Cfg V} {b : BlockLocals V} {d : Datapath V}

/-- The oscillators and the generator do not depend on the channels of the block. -/
theorem loop_shared (nch nch' nsamp : Nat) : (loop cfg b nch nsamp d).osc = (loop cfg b nch' nsamp d).osc ∧
    (loop cfg b nch nsamp d).RNG = (loop cfg b nch' nsamp d).RNG := by
  induction nsamp with
  | zero => exact ⟨rfl, rfl⟩
  | succ n ih =>
    obtain ⟨osc, RNG⟩ := ih
    obtain ⟨-, -, -, L, coef⟩ : sameSetup d (loop cfg b nch n d) := loop_keeps_setup
    obtain ⟨-, -, -, L', coef'⟩ : sameSetup d (loop cfg b nch' n d) := loop_keeps_setup
    have shared := frameShared_of_same cfg b n n osc RNG (coef.trans coef'.symm)
    rw [loop_succ, loop_succ, frame_osc, frame_osc, frame_RNG, frame_RNG, shared, L, L']
    exact ⟨rfl, rfl⟩

/-- A mono frame loop leaves channel 1 alone. -/
theorem loop_mono_right (nsamp : Nat) : (loop cfg b 1 nsamp d).ch.right = d.ch.right ∧
    (loop cfg b 1 nsamp d).BUF.right = d.BUF.right := by
  refine loop_induct (I := fun u => u.ch.right = d.ch.right ∧ u.BUF.right = d.BUF.right) (fun n _ u kept => ?_) ⟨rfl, rfl⟩
  refine frame_induct (I := fun ch buf => ch.right = d.ch.right ∧ buf.right = d.BUF.right) (fun ds nz c hc u kept => ?_) kept
  obtain ⟨x, v, ran⟩ := channelFrame_eq (b := b) (ds := ds) (nz := nz) (n := n) (d := u) (c := c)
  cases c with
  | left => exact ran ▸ kept
  | right => exact absurd hc (by decide)

end

/-- Settles O33: the two blocks run their frame loops from the same state after the latch. -/
theorem monoLeavesTheRightChannel : Obligations.MonoLeavesTheRightChannel := by
  intro nsamp s accepted filled quiet
  let := numOf s.cfg
  let b := blockLocals s.cfg s.P
  let d := latchInto s.DIRTY s.dp s.P
  have start : d = _ := latchInto_eq s.DIRTY s.dp s.P
  have stereo : Accepted 2 nsamp s := { accepted with someChannel := by decide, channels := le_rfl }
  have monoFilled : Filled 1 nsamp s := fun c n inside => filled c n ⟨inside.1.trans (by decide), inside.2⟩
  obtain ⟨ch, BUF⟩ : (loop s.cfg b 1 nsamp d).ch.right = d.ch.right ∧ (loop s.cfg b 1 nsamp d).BUF.right = d.BUF.right :=
    loop_mono_right nsamp
  obtain ⟨osc, RNG⟩ : (loop s.cfg b 1 nsamp d).osc = (loop s.cfg b 2 nsamp d).osc ∧
      (loop s.cfg b 1 nsamp d).RNG = (loop s.cfg b 2 nsamp d).RNG := loop_shared 1 2 nsamp
  obtain ⟨-, -, -, -, coef⟩ : sameSetup d (loop s.cfg b 1 nsamp d) := loop_keeps_setup
  obtain ⟨-, -, -, -, coef'⟩ : sameSetup d (loop s.cfg b 2 nsamp d) := loop_keeps_setup
  exact ⟨processed 1 nsamp s, processed 2 nsamp s,
    (exec_eq_command _ s).trans (congrArg _ (process_of_quiet accepted monoFilled quiet)),
    (exec_eq_command _ s).trans (congrArg _ (process_of_quiet stereo filled quiet)),
    ch.trans (by rw [start]), BUF.trans (by rw [start]), osc, RNG, coef.trans coef'.symm⟩

/-! ## A block in two parts (46_commands.md R198) -/

section
variable {V : Type} [NUM V] [DecidableEq V] {cfg : Cfg V} {b : BlockLocals V}

/-- `e` is `d` with another BUF, whose cells of a block of `len` frames are those of `d` from frame `n₀` on. -/
structure Shifted (nch n₀ len : Nat) (d e : Datapath V) : Prop where
  state : e = withBuf e.BUF e.SEQ d
  cells : ∀ c k, inBlock nch len c k → bufRead e c k = bufRead d c (n₀ + k)

variable {nch n₀ len k : Nat} {d e : Datapath V}

theorem Shifted.channelFrame (h : Shifted nch n₀ len d e) (hk : k < len) (ds : V) (nz : Pair V) {c : Channel}
    (hc : c.index < nch) :
    Shifted nch n₀ len (channelFrame b ds nz (n₀ + k) d c) (channelFrame b ds nz k e c) := by
  have cell : cellOr0 e c k = cellOr0 d c (n₀ + k) := congrArg (·.getD (NUM.lit 0)) (h.cells c k ⟨hc, hk⟩)
  let x := cellOr0 d c (n₀ + k) * b.gIn
  let r := channelStages b ds nz c x d
  have first : channelResult b ds nz (n₀ + k) d c = (withBuf d.BUF (some ⟨n₀ + k, c⟩) r.1, r.2) :=
    channelStages_ignoreBuf b ds nz c x d d.BUF (some ⟨n₀ + k, c⟩)
  have second : channelResult b ds nz k e c = (withBuf e.BUF (some ⟨k, c⟩) r.1, r.2) := by
    rw [channelResult, cell, h.state]
    exact channelStages_ignoreBuf b ds nz c x d e.BUF (some ⟨k, c⟩)
  have cells := h.cells
  unfold Machine.channelFrame
  rw [first, second, cell]
  generalize mixOf b.mix (cellOr0 d c (n₀ + k)) ((withBuf d.BUF (some ⟨n₀ + k, c⟩) r.1, r.2).2 * b.gOut) = v
  refine ⟨rfl, fun a j inside => ?_⟩
  by_cases written : a = c ∧ j = k
  · obtain ⟨rfl, rfl⟩ := written
    rw [bufRead_bufWrite_same, bufRead_bufWrite_same]
  · rw [bufRead_bufWrite_other written, bufRead_bufWrite_other fun same => written ⟨same.1, by omega⟩]
    exact cells a j inside

theorem Shifted.channels (h : Shifted nch n₀ len d e) (hk : k < len) (ds : V) (nz : Pair V) {cs : List Channel}
    (hcs : ∀ c ∈ cs, c.index < nch) : Shifted nch n₀ len (cs.foldl (Machine.channelFrame b ds nz (n₀ + k)) d)
      (cs.foldl (Machine.channelFrame b ds nz k) e) := by
  induction cs generalizing d e with
  | nil => exact h
  | cons c rest ih =>
    exact ih (h.channelFrame hk ds nz (hcs c List.mem_cons_self)) fun x hx => hcs x (List.mem_cons_of_mem _ hx)

omit [DecidableEq V] in
theorem Shifted.frameShared (h : Shifted nch n₀ len d e) (k : Nat) :
    Shifted nch n₀ len (frameShared cfg b (n₀ + k) d).1 (frameShared cfg b k e).1 ∧
      (frameShared cfg b k e).2 = (frameShared cfg b (n₀ + k) d).2 := by
  have first := frameShared_eq cfg b (n₀ + k) d
  have second := frameShared_of_same cfg b (n₀ + k) k (d := d) (e := e) (by rw [h.state]; rfl) (by rw [h.state]; rfl)
    (by rw [h.state]; rfl)
  generalize Machine.frameShared cfg b (n₀ + k) d = r at *
  obtain ⟨u, nz⟩ := r
  dsimp only at first
  rw [second]
  refine ⟨⟨?_, fun c j inside => ?_⟩, rfl⟩
  · calc ({ e with osc := u.osc, RNG := u.RNG, SEQ := some ⟨k, .left⟩ } : Datapath V)
        = { withBuf e.BUF e.SEQ d with osc := u.osc, RNG := u.RNG, SEQ := some ⟨k, .left⟩ } := by rw [← h.state]
      _ = withBuf e.BUF (some ⟨k, .left⟩) { d with osc := u.osc, RNG := u.RNG, SEQ := some ⟨n₀ + k, .left⟩ } := rfl
      _ = withBuf e.BUF (some ⟨k, .left⟩) u := by rw [← first]
  · have buf : u.BUF = d.BUF := by rw [first]
    exact (h.cells c j inside).trans (by rw [bufRead, bufRead, buf])

omit [NUM V] [DecidableEq V] in
theorem Shifted.dlyAdv (h : Shifted nch n₀ len d e) : Shifted nch n₀ len (dlyAdv d) (dlyAdv e) :=
  ⟨congrArg Machine.dlyAdv h.state, h.cells⟩

theorem Shifted.frame (h : Shifted nch n₀ len d e) (hk : k < len) :
    Shifted nch n₀ len (frame cfg b nch d (n₀ + k)) (frame cfg b nch e k) := by
  obtain ⟨started, pair⟩ := h.frameShared (cfg := cfg) (b := b) k
  have delay : lfoMod cfg b (Machine.frameShared cfg b k e).1 = lfoMod cfg b (Machine.frameShared cfg b (n₀ + k) d).1 := by
    rw [started.state]
    rfl
  unfold Machine.frame
  dsimp only
  rw [delay, pair]
  exact (started.channels hk _ _ fun c hc => index_lt_of_mem_channels hc).dlyAdv

/-- The second part of a frame loop runs as a loop of its own on the remaining cells. -/
theorem Shifted.loop (h : Shifted nch n₀ len (loop cfg b nch n₀ d) e) (hk : k ≤ len) :
    Shifted nch n₀ len (loop cfg b nch (n₀ + k) d) (loop cfg b nch k e) := by
  induction k with
  | zero => exact h
  | succ k ih =>
    rw [← Nat.add_assoc, loop_succ, loop_succ]
    exact (ih (by omega)).frame (by omega)

/-- The second part writes none of the cells of the first. -/
theorem bufRead_loop_add (c : Channel) {m : Nat} (hm : m < n₀) (k : Nat) :
    bufRead (Machine.loop cfg b nch (n₀ + k) d) c m = bufRead (Machine.loop cfg b nch n₀ d) c m := by
  induction k with
  | zero => rfl
  | succ k ih =>
    rw [← Nat.add_assoc, loop_succ, bufRead_frame_other (by omega), ih]

end

/-- Settles O38: the second block's latch takes the parameters that S holds already, and its frame loop is the second
part of the whole one. -/
theorem splittingABlockChangesOnlyTheTelemetry : Obligations.SplittingABlockChangesOnlyTheTelemetry := by
  intro nch n1 n2 s m accepted filled quiet some1 some2 remaining
  let := numOf s.cfg
  let b := blockLocals s.cfg s.P
  let d := latchInto s.DIRTY s.dp s.P
  have start : d = _ := latchInto_eq s.DIRTY s.dp s.P
  have startCells (c : Channel) (n : Nat) : bufRead d c n = bufRead s.dp c n := by rw [bufRead, latchInto_BUF]; rfl
  obtain ⟨S, -, BLKSZ, -, -⟩ : sameSetup d (loop s.cfg b nch n1 d) := loop_keeps_setup
  have fits := accepted.fits
  let u := processed nch n1 s
  let u' : State := { u with dp := { u.dp with BUF := m } }
  have firstAccepted : Accepted nch n1 s := { accepted with someFrame := some1, fits := by omega }
  have firstFilled : Filled nch n1 s := fun c k inside => filled c k ⟨inside.1, by have := inside.2; omega⟩
  have secondAccepted : Accepted nch n2 u' :=
    { accepted with
      idle := rfl
      someFrame := some2
      fits := by
        have size : u'.dp.BLKSZ = s.dp.BLKSZ := BLKSZ.trans (by rw [start])
        omega }
  have secondFilled : Filled nch n2 u' := fun c k inside => by
    have cell : bufRead u'.dp c k = bufRead s.dp c (n1 + k) := remaining c k inside
    rw [cell]
    exact filled c _ ⟨inside.1, by have := inside.2; omega⟩
  have latched : latchInto u'.DIRTY u'.dp u'.P = withBuf m none (loop s.cfg b nch n1 d) := by
    have taken : (loop s.cfg b nch n1 d).S = s.P := S.trans (by rw [start])
    have again : latchInto u'.DIRTY u'.dp u'.P = { withBuf m none (loop s.cfg b nch n1 d) with S := s.P } := rfl
    rw [again, ← taken]
    rfl
  have parts : Shifted nch n1 n2 (loop s.cfg b nch (n1 + n2) d)
      (loop s.cfg b nch n2 (latchInto u'.DIRTY u'.dp u'.P)) := by
    refine Shifted.loop ⟨?_, fun c k inside => ?_⟩ le_rfl
    · rw [latched]
      rfl
    · rw [latched, loop_buf_outside fun first => by have := first.2; omega, startCells]
      exact remaining c k inside
  refine ⟨processed nch (n1 + n2) s, u, processed nch n2 u',
    (exec_eq_command _ s).trans (congrArg _ (process_of_quiet accepted filled quiet)),
    (exec_eq_command _ s).trans (congrArg _ (process_of_quiet firstAccepted firstFilled quiet)),
    (exec_eq_command _ u').trans (congrArg _ (process_of_quiet secondAccepted secondFilled quiet)),
    fun c k inside => (bufRead_loop_add c inside.2 n2).symm, parts.cells, ?_, rfl⟩
  exact congrArg (fun e : Datapath ℚ => { e with SEQ := none }) parts.state

end Sys2Proof.Machine
end

section
/-! PROOFS. What the place of a landing word decides (20_memory.md section 4), counted in micro-steps (log 8): a word that
lands after the latch misses the block (R72), one that sets DIRTY is consumed by the latch or left for the next block
(R76), and two words that land between two reads of the latch are taken apart (R71). With them a mono block, which does
not see channel 1 whatever lands in it (45_pipeline.md R187). -/

namespace Sys2Proof.Machine

section
variable {V : Type} [NUM V] [DecidableEq V]

/-! ## A mono block does not see channel 1 (R187) -/

/-- The private state with another channel 1. -/
def withRight (r : Chan V) (m : Mem V) (d : Datapath V) : Datapath V :=
  { d with ch := ⟨d.ch.left, r⟩, BUF := ⟨d.BUF.left, m⟩ }

/-- The micro-operations of channel 0 and of no channel. -/
def MicroOp.ofLeft : MicroOp V → Prop
  | .clearChan c | .gainIn _ c | .saturate c | .biquad c | .lowpass c | .dlyWr c | .dlyRd c | .noiseAdd c | .mix _ c =>
    c = .left
  | .peakCapOut nch _ => nch = 1
  | .configure _ _ _ | .takeDirty | .latch _ | .mapHB | .mapLP | .mapLFO | .setLocals | .clearOsc | .clearPeakIn
  | .clearPeakOut | .setPrepared | .seedRng _ | .seqAt _ _ | .lfoAdv | .lfoRnd | .noise | .lfoMod | .gainOut | .dlyAdv
  | .publishIn | .publishOut => True

section
variable (r : Chan V) (m : Mem V)

omit [DecidableEq V] in
theorem mapHB_withRight (d : Datapath V) : mapHB (withRight r m d) = withRight r m (mapHB d) := by
  unfold mapHB
  rw [apply_ite (withRight r m)]
  rfl

omit [DecidableEq V] in
theorem mapLP_withRight (d : Datapath V) : mapLP (withRight r m d) = withRight r m (mapLP d) := by
  unfold mapLP
  rw [apply_ite (withRight r m)]
  rfl

omit [DecidableEq V] in
theorem mapLFO_withRight (d : Datapath V) : mapLFO (withRight r m d) = withRight r m (mapLFO d) := by
  rw [mapLFO_eq, mapLFO_eq]
  rfl

omit [DecidableEq V] in
theorem lfoRnd_withRight (d : Datapath V) : lfoRnd (withRight r m d) = withRight r m (lfoRnd d) := by
  unfold lfoRnd
  rw [apply_ite (withRight r m)]
  rfl

omit [NUM V] [DecidableEq V] in
/-- The cells of a mono block are channel 0's. -/
theorem left_of_mem_blockCells {nsamp : Nat} {e : Channel × Nat} (h : e ∈ blockCells 1 nsamp) : e.1 = .left := by
  have inside := ((mem_blockCells (by decide)).mp h).1
  match e, inside with
  | (.left, _), _ => rfl

omit [DecidableEq V] in
theorem scanPeak_withRight (d : Datapath V) {cells : List (Channel × Nat)} (left : ∀ e ∈ cells, e.1 = .left) (p : V) :
    scanPeak (withRight r m d) cells p = scanPeak d cells p := by
  induction cells generalizing p with
  | nil => rfl
  | cons e rest ih =>
    obtain ⟨first, others⟩ := List.forall_mem_cons.mp left
    have cell : bufRead (withRight r m d) e.1 e.2 = bufRead d e.1 e.2 := by rw [first]; rfl
    simp only [scanPeak, cell, ih others]

omit [DecidableEq V] in
theorem peakOf_withRight (d : Datapath V) (nsamp : Nat) :
    peakOf (withRight r m d) (blockCells 1 nsamp) = peakOf d (blockCells 1 nsamp) := by
  unfold peakOf
  refine List.foldl_ext _ _ _ fun p e listed => ?_
  rw [left_of_mem_blockCells listed]
  rfl

theorem run_withRight {op : MicroOp V} (h : op.ofLeft) (s : Over.State V) (l : Locals V) :
    op.run (onDatapath (withRight r m) s) l = (onDatapath (withRight r m) (op.run s l).1, (op.run s l).2) := by
  cases op with
  | clearChan | gainIn | saturate | biquad | lowpass | dlyWr | dlyRd | noiseAdd | mix =>
    obtain rfl := h
    rfl
  | peakCapOut nch nsamp =>
    obtain rfl := h
    simp only [MicroOp.run, onDatapath_dp, peakOf_withRight]
  | mapHB => exact congrArg (fun d => ({ s with dp := d }, l)) (mapHB_withRight r m s.dp)
  | mapLP => exact congrArg (fun d => ({ s with dp := d }, l)) (mapLP_withRight r m s.dp)
  | mapLFO => exact congrArg (fun d => ({ s with dp := d }, l)) (mapLFO_withRight r m s.dp)
  | lfoRnd => exact congrArg (fun d => ({ s with dp := d }, l)) (lfoRnd_withRight r m s.dp)
  | _ => rfl

omit [NUM V] [DecidableEq V] in
theorem latchOps_ofLeft : ∀ op ∈ latchOps (V := V), op.ofLeft := by
  simp [latchOps, ParamId.all, MicroOp.ofLeft]

omit [NUM V] [DecidableEq V] in
theorem mapperOps_ofLeft : ∀ op ∈ mapperOps (V := V), op.ofLeft := by
  simp [mapperOps, MicroOp.ofLeft]

omit [NUM V] [DecidableEq V] in
theorem publishOps_ofLeft (nsamp : Nat) : ∀ op ∈ publishOps (V := V) 1 nsamp, op.ofLeft := by
  simp [publishOps, MicroOp.ofLeft]

omit [NUM V] [DecidableEq V] in
/-- The frame loop of a mono block. -/
theorem ofLeft_of_inFrames {nsamp : Nat} {op : MicroOp V} (h : op.inFrames 1 nsamp) : op.ofLeft := by
  have left {c : Channel} (hc : c.index < 1) : c = .left := by
    match c, hc with
    | .left, _ => rfl
  cases op with
  | gainIn | mix => exact left h.1
  | saturate | biquad | lowpass | dlyWr | dlyRd | noiseAdd => exact left h
  | configure | takeDirty | latch | mapHB | mapLP | mapLFO | setLocals | clearChan | clearOsc | clearPeakIn
  | clearPeakOut | setPrepared | seedRng | peakCapOut | publishIn | publishOut => exact h.elim
  | seqAt | lfoAdv | lfoRnd | noise | lfoMod | gainOut | dlyAdv => trivial

end

/-! Landing words see nothing of the private state. -/

section
variable (g : Datapath V → Datapath V)

omit [DecidableEq V] in
theorem setNum_onDatapath (k : NumParam) (w : Word32) (s : Over.State V) :
    setNum k w (onDatapath g s) = onDatapath g (setNum k w s) := by
  unfold setNum
  cases numOperand (V := V) k w <;> rfl

omit [DecidableEq V] in
theorem land_onDatapath (w : CmdWord) (s : Over.State V) : land w (onDatapath g s) = onDatapath g (land w s) := by
  unfold land
  cases decode w with
  | error => rfl
  | ok i =>
    cases i with
    | prepare | reset | seed | process | setpSpeed | setpForm | gettIn | gettOut | gets => rfl
    | _ => exact setNum_onDatapath g _ _ s

omit [DecidableEq V] in
theorem landDue_onDatapath (as : List Arrival) (s : Over.State V) :
    landDue as (onDatapath g s) = onDatapath g (landDue as s) := by
  induction as generalizing s with
  | nil => rfl
  | cons a rest ih =>
    obtain ⟨gap, w⟩ := a
    cases gap with
    | zero => exact (congrArg (landDue rest) (land_onDatapath g w s)).trans (ih (land w s))
    | succ gap => rfl

omit [DecidableEq V] in
theorem tick_onDatapath (s : Over.State V) : tick (onDatapath g s) = onDatapath g (tick s) :=
  landDue_onDatapath g s.arrivals s

end

section
variable (r : Chan V) (m : Mem V)

theorem runOps_withRight {ops : List (MicroOp V)} (h : ∀ op ∈ ops, op.ofLeft) (s : Over.State V) (l : Locals V) :
    runOps ops (onDatapath (withRight r m) s, l) =
      (onDatapath (withRight r m) (runOps ops (s, l)).1, (runOps ops (s, l)).2) := by
  induction ops generalizing s l with
  | nil => rfl
  | cons op rest ih =>
    obtain ⟨first, others⟩ := List.forall_mem_cons.mp h
    simp only [runOps_cons, run_withRight r m first, tick_onDatapath]
    exact ih others _ _

theorem runLatch_withRight (s : Over.State V) : runLatch (onDatapath (withRight r m) s) =
    (onDatapath (withRight r m) (runLatch s).1, (runLatch s).2) := by
  have latched : runOps latchOps (onDatapath (withRight r m) s,
      Locals.start (onDatapath (withRight r m) s).cfg (onDatapath (withRight r m) s).dp.S) = _ :=
    runOps_withRight r m latchOps_ofLeft s (Locals.start s.cfg s.dp.S)
  unfold runLatch
  dsimp only
  rw [latched]
  generalize runOps latchOps (s, Locals.start s.cfg s.dp.S) = q
  refine runOps_withRight r m (fun op listed => ?_) q.1 q.2
  obtain mapper | locals := List.mem_append.mp listed
  · split at mapper
    · exact mapperOps_ofLeft op mapper
    · cases mapper
  · obtain rfl := List.mem_singleton.mp locals
    trivial

theorem runBlock_withRight (nsamp : Nat) (p : V) (s : Over.State V) (l : Locals V) :
    runBlock 1 nsamp p (onDatapath (withRight r m) s, l) = onDatapath (withRight r m) (runBlock 1 nsamp p (s, l)) := by
  have ofLeft : ∀ op ∈ framesOps l.blk 1 nsamp ++ publishOps 1 nsamp, op.ofLeft := fun op listed =>
    (List.mem_append.mp listed).elim (fun frames => ofLeft_of_inFrames (framesOps_inFrames _ 1 nsamp op frames))
      (publishOps_ofLeft nsamp op)
  unfold runBlock
  dsimp only
  rw [tick_onDatapath, runOps_withRight r m ofLeft]
  rfl

theorem processBody_withRight (nsamp : Nat) (s : Over.State V) :
    processBody 1 nsamp (onDatapath (withRight r m) s) = onDatapath (withRight r m) (processBody 1 nsamp s) := by
  have acquired : acquire (onDatapath (withRight r m) s) = onDatapath (withRight r m) (acquire s) := by
    unfold acquire
    exact tick_onDatapath (withRight r m) { s with BUSY := true }
  have latched := runLatch_withRight r m (acquire s)
  rw [← acquired] at latched
  have scan := scanPeak_withRight r m (runLatch (acquire s)).1.dp (cells := blockCells 1 nsamp)
    (fun _ => left_of_mem_blockCells) (NUM.lit 0)
  have scan' : scanPeak (runLatch (acquire (onDatapath (withRight r m) s))).1.dp (blockCells 1 nsamp) (NUM.lit 0) =
      scanPeak (runLatch (acquire s)).1.dp (blockCells 1 nsamp) (NUM.lit 0) := by
    rw [latched]
    exact scan
  cases found : scanPeak (runLatch (acquire s)).1.dp (blockCells 1 nsamp) (NUM.lit 0) with
  | error e =>
    rw [processBody_of_scan_error found, processBody_of_scan_error (scan'.trans found), latched]
    rfl
  | ok p =>
    rw [processBody_of_scan_ok found, processBody_of_scan_ok (scan'.trans found), latched]
    exact runBlock_withRight r m nsamp p _ _

theorem process_withRight (nsamp : Nat) (s : Over.State V) :
    process 1 nsamp (onDatapath (withRight r m) s) = onDatapath (withRight r m) (process 1 nsamp s) := by
  unfold process unlessBusy
  simp only [apply_ite (onDatapath (withRight r m))]
  rw [← processBody_withRight]
  rfl

end

end

/-- Settles O34: PROCESS with channel 1 replaced is PROCESS, then channel 1 replaced. -/
theorem monoNeverReadsTheRightChannel : Obligations.MonoNeverReadsTheRightChannel := fun nsamp s r m =>
  ⟨_, exec_eq_command _ s, (exec_eq_command _ _).trans (congrArg _
    (letI := numOf s.cfg; process_withRight r m nsamp s))⟩

section
variable {V : Type} [NUM V] [DecidableEq V]

/-! ## Words that land after the latch (20_memory.md R72) -/

/-- No micro-operation reads or writes the words on their way. -/
theorem run_arrivals (op : MicroOp V) (s : Over.State V) (l : Locals V) (as : List Arrival) :
    op.run { s with arrivals := as } l = ({ (op.run s l).1 with arrivals := as }, (op.run s l).2) := by
  cases op <;> rfl

omit [DecidableEq V] in
/-- Nothing lands while the first word is not due. -/
theorem tick_before_landing (s : Over.State V) (g : Nat) (w : CmdWord) (rest : List Arrival) :
    tick { s with arrivals := ⟨g + 1, w⟩ :: rest } = { s with arrivals := ⟨g, w⟩ :: rest } :=
  rfl

/-- Micro-operations before the first word lands run as with nothing landing. -/
theorem runOps_before_landing (ops : List (MicroOp V)) (op : MicroOp V) (g : Nat) (w : CmdWord) (rest : List Arrival)
    (s : Over.State V) (l : Locals V) :
    runOps (ops ++ [op]) ({ s with arrivals := ⟨g + ops.length, w⟩ :: rest }, l) =
      (tick { (runOps (ops ++ [op]) (s.quiet, l)).1 with arrivals := ⟨g, w⟩ :: rest },
        (runOps (ops ++ [op]) (s.quiet, l)).2) := by
  induction ops generalizing s l with
  | nil =>
    simp only [List.nil_append, runOps_cons, runOps_nil, Over.State.quiet, run_arrivals]
    rfl
  | cons o ops ih =>
    have quietRun : o.run s.quiet l = ((o.run s l).1.quiet, (o.run s l).2) := run_arrivals o s l []
    have quietTick : tick (o.run s l).1.quiet = (o.run s l).1.quiet := rfl
    rw [List.cons_append, runOps_cons, runOps_cons, run_arrivals, List.length_cons, ← Nat.add_assoc,
      tick_before_landing, quietRun, quietTick]
    exact ih (o.run s l).1 (o.run s l).2

theorem latchTakes_of_quiet {s : Over.State V} (quiet : s.arrivals = []) : LatchTakes s s.P := by
  rw [LatchTakes, runOps_latch _ quiet]
  exact ⟨.refl _, rfl⟩

/-- The latch takes the parameters of its start when nothing lands before it has read the last. -/
theorem latch_of_late {s : Over.State V} (late : ∀ a ∈ s.arrivals.head?, 15 ≤ a.gap) :
    LatchTakes (acquire s) s.P ∧ (acquire s).DIRTY = s.DIRTY := by
  match arrivals : s.arrivals with
  | [] =>
    rw [acquire_of_quiet arrivals]
    exact ⟨latchTakes_of_quiet (by exact arrivals), rfl⟩
  | ⟨gap, w⟩ :: rest =>
    rw [arrivals] at late
    obtain ⟨g, rfl⟩ : ∃ g, gap = g + 15 := ⟨gap - 15, by have := late _ rfl; dsimp only at this; omega⟩
    have acquired : acquire s = { s with BUSY := true, arrivals := ⟨g + 14, w⟩ :: rest } := by
      rw [show s = { s with arrivals := ⟨g + 15, w⟩ :: rest } by rw [← arrivals]]
      exact tick_before_landing { s with BUSY := true } (g + 14) w rest
    rw [acquired]
    let u : Over.State V := { s with BUSY := true, arrivals := ⟨g + 14, w⟩ :: rest }
    have split : latchOps (V := V) = (.takeDirty :: (ParamId.all.take 13).map .latch) ++ [.latch .form] := rfl
    have latched := runOps_before_landing (.takeDirty :: (ParamId.all.take 13).map .latch) (.latch .form) g w rest u
      (Locals.start s.cfg s.dp.S)
    rw [← split, runOps_latch (s := u.quiet) _ rfl] at latched
    refine ⟨?_, rfl⟩
    have ran : runOps latchOps (u, Locals.start s.cfg s.dp.S) = _ := latched
    rw [LatchTakes, ran]
    have landed := tick_change { u with
      DIRTY := false, dp := { u.dp with S := s.P }, arrivals := ⟨g, w⟩ :: rest }
    exact ⟨⟨landed.rest, landed.err, landed.dirty⟩, rfl⟩

/-- What a command leaves of the private state and the telemetry. -/
def observed (s : Over.State V) : Datapath V × V × V := (s.dp, s.PEAK_IN, s.PEAK_OUT)

omit [NUM V] [DecidableEq V] in
theorem AgentChange.observed {s t : Over.State V} (a : AgentChange s t) : observed t = observed s := by
  rw [Machine.observed, a.dp, a.PEAK_IN, a.PEAK_OUT]
  rfl

/-- A block in which nothing lands before its latch has read the last parameter is seen as if nothing landed. -/
theorem processBody_of_late (nch nsamp : Nat) {s t : Over.State V} (late : ∀ a ∈ s.arrivals.head?, 15 ≤ a.gap)
    (quiet : t = s.quiet) : observed (processBody nch nsamp s) = observed (processBody nch nsamp t) := by
  subst quiet
  obtain ⟨takes, dirty⟩ := latch_of_late late
  obtain ⟨takes', dirty'⟩ := latch_of_late (s := s.quiet) (by simp [Over.State.quiet])
  obtain ⟨unwritten, filled⟩ := processBody_spec takes nch nsamp
  obtain ⟨unwritten', filled'⟩ := processBody_spec takes' nch nsamp
  rw [dirty] at unwritten filled
  rw [dirty'] at unwritten' filled'
  cases found : scanPeak s.dp (blockCells nch nsamp) (NUM.lit 0) with
  | error e => exact (unwritten e found).observed.trans (unwritten' e found).observed.symm
  | ok p => exact (filled p found).observed.trans (filled' p found).observed.symm

theorem process_of_late (nch nsamp : Nat) {s : Over.State V} (late : ∀ a ∈ s.arrivals.head?, 15 ≤ a.gap) :
    observed (process nch nsamp s) = observed (process nch nsamp s.quiet) := by
  unfold process unlessBusy
  simp only [apply_ite observed]
  rw [processBody_of_late nch nsamp late rfl]
  rfl

end

/-- Settles O35: the latch takes the same parameters, and the rest of the block reads none. -/
theorem lateCommandsMissTheBlock : Obligations.LateCommandsMissTheBlock := by
  intro nch nsamp s as late
  let := numOf s.cfg
  have same : observed (process nch nsamp { s with arrivals := as }) = observed (process nch nsamp { s with arrivals := [] }) :=
    process_of_late nch nsamp (s := { s with arrivals := as }) late
  obtain ⟨dp, peaks⟩ := Prod.ext_iff.mp same
  obtain ⟨peakIn, peakOut⟩ := Prod.ext_iff.mp peaks
  exact ⟨_, _, exec_eq_command _ _, exec_eq_command _ _, dp, peakIn, peakOut⟩

end Sys2Proof.Machine
end

section
/-! PROOFS. A word that lands around the test-and-clear of DIRTY (20_memory.md R76), and two words that land between two
reads of the latch (R71). -/

namespace Sys2Proof.Machine

section
variable {V : Type} [NUM V] [DecidableEq V]

/-! ## A DIRTY-setting word on its way (R76) -/

/-- The word sets DIRTY wherever it lands. -/
def SetsDirty (V : Type) [NUM V] (w : CmdWord) : Prop := ∀ s : Over.State V, (land w s).DIRTY = true

omit [DecidableEq V] in
theorem setNum_DIRTY {k : NumParam} (sets : setsDirty (.num k) = true) {v : Word32} (finite : (dec32 v).isSome = true)
    (s : Over.State V) : (setNum k v s).DIRTY = true := by
  obtain ⟨q, hq⟩ := Option.isSome_iff_exists.mp finite
  simp only [setNum, numOperand, hq, Option.map_some, respond_DIRTY, sets, Bool.or_true]

omit [DecidableEq V] in
/-- A SETP of a DIRTY-setting parameter with an operand that it accepts (10_state.md R32). -/
theorem setsDirty_of_decode {w : CmdWord} {i : Instr} {v : Word32} (decoded : decode w = .ok i)
    (setp : (dec32 v).isSome = true ∧ i ∈ [Instr.setpWarmth v, .setpHbamt v, .setpHbfreq v, .setpAge v] ∨
      i ∈ [Instr.setpSpeed v, .setpForm v]) : SetsDirty V w := by
  intro s
  unfold land
  rw [decoded]
  simp only [List.mem_cons, List.not_mem_nil, or_false] at setp
  obtain ⟨finite, rfl | rfl | rfl | rfl⟩ | rfl | rfl := setp
  · exact setNum_DIRTY (k := .warmth) rfl finite s
  · exact setNum_DIRTY (k := .hbamt) rfl finite s
  · exact setNum_DIRTY (k := .hbfreq) rfl finite s
  · exact setNum_DIRTY (k := .age) rfl finite s
  · exact Bool.or_true _
  · exact Bool.or_true _

/-- The word has set DIRTY, or is on its way and lands within `n` more micro-steps. -/
def DueWithin (w : CmdWord) (n : Nat) (s : Over.State V) : Prop :=
  s.DIRTY = true ∨ ∃ g, s.arrivals = [⟨g, w⟩] ∧ g < n

omit [NUM V] [DecidableEq V] in
theorem DueWithin.of_same {w : CmdWord} {n : Nat} {s t : Over.State V} (h : DueWithin w n s) (DIRTY : t.DIRTY = s.DIRTY)
    (arrivals : t.arrivals = s.arrivals) : DueWithin w n t := by
  rw [DueWithin, DIRTY, arrivals]
  exact h

variable {w : CmdWord} (sets : SetsDirty V w)
include sets

omit [DecidableEq V] in
/-- A micro-step brings the word one nearer. -/
theorem DueWithin.tick {n : Nat} {s : Over.State V} (h : DueWithin w n s) : DueWithin w (n - 1) (tick s) := by
  obtain dirty | ⟨g, arrivals, near⟩ := h
  · exact .inl ((tick_change s).dirty dirty)
  · unfold Machine.tick
    rw [arrivals]
    cases g with
    | zero => exact .inl (sets s)
    | succ g => exact .inr ⟨g, rfl, by omega⟩

/-- Only the test-and-clear clears DIRTY. -/
theorem DueWithin.runOps {ops : List (MicroOp V)} (hops : MicroOp.takeDirty ∉ ops) {n : Nat} {s : Over.State V}
    (l : Locals V) (h : DueWithin w n s) : DueWithin w (n - ops.length) (runOps ops (s, l)).1 := by
  induction ops generalizing n s l with
  | nil => exact h
  | cons op rest ih =>
    rw [List.mem_cons, not_or] at hops
    obtain ⟨notFirst, notLater⟩ := hops
    obtain ⟨-, -, -, -, -, arrivals, -⟩ := run_keeps op s l
    have DIRTY : (op.run s l).1.DIRTY = s.DIRTY := by
      cases op with
      | takeDirty => exact absurd rfl notFirst
      | _ => rfl
    have later := ih notLater (op.run s l).2 ((h.of_same DIRTY arrivals).tick sets)
    rw [List.length_cons, Nat.add_comm, ← Nat.sub_sub]
    exact later

omit [NUM V] [DecidableEq V] sets in
theorem DueWithin.mono {n m : Nat} {s : Over.State V} (h : DueWithin w n s) (le : n ≤ m) : DueWithin w m s :=
  h.imp_right fun ⟨g, arrivals, near⟩ => ⟨g, arrivals, near.trans_le le⟩

/-- A word that has not landed when the sequencer has BUSY is due within the gap through the latch: the test-and-clear
and the fourteen reads are fifteen micro-steps. -/
theorem runLatch_dueWithin {gap : Nat} {s : Over.State V} (arrivals : s.arrivals = [⟨gap, w⟩]) :
    DueWithin w (gap - 14) (runLatch s).1 := by
  have cleared : DueWithin w (gap + 1) ({ s with DIRTY := false } : Over.State V) := .inr ⟨gap, arrivals, by omega⟩
  have reads : MicroOp.takeDirty ∉ ParamId.all.map (MicroOp.latch (V := V)) := by simp
  have latched := (cleared.tick sets).runOps sets reads { Locals.start s.cfg s.dp.S with dirty := s.DIRTY }
  unfold runLatch
  dsimp only
  generalize ran : Machine.runOps latchOps (s, Locals.start s.cfg s.dp.S) = r
  have latchedWithin : DueWithin w (gap - 14) r.1 := by
    rw [← ran, latchOps, runOps_cons]
    exact latched.mono (by simp [ParamId.all])
  have noClear : MicroOp.takeDirty ∉ (if r.2.dirty then mapperOps else []) ++ [MicroOp.setLocals (V := V)] := by
    cases r.2.dirty <;> simp [mapperOps]
  exact (latchedWithin.runOps sets noClear r.2).mono (Nat.sub_le _ _)

/-- R76: a word that comes after the test-and-clear has set DIRTY when the block ends, or is still on its way. -/
theorem processBody_dueWithin (nch nsamp : Nat) {gap : Nat} {s : Over.State V} (arrivals : s.arrivals = [⟨gap + 1, w⟩]) :
    DueWithin w (gap - 14) (processBody nch nsamp s) := by
  have acquired : (acquire s).arrivals = [⟨gap, w⟩] := by
    unfold acquire Machine.tick
    rw [show ({ s with BUSY := true } : Over.State V).arrivals = _ from arrivals]
    rfl
  have latched := runLatch_dueWithin sets acquired
  cases found : scanPeak (runLatch (acquire s)).1.dp (blockCells nch nsamp) (NUM.lit 0) with
  | error e =>
    rw [processBody_of_scan_error found]
    exact latched.of_same (by simp) (by simp)
  | ok p =>
    rw [processBody_of_scan_ok found]
    have noClear : MicroOp.takeDirty ∉ framesOps (runLatch (acquire s)).2.blk nch nsamp ++ publishOps nch nsamp := by
      intro listed
      obtain frames | publish := List.mem_append.mp listed
      · exact framesOps_inFrames _ nch nsamp _ frames
      · simp [publishOps] at publish
    have ran := (latched.tick sets).runOps sets noClear { (runLatch (acquire s)).2 with pIn := p }
    unfold runBlock
    dsimp only
    generalize Machine.runOps (V := V) _ _ = q at ran ⊢
    exact (ran.mono (by omega)).of_same rfl rfl

omit sets

/-- The block that a word landing as it is accepted leads to: the word has done its work before. -/
def landedFirst (w : CmdWord) (s : Over.State V) : Over.State V :=
  { land w { s with BUSY := true } with BUSY := false, arrivals := [] }

omit [DecidableEq V] in
theorem acquire_landedFirst {s : Over.State V} (arrivals : s.arrivals = [⟨0, w⟩]) :
    acquire (landedFirst w s) = acquire s := by
  have busy : (land w { s with BUSY := true }).BUSY = true := (land_change w _).BUSY
  have landed : acquire s = { land w { s with BUSY := true } with arrivals := [] } := by
    unfold acquire Machine.tick
    rw [show ({ s with BUSY := true } : Over.State V).arrivals = _ from arrivals]
    rfl
  rw [acquire_of_quiet rfl, landed, landedFirst]
  generalize land w { s with BUSY := true } = u at busy
  rw [← busy]

theorem processBody_of_acquire {s t : Over.State V} (same : acquire s = acquire t) (nch nsamp : Nat) :
    processBody nch nsamp s = processBody nch nsamp t := by
  unfold processBody
  rw [same]

/-- A word that lands as a block is accepted comes before its test-and-clear. -/
theorem process_of_landedFirst {nch nsamp : Nat} {s : Over.State V} (accepted : Accepted nch nsamp s)
    (filled : Filled nch nsamp s) (arrivals : s.arrivals = [⟨0, w⟩]) :
    process nch nsamp s = processed nch nsamp (landedFirst w s) := by
  have change := land_change w { s with BUSY := true }
  have dp : (landedFirst w s).dp = s.dp := change.dp
  have accepted' : Accepted nch nsamp (landedFirst w s) :=
    { accepted with idle := rfl, prepared := change.PREPARED.trans accepted.prepared, fits := dp ▸ accepted.fits }
  have filled' : Filled nch nsamp (landedFirst w s) := fun c n inside => dp ▸ filled c n inside
  rw [← process_of_quiet accepted' filled' rfl, process_of_accepted accepted, process_of_accepted accepted']
  exact processBody_of_acquire (acquire_landedFirst arrivals).symm nch nsamp

end

/-- Settles O36: a gap of 0 is a landing before the test-and-clear, and the block is that of the state it leaves; a
later landing leaves DIRTY set, within the fifteen micro-steps of the latch for a gap up to 15. -/
theorem dirtyIsNeverLost : Obligations.DirtyIsNeverLost := by
  intro nch nsamp gap w i v s accepted filled arrivals decoded setp
  let := numOf s.cfg
  have sets : SetsDirty ℚ w := setsDirty_of_decode decoded setp
  refine ⟨process nch nsamp s, exec_eq_command _ s, fun atStart => ?_, fun later => ?_, fun later near => ?_⟩
  · subst atStart
    let s' := landedFirst w s
    have change := land_change w { s with BUSY := true }
    have cfg : s'.cfg = s.cfg := change.cfg
    have dp : s'.dp = s.dp := change.dp
    have dirty : s'.DIRTY = true := sets _
    obtain ⟨S, -, -, -, coef⟩ : sameSetup _ (loop s'.cfg (blockLocals s'.cfg s'.P) nch nsamp
      (latchInto s'.DIRTY s'.dp s'.P)) := loop_keeps_setup
    rw [process_of_landedFirst accepted filled arrivals]
    refine ⟨rfl, S.trans (by rw [latchInto_eq]; rfl), coef.trans ?_, fun l blk => ?_⟩
    · rw [dirty, dp]
      rfl
    · rw [afterFrames_eq, blk]
      have ran : (processed nch nsamp s').dp = { loop s'.cfg (blockLocals s'.cfg s'.P) nch nsamp
        (latchInto s'.DIRTY s'.dp s'.P) with SEQ := none } := rfl
      rw [ran, cfg, dp, dirty]
      rfl
  all_goals
    obtain ⟨g, rfl⟩ : ∃ g, gap = g + 1 := ⟨gap - 1, by omega⟩
    rw [process_of_accepted accepted]
    obtain dirty | ⟨g', onItsWay, near'⟩ := processBody_dueWithin sets nch nsamp arrivals
  · exact .inl dirty
  · exact .inr (by rw [onItsWay]; exact List.cons_ne_nil _ _)
  · exact dirty
  · omega

/-! ## Two words between two reads of the latch (R71) -/

section
variable {V : Type} [NUM V] [DecidableEq V]

/-- With nothing landing, the latch reads the listed parameters from one file. -/
theorem runOps_latches_of_quiet (ks : List ParamId) {s : Over.State V} (l : Locals V) (quiet : s.arrivals = []) :
    runOps (ks.map .latch) (s, l) =
      ({ s with dp := { s.dp with S := ks.foldl (fun q k => ParamFile.copy k s.P q) s.dp.S } }, l) := by
  induction ks generalizing s with
  | nil => rfl
  | cons k rest ih =>
    rw [List.map_cons, runOps_cons, tick_of_quiet (by exact quiet)]
    exact ih (s := onDatapath (fun d => { d with S := ParamFile.copy k s.P d.S }) s) quiet

omit [DecidableEq V] in
theorem land_setp {k : NumParam} {v : Word32} {x : V} (operand : numOperand k v = some x) (s : Over.State V) :
    land (encode (setpOf k v)) s = respond 0 { s with P := s.P.set k x, DIRTY := s.DIRTY || setsDirty (.num k) } := by
  have decoded : decode (encode (setpOf k v)) = .ok (setpOf k v) :=
    commandWordsRoundTrip _ (by cases k <;> rfl)
  have ran : whileBusy (setpOf k v) s = setNum k v s := by cases k <;> rfl
  rw [land, decoded]
  simp only [ran, setNum, operand]

/-- With nothing landing after its latch, a block leaves the parameters as its latch left them. -/
theorem processBody_P_of_quiet_latch (nch nsamp : Nat) {s : Over.State V}
    (quiet : (runOps latchOps (acquire s, Locals.start (acquire s).cfg (acquire s).dp.S)).1.arrivals = []) :
    (processBody nch nsamp s).P = (runOps latchOps (acquire s, Locals.start (acquire s).cfg (acquire s).dp.S)).1.P := by
  have latched : (runLatch (acquire s)).1.arrivals = [] ∧ (runLatch (acquire s)).1.P =
      (runOps latchOps (acquire s, Locals.start (acquire s).cfg (acquire s).dp.S)).1.P := by
    unfold runLatch
    exact ⟨(runOps_of_quiet quiet).2, (runOps_P_out_of_quiet quiet).1⟩
  rw [← latched.2]
  cases found : scanPeak (runLatch (acquire s)).1.dp (blockCells nch nsamp) (NUM.lit 0) with
  | error e => rw [processBody_of_scan_error found, failWith_eq, raise_P, release_P]
  | ok p =>
    rw [processBody_of_scan_ok found, runBlock_of_quiet _ _ _ _ latched.1]
    rfl

variable {s : Over.State V} {a b : Word32} {va vb : V}

omit [NUM V] [DecidableEq V] in
/-- Copying the parameters after DRIVE leaves the old DRIVE. -/
theorem copy_after_drive (src dst : ParamFile V) :
    (ParamId.all.drop 1).foldl (fun q k => ParamFile.copy k src q) dst = { src with drive := dst.drive } := by
  simp [ParamId.all, ParamFile.copy, ParamFile.set, ParamFile.get]

/-- The latch of R71: DRIVE is read, both words land, MIX is read. -/
theorem runOps_latchOps_torn (drive : numOperand .drive a = some va) (mix : numOperand .mix b = some vb)
    (arrivals : s.arrivals = [⟨1, encode (.setpDrive a)⟩, ⟨0, encode (.setpMix b)⟩]) (l : Locals V) :
    runOps latchOps (s, l) = ({ s with
      P := { s.P with drive := va, mix := vb }
      DIRTY := false
      arrivals := []
      out := answer 0 0 :: answer 0 0 :: s.out
      dp := { s.dp with S := { s.P with mix := vb } } }, { l with dirty := s.DIRTY }) := by
  have cleared (t : Over.State V) (h : t.arrivals = [⟨1, encode (.setpDrive a)⟩, ⟨0, encode (.setpMix b)⟩]) :
      tick t = { t with arrivals := [⟨0, encode (.setpDrive a)⟩, ⟨0, encode (.setpMix b)⟩] } := by
    rw [tick, h]
    rfl
  have landed (t : Over.State V) (h : t.arrivals = [⟨0, encode (.setpDrive a)⟩, ⟨0, encode (.setpMix b)⟩]) :
      tick t = { t with
        P := { t.P with drive := va, mix := vb }
        DIRTY := (t.DIRTY || false) || false
        arrivals := []
        out := answer 0 0 :: answer 0 0 :: t.out } := by
    have both : tick t = landDue [] (land (encode (setpOf .mix b)) (land (encode (setpOf .drive a)) t)) := by
      rw [tick, h]
      rfl
    rw [both, land_setp drive, land_setp mix]
    rfl
  have split : latchOps (V := V) = .takeDirty :: .latch (.num .drive) :: (ParamId.all.drop 1).map .latch := rfl
  have first := cleared { s with DIRTY := false } arrivals
  rw [split, runOps_cons]
  dsimp only [MicroOp.run]
  rw [first, runOps_cons]
  dsimp only [MicroOp.run]
  rw [landed _ (by rfl), runOps_latches_of_quiet _ _ (by rfl), copy_after_drive]
  rfl

end

/-- Settles O37: the latch holds the old DRIVE and the new MIX, and nothing lands after it. -/
theorem latchMayTearAcrossParameters : Obligations.LatchMayTearAcrossParameters := by
  intro nch nsamp a b va vb s accepted filled operands arrivals
  let := numOf s.cfg
  obtain ⟨drive, mix⟩ := operands
  have acquired : acquire s = { s with
      BUSY := true, arrivals := [⟨1, encode (.setpDrive a)⟩, ⟨0, encode (.setpMix b)⟩] } := by
    unfold acquire tick
    rw [show ({ s with BUSY := true } : State).arrivals = _ from arrivals]
    rfl
  have torn := runOps_latchOps_torn (s := acquire s) drive mix (by rw [acquired])
    (Locals.start (acquire s).cfg (acquire s).dp.S)
  have takes : LatchTakes (acquire s) { s.P with mix := vb } := by
    rw [LatchTakes, torn, acquired]
    exact ⟨⟨rfl, fun _ => rfl, fun h => h⟩, rfl⟩
  obtain ⟨-, change⟩ := process_of_filled accepted filled takes
  have snapshot : (process nch nsamp s).dp.S = { s.P with mix := vb } := by
    obtain ⟨S, -⟩ : sameSetup (latchInto (acquire s).DIRTY s.dp { s.P with mix := vb }) _ := loop_keeps_setup
    rw [change.dp]
    exact S.trans (by rw [latchInto_eq])
  have params : (process nch nsamp s).P = { s.P with drive := va, mix := vb } := by
    rw [process_of_accepted accepted, processBody_P_of_quiet_latch nch nsamp (by rw [torn]), torn, acquired]
  refine ⟨process nch nsamp s, exec_eq_command _ s, ?_⟩
  rw [params, snapshot]
  exact ⟨rfl, rfl, rfl, rfl⟩

end Sys2Proof.Machine
end
